-- ==== Sys2Proof/Word.lean ====
section
/-! DEFINITION. The word types of HUFFCORE: a 32-bit command or register-space word (rules R7, R80), and a byte
(rule R6: a symbol is one byte). Nothing in the block is signed (rule R8). -/

namespace Sys2Proof

/-- A command word or a register-space word, 32 bits (CMD_W, rule R7). -/
abbrev Word := BitVec 32

/-- A symbol, a source byte, a container byte or an output byte, 8 bits (rule R6). -/
abbrev Byte := BitVec 8

end Sys2Proof
end

