-- ==== Sys2Proof/Config.lean ====
section
/-! DEFINITION. The parameters rule R7 fixes for this hardware, the two constant identification words of rule R41,
and the values the spec leaves free: they are opaque constants, so no proof can know them. -/

namespace Sys2Proof

/-- NSYM: the number of symbols, and of FREQ, REM and LUT entries (rule R7). -/
abbrev Config.nsym : Nat := 256

/-- NNODE = 2·NSYM − 1: node arena entries, ids 0..510 (rule R7). -/
abbrev Config.nnode : Nat := 511

/-- HDR_ENTRY_BYTES = FREQ_W/8: bytes per header entry (rule R7). -/
abbrev Config.hdrEntryBytes : Nat := 4

/-- HDR_BYTES = NSYM × HDR_ENTRY_BYTES: header size in bytes (rule R7). -/
abbrev Config.hdrBytes : Nat := 1024

/-- MAXLEN = NSYM − 1: the largest code length (rules R7, R153). -/
abbrev Config.maxLen : Nat := 255

/-- The ID register's value, "HUF1" in ASCII (rule R41). -/
def Config.idWord : Word := 0x48554631

/-- The PARAM register's value: HDR_ENTRY_BYTES, FREQ_W and NSYM in its three fields (rule R41). -/
def Config.paramWord : Word := 0x04200100

/-- CMD_LATENCY: the clock cycles the k-th command takes, finite and unspecified (rules R7, R268). No rule reads it,
and no definition of the model does (assumption 9). -/
opaque Config.cmdLatency : Nat → Nat

/-- FREE VALUE. How many of a command's bytes OUT already holds when `rst` interrupts the command: the k-th such
interruption draws the k-th value (rule R262; item U14 of 93_implementation_defined.md). Assumption 5. -/
opaque Config.resetDraw : Nat → Nat

end Sys2Proof
end

