-- ==== Sys2Proof/Syntax.lean ====
section
/-! DEFINITION. The 13 commands of rule R82, one constructor for each row of spec/opcode_table.json, and the source form
of a command (rule R86). -/

namespace Sys2Proof

/-- A command of the block (rule R82). A format-B command carries its operand byte; any value of it is legal
(rules R81, R88). -/
inductive Instr where
  /-- NOP, no operation (rule R101) -/
  | nop
  /-- INIT, return to the reset state (rule R102) -/
  | init
  /-- ABORTSRC, the host's byte source failed (rule R103) -/
  | abortsrc
  /-- ABORTSNK, the host's byte sink failed (rule R104) -/
  | abortsnk
  /-- CNT b, count one source byte (rule R120) -/
  | cnt (b : Byte)
  /-- BUILD, build the tree from FREQ (rule R130) -/
  | build
  /-- ASSIGN, build the code LUT from the tree (rule R150) -/
  | assign
  /-- HDROUT, emit the container header (rule R191) -/
  | hdrout
  /-- ENC b, encode one source byte (rule R171) -/
  | enc (b : Byte)
  /-- ENCEND, end the bitstream (rule R173) -/
  | encend
  /-- HDRIN b, take one header byte (rule R192) -/
  | hdrin (b : Byte)
  /-- DEC b, decode one body byte (rule R211) -/
  | dec (b : Byte)
  /-- DECEND, the container has ended (rule R212) -/
  | decend
deriving DecidableEq, Repr

/-- The two command formats of rule R81: N has no operand, B has one operand byte. -/
inductive Format where
  | n
  | b
deriving DecidableEq, Repr

/-- A command's mnemonic, the first word of its text (rules R82, R86). -/
inductive Mnemonic where
  | nop | init | abortsrc | abortsnk | cnt | build | assign | hdrout | enc | encend | hdrin | dec | decend
deriving DecidableEq, Repr

/-- All mnemonics, in the order of rule R82's table. -/
def Mnemonic.all : List Mnemonic :=
  [.nop, .init, .abortsrc, .abortsnk, .cnt, .build, .assign, .hdrout, .enc, .encend, .hdrin, .dec, .decend]

/-- A command as its source text gives it: a mnemonic and the operand number, if one is written (rule R86). Unlike a
term of `Instr`, it can be ill-formed. -/
structure SourceCommand where
  mnemonic : Mnemonic
  operand : Option Nat
deriving DecidableEq, Repr

end Sys2Proof
end

