-- ==== Sys2Proof/WellFormed.lean ====
section
/-! DEFINITION. What rules R81, R83, R84 and R86 ask of a command. A term of `Instr` meets every check by its type, since
its only operand is a byte and every byte is legal; the checks are about the two forms that can break them, a source
command (rule R86) and a command word (rules R81, R83). -/

namespace Sys2Proof

/-- The format of each command (rule R82). -/
def Mnemonic.format : Mnemonic → Format
  | .cnt | .enc | .hdrin | .dec => .b
  | .nop | .init | .abortsrc | .abortsnk | .build | .assign | .hdrout | .encend | .decend => .n

/-- Why a source command is an assembly error (rule R86). -/
inductive SourceError where
  /-- a format-B mnemonic with no operand -/
  | operandMissing
  /-- a format-N mnemonic with an operand -/
  | operandNotAllowed
  /-- an operand outside 0..255; it is never truncated -/
  | operandTooLarge
deriving DecidableEq, Repr

/-- The checks of rule R86 on a source command, each failure by its name. -/
def SourceCommand.problem (c : SourceCommand) : Option SourceError :=
  match c.mnemonic.format, c.operand with
  | .n, none => none
  | .n, some _ => some .operandNotAllowed
  | .b, none => some .operandMissing
  | .b, some v => if v < 256 then none else some .operandTooLarge

/-- A source command that the assembler accepts (rule R86). -/
def SourceCommand.wellFormed (c : SourceCommand) : Bool := c.problem.isNone

/-- OPC, bits [31:24] of a command word (rule R80). -/
def opcField (w : Word) : BitVec 8 := w.extractLsb' 24 8

/-- RSV, bits [23:8] of a command word (rule R80). -/
def rsvField (w : Word) : BitVec 16 := w.extractLsb' 8 16

/-- OPND, bits [7:0] of a command word (rules R80, R88). -/
def opndField (w : Word) : Byte := w.extractLsb' 0 8

/-- The format of each assigned opcode; none for the reserved opcodes of rule R84. -/
def opcodeFormat (opc : BitVec 8) : Option Format :=
  if opc ∈ [0x00#8, 0x01#8, 0x02#8, 0x03#8, 0x11#8, 0x12#8, 0x13#8, 0x15#8, 0x22#8] then some .n
  else if opc ∈ [0x10#8, 0x14#8, 0x20#8, 0x21#8] then some .b
  else none

/-- Why a command word is ILLEGAL (rules R83, R84). -/
inductive IllegalWord where
  /-- the opcode is not assigned -/
  | reservedOpcode
  /-- a bit of RSV [23:8] is set -/
  | reservedBits
  /-- a format-N word with a bit of [7:0] set -/
  | operandBits
deriving DecidableEq, Repr

/-- The checks of rules R81 and R83 on a command word, each failure by its name. -/
def wordProblem (w : Word) : Option IllegalWord :=
  match opcodeFormat (opcField w) with
  | none => some .reservedOpcode
  | some .b => if rsvField w = 0 then none else some .reservedBits
  | some .n =>
    if rsvField w ≠ 0 then some .reservedBits
    else if opndField w ≠ 0 then some .operandBits
    else none

/-- A command word of one of the two formats of rule R81, with an assigned opcode. -/
def wordWellFormed (w : Word) : Bool := (wordProblem w).isNone

end Sys2Proof
end

