-- ==== Sys2Proof/Decode.lean ====
section
/-! DEFINITION. Decoding a command word by the match and mask columns of rule R82 (rule R83), total on every 32-bit word,
and the encoder written from the same table (rules R80, R81). -/

namespace Sys2Proof

/-- One row of rule R82's table: the mnemonic, the match and mask words, and the command a matching word stands for, given
its operand byte `b = cmd[7:0]` (rule R88). -/
structure OpcodeRow where
  mnemonic : Mnemonic
  matchWord : Word
  mask : Word
  command : Byte → Instr

/-- The opcode map of rule R82, row for row. -/
def opcodeTable : List OpcodeRow :=
  [ ⟨.nop,      0x00000000, 0xFFFFFFFF, fun _ => .nop⟩,
    ⟨.init,     0x01000000, 0xFFFFFFFF, fun _ => .init⟩,
    ⟨.abortsrc, 0x02000000, 0xFFFFFFFF, fun _ => .abortsrc⟩,
    ⟨.abortsnk, 0x03000000, 0xFFFFFFFF, fun _ => .abortsnk⟩,
    ⟨.cnt,      0x10000000, 0xFFFFFF00, fun b => .cnt b⟩,
    ⟨.build,    0x11000000, 0xFFFFFFFF, fun _ => .build⟩,
    ⟨.assign,   0x12000000, 0xFFFFFFFF, fun _ => .assign⟩,
    ⟨.hdrout,   0x13000000, 0xFFFFFFFF, fun _ => .hdrout⟩,
    ⟨.enc,      0x14000000, 0xFFFFFF00, fun b => .enc b⟩,
    ⟨.encend,   0x15000000, 0xFFFFFFFF, fun _ => .encend⟩,
    ⟨.hdrin,    0x20000000, 0xFFFFFF00, fun b => .hdrin b⟩,
    ⟨.dec,      0x21000000, 0xFFFFFF00, fun b => .dec b⟩,
    ⟨.decend,   0x22000000, 0xFFFFFFFF, fun _ => .decend⟩ ]

/-- A word is a row's command exactly when `(w & mask) = match` (rule R82). -/
def OpcodeRow.matches (r : OpcodeRow) (w : Word) : Bool := w &&& r.mask == r.matchWord

/-- Decode of rule R83: the first (and only) row that matches, or ILLEGAL with the reason by name. -/
def decodeWord (w : Word) : Except IllegalWord Instr :=
  match opcodeTable.find? (·.matches w) with
  | some r => .ok (r.command (opndField w))
  | none => .error ((wordProblem w).getD .reservedOpcode)

/-- A format-N word, `{OPC, 24'h000000}` (rule R81). -/
def formatN (opc : BitVec 8) : Word := opc ++ (0 : BitVec 24)

/-- A format-B word, `{OPC, 16'h0000, b}` (rule R81). -/
def formatB (opc : BitVec 8) (b : Byte) : Word := opc ++ (0 : BitVec 16) ++ b

/-- The command word of an instruction (rules R81, R82). -/
def encode : Instr → Word
  | .nop => formatN 0x00
  | .init => formatN 0x01
  | .abortsrc => formatN 0x02
  | .abortsnk => formatN 0x03
  | .cnt b => formatB 0x10 b
  | .build => formatN 0x11
  | .assign => formatN 0x12
  | .hdrout => formatN 0x13
  | .enc b => formatB 0x14 b
  | .encend => formatN 0x15
  | .hdrin b => formatB 0x20 b
  | .dec b => formatB 0x21 b
  | .decend => formatN 0x22

/-- The instruction the decoder reads from a word given as spec/opcode_table.json numbers its bits: one 32-bit word, with
bit 0 the least significant (rules R8, R85). A number that needs more than 32 bits is no command. -/
def decodeTableWord (nbits w : Nat) : Option Instr :=
  if nbits ≤ 32 ∧ w < 2 ^ 32 then (decodeWord (BitVec.ofNat 32 w)).toOption else none

/-- The command a well-formed source command stands for (rule R86); none where the assembler refuses it. -/
def SourceCommand.instr (c : SourceCommand) : Option Instr :=
  if c.wellFormed then
    let b := BitVec.ofNat 8 (c.operand.getD 0)
    match c.mnemonic with
    | .nop => some .nop
    | .init => some .init
    | .abortsrc => some .abortsrc
    | .abortsnk => some .abortsnk
    | .cnt => some (.cnt b)
    | .build => some .build
    | .assign => some .assign
    | .hdrout => some .hdrout
    | .enc => some (.enc b)
    | .encend => some .encend
    | .hdrin => some (.hdrin b)
    | .dec => some (.dec b)
    | .decend => some .decend
  else none

end Sys2Proof
end

