-- ==== Sys2Proof/Machine/Table.lean ====
section
/-! DEFINITION. The block's entry arrays (FREQ, REM, the node arena, the LUT) as plain data: a list of (index, value)
pairs in one canonical form, indexes rising and no entry equal to the reset value, so that equal arrays are equal data.
An unlisted entry reads as the reset value, and every array's reset value is rule R44's. -/

namespace Sys2Proof.Machine

/-- An array of entries that are not at their reset value. -/
structure Table (α : Type) where
  entries : List (Nat × α)
deriving DecidableEq, Repr

/-- Every entry at its reset value (rule R44). -/
def Table.empty {α : Type} : Table α := ⟨[]⟩

/-- The value listed first for index `k`, or `z`. -/
def lookupEntry {α : Type} (z : α) (k : Nat) : List (Nat × α) → α
  | [] => z
  | (j, v) :: rest => if j = k then v else lookupEntry z k rest

/-- The pair for `k` put at its place in the rising order. -/
def insertEntry {α : Type} (k : Nat) (v : α) : List (Nat × α) → List (Nat × α)
  | [] => [(k, v)]
  | (j, u) :: rest => if k < j then (k, v) :: (j, u) :: rest else (j, u) :: insertEntry k v rest

/-- `X[k]` of rule R10, where `z` is the reset value of X's entries. -/
def Table.get {α : Type} (z : α) (t : Table α) (k : Nat) : α := lookupEntry z k t.entries

/-- `X[k] <- v` of rule R10, for an array of `size` entries whose reset value is `z`. There is no entry at or above
`size`, so a write there changes nothing. -/
def Table.set {α : Type} [DecidableEq α] (size : Nat) (z : α) (t : Table α) (k : Nat) (v : α) : Table α :=
  if k < size then
    let others := t.entries.filter (fun e => e.1 ≠ k)
    ⟨if v = z then others else insertEntry k v others⟩
  else t

/-- The array of `size` entries whose entry `k` is `f k`. -/
def Table.ofFn {α : Type} [DecidableEq α] (size : Nat) (z : α) (f : Nat → α) : Table α :=
  ⟨(List.range size).filterMap fun k => if f k = z then none else some (k, f k)⟩

/-- The canonical form: indexes rising and below `size`, and no entry at the reset value. -/
abbrev Table.wf {α : Type} [DecidableEq α] (size : Nat) (z : α) (t : Table α) : Prop :=
  t.entries.Pairwise (fun a b => a.1 < b.1) ∧ ∀ e ∈ t.entries, e.1 < size ∧ e.2 ≠ z

end Sys2Proof.Machine
end

