-- ==== Sys2Proof/Machine/State.lean ====
section
/-! DEFINITION. The architectural state of 10_state.md (rules R21 to R37), the reset state of rule R44, and, beside the
block, the transactions at its ports (rule R60): what the host sends it and what it has sent the host. -/

namespace Sys2Proof.Machine

/-- The values of PHASE (rule R21). PHASE never holds 10–14, so they have no constructor. -/
inductive Phase where
  /-- after reset or INIT -/
  | idle
  /-- compress path: at least one CNT done -/
  | count
  /-- compress path: tree built -/
  | cbuilt
  /-- compress path: code LUT built -/
  | coded
  /-- compress path: header emitted -/
  | enc
  /-- compress path: bitstream flushed -/
  | edone
  /-- decompress path: 1 to 1023 header bytes received -/
  | hload
  /-- decompress path: all 1024 header bytes received -/
  | hdone
  /-- decompress path: tree built -/
  | dec
  /-- decompress path: all symbols decoded and the end checked -/
  | ddone
  /-- an error was raised; only INIT or reset leaves it -/
  | error
deriving DecidableEq, Repr

/-- The values of ERR (rule R231); codes 9–15 are never recorded, so they have no constructor. -/
inductive ErrCode where
  /-- no error raised since reset or INIT -/
  | none
  /-- the host's byte source failed -/
  | sourceRead
  /-- the host's byte sink failed -/
  | sinkWrite
  /-- header truncated, excess body byte, truncated body, or nonzero padding -/
  | malformedContainer
  /-- a walk step from a node with no child -/
  | decodeTraversal
  /-- the second pass differs in histogram from the first -/
  | sourceMismatch
  /-- a CNT would take a FREQ entry past 2^32 − 1 -/
  | freqOverflow
  /-- the command word decodes as ILLEGAL -/
  | illegalCommand
  /-- a legal command issued in a phase where it is not allowed -/
  | sequence
deriving DecidableEq, Repr

/-- One entry of the node arena (rule R28). -/
structure Node where
  alloc : Bool
  weight : BitVec 40
  left : BitVec 9
  right : BitVec 9
deriving DecidableEq, Repr

/-- An arena entry at reset: every field 0 (rule R44). -/
def Node.none : Node := ⟨false, 0, 0, 0⟩

/-- One entry of the code LUT (rule R31): LUTV, LEN and CODE, where bit i of `code` is `c_i`. -/
structure LutEntry where
  valid : Bool
  len : BitVec 8
  code : BitVec 255
deriving DecidableEq, Repr

/-- A LUT entry at reset: every field 0 (rule R44). -/
def LutEntry.none : LutEntry := ⟨false, 0, 0⟩

/-- What BUILD writes: the node arena and the registers about it (rules R26 to R30). -/
structure Tree where
  /-- ALLOC, WEIGHT, LEFT and RIGHT, entries 0..510 (rule R28) -/
  arena : Table Node
  /-- ROOT (rule R29) -/
  root : BitVec 9
  /-- ROOT_V (rule R29) -/
  rootV : Bool
  /-- NLEAF (rule R30) -/
  nleaf : BitVec 9
  /-- NINT (rule R30) -/
  nint : BitVec 8
deriving DecidableEq, Repr

/-- The tree at reset: every element 0 (rule R44). -/
def Tree.none : Tree := ⟨Table.empty, 0, false, 0, 0⟩

/-- The block's state: every state element of rule R44. -/
structure Block where
  /-- PHASE (rule R21) -/
  phase : Phase
  /-- FREQ[0..255], 32 bits each (rule R23) -/
  freq : Table (BitVec 32)
  /-- TOTAL (rule R24) -/
  total : BitVec 40
  /-- REM[0..255], 32 bits each (rule R25) -/
  rem : Table (BitVec 32)
  /-- the node arena, ROOT, ROOT_V, NLEAF and NINT (rules R26 to R30) -/
  tree : Tree
  /-- the code LUT, entries 0..255 (rule R31) -/
  lut : Table LutEntry
  /-- ACC (rule R32) -/
  acc : BitVec 8
  /-- FILL (rule R32) -/
  fill : BitVec 3
  /-- SYMCNT (rule R33) -/
  symcnt : BitVec 40
  /-- BITCNT (rule R34) -/
  bitcnt : BitVec 48
  /-- HDRPOS (rule R35) -/
  hdrpos : BitVec 11
  /-- WALK (rule R36) -/
  walk : BitVec 9
  /-- ERR (rule R37) -/
  err : ErrCode
  /-- ERRPHASE (rule R37) -/
  errPhase : Phase
  /-- ERRCMD (rule R37) -/
  errCmd : Word
deriving DecidableEq, Repr

/-- The block right after reset (rules R44, R260). -/
def Block.reset : Block where
  phase := .idle
  freq := Table.empty
  total := 0
  rem := Table.empty
  tree := Tree.none
  lut := Table.empty
  acc := 0
  fill := 0
  symcnt := 0
  bitcnt := 0
  hdrpos := 0
  walk := 0
  err := .none
  errPhase := .idle
  errCmd := 0

/-- What the host can do at the block's ports (rule R60), one transaction each. -/
inductive HostEvent where
  /-- a transfer on the command port (rules R60, R80) -/
  | command (w : Word)
  /-- a transfer on the register read port, at a word address (rule R61) -/
  | read (wordAddr : BitVec 14)
  /-- `rst` asserted and released with no command executing (rule R260) -/
  | reset
  /-- a command transferred, and `rst` asserted and released while it executes (rule R262) -/
  | resetDuring (w : Word)
  /-- a transfer on the output byte stream: the host takes the one byte that is offered (rules R60, R63) -/
  | takeByte
  /-- from now on the host takes every byte as soon as it is offered, or takes none but by `takeByte` (rule R267) -/
  | sink (accepts : Bool)
deriving DecidableEq, Repr

/-- A command that is executing and waits for the host to take its next byte (rules R60, R66, R267). -/
structure Running where
  /-- the command word -/
  word : Word
  /-- how many of the command's bytes the host has taken; they are in OUT -/
  taken : Nat
deriving DecidableEq, Repr

/-- The machine: the block's state, and the transactions at its ports. -/
structure State extends Block where
  /-- MODEL'S OWN FIELD. What the host will do, oldest first (rules R16, R17, R20): the run's parameter, held here because
  a step reads it. -/
  inputs : List HostEvent
  /-- The command that is executing and waits for the host to take its next byte, or none when the block is ready for a
  command (rules R60, R265, R267): `cmd_ready` and `rd_ready` are 0 while it is not none. -/
  busy : Option Running
  /-- OUT, every byte the block has emitted and the host has taken, in order (rules R60, R63) -/
  out : List Byte
  /-- MODEL'S OWN FIELD. The words the register read port has returned, in order (rule R61). -/
  readData : List Word
  /-- MODEL'S OWN FIELD. Whether the host takes every byte as soon as it is offered, `out_ready` held at 1 (rules R60, R267). -/
  outReady : Bool
  /-- MODEL'S OWN FIELD. How many free values have been drawn (rule R262). -/
  draws : Nat
deriving DecidableEq, Repr

/-- The machine right after reset: rule R44's values, nothing yet emitted, and a host that has asked for nothing and takes
bytes when they come (assumption 3). No command is executing (rule R260). -/
def State.reset : State :=
  { Block.reset with inputs := [], busy := none, out := [], readData := [], outReady := true, draws := 0 }

/-- Why the machine stops for good. -/
inductive Fault where
  /-- Raised by a step, by no instruction: a command waits for its next byte to be taken, and the host does nothing more, or
  does next what the block does not accept before it completes, so it never takes it. The command never completes and the block
  stays busy (rule R267; item U15 of 93_implementation_defined.md calls it stuck: no next state). Safe. -/
  | outputStalled
deriving DecidableEq, Repr

/-- Why the model gives no meaning. -/
inductive Refusal where
  /-- Raised by `exec` alone, for an instruction without a meaning. No arm raises it. Safe. -/
  | notModelled (mnemonic : String)
deriving DecidableEq, Repr

end Sys2Proof.Machine
end

