-- ==== Sys2Proof/Machine/Operands.lean ====
section
/-! DEFINITION. The bit and byte orders of the operand bytes and of the header's entries (rules R12, R65, R88, R190, R210),
and the numbers of the PHASE and ERR names (rules R21, R231). -/

namespace Sys2Proof.Machine

/-- PHASE's value (rule R21). -/
def Phase.code : Phase → BitVec 4
  | .idle => 0
  | .count => 1
  | .cbuilt => 2
  | .coded => 3
  | .enc => 4
  | .edone => 5
  | .hload => 6
  | .hdone => 7
  | .dec => 8
  | .ddone => 9
  | .error => 15

/-- ERR's value (rule R231). -/
def ErrCode.code : ErrCode → BitVec 4
  | .none => 0
  | .sourceRead => 1
  | .sinkWrite => 2
  | .malformedContainer => 3
  | .decodeTraversal => 4
  | .sourceMismatch => 5
  | .freqOverflow => 6
  | .illegalCommand => 7
  | .sequence => 8

/-- The bits of a byte, most significant first: bit i is `b[7 − i]` (rule R210). -/
def bitsOfByte (b : Byte) : List Bool :=
  [b.getLsbD 7, b.getLsbD 6, b.getLsbD 5, b.getLsbD 4, b.getLsbD 3, b.getLsbD 2, b.getLsbD 1, b.getLsbD 0]

/-- Byte j of a 32-bit entry, `v[31 − 8j : 24 − 8j]`, j = 0 the most significant (rules R65, R190). -/
def entryByte (v : BitVec 32) (j : Nat) : Byte := v.extractLsb' (24 - 8 * j) 8

/-- A 32-bit entry with its byte j replaced by `b` (rule R192). -/
def setEntryByte (v : BitVec 32) (j : Nat) (b : Byte) : BitVec 32 :=
  (v &&& ~~~((0xFF : BitVec 32) <<< (24 - 8 * j))) ||| (b.setWidth 32 <<< (24 - 8 * j))

/-- The four bytes of a 32-bit entry, most significant first (rules R65, R190). -/
def entryBytes (v : BitVec 32) : List Byte := (List.range Config.hdrEntryBytes).map (entryByte v)

/-- CODE from a list of code bits, `c_0` first; the bits past the list's end are 0 (rules R12, R31). -/
def codeOfBits : List Bool → BitVec 255
  | [] => 0
  | c :: rest => (codeOfBits rest <<< 1) ||| (if c then 1 else 0)

/-- The code bits `c_0 … c_{LEN−1}` of a LUT entry, in order (rules R12, R31). -/
def LutEntry.bits (e : LutEntry) : List Bool := (List.range e.len.toNat).map e.code.getLsbD

end Sys2Proof.Machine
end

