-- ==== Sys2Proof/Machine/Ops.lean ====
section
/-! DEFINITION. The named operations every command goes through: entry reads and writes (rule R10), the phase check
(rule R21), the dispatch and its gating in ERROR (rules R100, R234), completion and `Emit` (rules R63, R66, R267), and the
ONE error entry (rule R233). There is no return from an error; INIT and reset are the ways out (rule R236). -/

namespace Sys2Proof.Machine

/-- FREQ[s] (rule R23). -/
def Block.freqAt (b : Block) (s : Nat) : BitVec 32 := b.freq.get 0 s

/-- REM[s] (rule R25). -/
def Block.remAt (b : Block) (s : Nat) : BitVec 32 := b.rem.get 0 s

/-- The LUT entry of symbol s (rule R31). -/
def Block.lutAt (b : Block) (s : Nat) : LutEntry := b.lut.get LutEntry.none s

/-- The arena entry of node n (rule R28). There is no entry at 511; it reads as an entry that is not allocated
(assumption 8). -/
def Tree.nodeAt (t : Tree) (n : Nat) : Node := if n < Config.nnode then t.arena.get Node.none n else Node.none

/-- `FREQ[s] <- v` (rule R10). -/
def setFreq (freq : Table (BitVec 32)) (s : Nat) (v : BitVec 32) : Table (BitVec 32) := freq.set Config.nsym 0 s v

/-- `REM[s] <- v` (rule R10). -/
def setRem (rem : Table (BitVec 32)) (s : Nat) (v : BitVec 32) : Table (BitVec 32) := rem.set Config.nsym 0 s v

/-- `Σ_s FREQ[s]`, exact (rules R24, R193). -/
def freqSum (freq : Table (BitVec 32)) : Nat := ((List.range Config.nsym).map fun s => (freq.get 0 s).toNat).sum

/-- What a command's body does to the block: it raises one error, or it completes with the block's new state and the bytes
it emits, in order (rules R13, R63, R233). -/
abbrev Effect := Except ErrCode (Block × List Byte)

/-- `RequirePhase(P, E)` of rule R21, with the rest of the body. -/
def requirePhase (legal : List Phase) (otherwise : Phase → ErrCode) (b : Block) (rest : Effect) : Effect :=
  if b.phase ∈ legal then rest else .error (otherwise b.phase)

/-- The error rule R21 names for a phase that is not legal, unless a command's rule says otherwise. -/
def sequenceError (_ : Phase) : ErrCode := .sequence

/-- Error entry (rule R233): the record is written and the block goes to ERROR; every other element keeps the value it had
before the command. -/
def State.raise (code : ErrCode) (w : Word) (s : State) : State :=
  { s with errPhase := s.phase, err := code, errCmd := w, phase := .error }

/-- How a command ends. One that raises enters the error (rule R233). One that completes has emitted all its bytes
(rules R63, R66). One that has bytes while the host does not take them by itself waits for it: the block is busy with it, with
no byte taken yet, and of the block nothing it does shows until it completes (rules R66, R267). -/
def complete (w : Word) (effect : Effect) (s : State) : Host.Outcome State Fault Refusal :=
  match effect with
  | .error code => .next (s.raise code w)
  | .ok (b, bytes) =>
    if bytes = [] ∨ s.outReady = true then .next { s with toBlock := b, out := s.out ++ bytes }
    else .next { s with busy := some ⟨w, 0⟩ }

/-- Dispatch of every command except INIT (rule R100): ignored in ERROR (rule R234), otherwise its body runs. -/
def issue (w : Word) (body : Block → Effect) (s : State) : Host.Outcome State Fault Refusal :=
  if s.phase = .error then .next s else complete w (body s.toBlock) s

/-- A word that decodes as ILLEGAL (rules R83, R84, R100): ILLEGAL_COMMAND, or ignored in ERROR. -/
def illegalBody (_ : Block) : Effect := .error .illegalCommand

end Sys2Proof.Machine
end

