-- ==== Sys2Proof/Machine/Flags.lean ====
section
/-! DEFINITION. STATUS (rule R39) and the read-only register space the host reads (rules R41 to R43, R61): each word is
computed from the state, and unlisted bits and reserved words read 0. -/

namespace Sys2Proof.Machine

/-- A one-bit flag as a bit vector. -/
def flag (p : Bool) : BitVec 1 := BitVec.ofBool p

/-- STATUS (rule R39). It has no storage of its own. -/
def Block.status (b : Block) : Word :=
  (0 : BitVec 23) ++ flag (b.hdrpos = 1024) ++ flag (b.fill ≠ 0) ++ flag (b.tree.nleaf = 1) ++ flag b.tree.rootV
    ++ flag (b.phase = .error) ++ b.phase.code

/-- ERRINFO: ERR in [3:0], ERRPHASE in [7:4] (rule R42). -/
def Block.errInfo (b : Block) : Word := (0 : BitVec 24) ++ b.errPhase.code ++ b.err.code

/-- PACK: ACC in [7:0], FILL in [10:8] (rule R42). -/
def Block.pack (b : Block) : Word := (0 : BitVec 21) ++ b.fill ++ b.acc

/-- The ROOT register: ROOT in [8:0], ROOT_V in [31] (rule R42). -/
def Block.rootWord (b : Block) : Word := flag b.tree.rootV ++ (0 : BitVec 22) ++ b.tree.root

/-- LUTLEN: LEN in [7:0], LUTV in [31] (rule R43). -/
def LutEntry.lenWord (e : LutEntry) : Word := flag e.valid ++ (0 : BitVec 23) ++ e.len

/-- LUTBITS word k: bit (31 − j) is `CODE[32k + j]`, and code bit index 255 reads 0 (rules R43, R65). -/
def LutEntry.bitsWord (e : LutEntry) (k : Nat) : Word :=
  (List.range 32).foldl (fun w j => (w <<< 1) ||| (flag (e.code.getLsbD (32 * k + j))).setWidth 32) 0

/-- NODE_LINK: LEFT in [8:0], RIGHT in [24:16], ALLOC in [31] (rule R43). -/
def Node.linkWord (n : Node) : Word := flag n.alloc ++ (0 : BitVec 6) ++ n.right ++ (0 : BitVec 7) ++ n.left

/-- The LO word of a value wider than 32 bits (rule R42). -/
def loWord {n : Nat} (v : BitVec n) : Word := v.setWidth 32

/-- The HI word of a value wider than 32 bits (rule R42). -/
def hiWord {n : Nat} (v : BitVec n) : Word := (v >>> 32).setWidth 32

/-- The scalar registers at word addresses 0x00..0xFF, that is byte offsets 0x000..0x3FC (rules R41, R42). -/
def Block.scalarWord (b : Block) (a : Nat) : Word :=
  match a with
  | 0x00 => Config.idWord
  | 0x01 => Config.paramWord
  | 0x02 => b.status
  | 0x03 => b.errInfo
  | 0x04 => b.errCmd
  | 0x05 => b.tree.nleaf.setWidth 32
  | 0x06 => b.tree.nint.setWidth 32
  | 0x07 => b.rootWord
  | 0x08 => loWord b.total
  | 0x09 => hiWord b.total
  | 0x0A => loWord b.symcnt
  | 0x0B => hiWord b.symcnt
  | 0x0C => loWord b.bitcnt
  | 0x0D => hiWord b.bitcnt
  | 0x0E => b.pack
  | 0x0F => b.hdrpos.setWidth 32
  | 0x10 => b.walk.setWidth 32
  | _ => 0

/-- The register-space word at word address `a` (rules R41 to R43, R61): the scalar registers, then the array windows, each
in the place rule R43's byte offsets give it; every other word is reserved and reads 0. -/
def Block.readWord (b : Block) (a : BitVec 14) : Word :=
  let n := a.toNat
  if n < 0x100 then b.scalarWord n
  else if n < 0x200 then b.freqAt (n - 0x100)
  else if n < 0x300 then b.remAt (n - 0x200)
  else if n < 0x400 then (b.lutAt (n - 0x300)).lenWord
  else if n < 0xC00 then (b.lutAt ((n - 0x400) / 8)).bitsWord ((n - 0x400) % 8)
  else if n < 0xE00 then (b.tree.nodeAt (n - 0xC00)).linkWord
  else if n < 0x1000 then loWord (b.tree.nodeAt (n - 0xE00)).weight
  else if n < 0x1200 then hiWord (b.tree.nodeAt (n - 0x1000)).weight
  else 0

/-- `MemRead(addr, 4)` of rules R11 and R61: the word at byte offset `addr`. The port cannot express an address that is not
a multiple of 4 or not below 0x10000 (rules R61, R67), so there is none to give. -/
def Block.memRead (b : Block) (addr : Nat) : Option Word :=
  if addr % 4 = 0 ∧ addr < 0x10000 then some (b.readWord (BitVec.ofNat 14 (addr / 4))) else none

end Sys2Proof.Machine
end

