-- ==== Sys2Proof/Machine/BitPacker.lean ====
section
/-! DEFINITION. The bit packer (44_bit_packer.md): PackBit (rule R170), ENC and ENCEND. -/

namespace Sys2Proof.Machine

/-- The packer inside a command: ACC, FILL and the bytes emitted so far (rules R32, R170). -/
structure Packer where
  acc : BitVec 8
  fill : BitVec 3
  outs : List Byte
deriving DecidableEq, Repr

/-- PackBit(x) of rule R170. FILL is 8 only for the moment in which the byte is emitted. -/
def packBit (p : Packer) (x : Bool) : Packer :=
  let acc := (p.acc <<< 1) ||| (if x then 1 else 0)
  if p.fill.toNat + 1 = 8 then { acc := 0, fill := 0, outs := p.outs ++ [acc] }
  else { acc := acc, fill := p.fill + 1, outs := p.outs }

/-- PackBit of each bit in order. -/
def packBits (p : Packer) (bits : List Bool) : Packer := bits.foldl packBit p

/-- ENC b, the body of rule R171. -/
def encBody (x : Byte) (b : Block) : Effect :=
  requirePhase [.enc] sequenceError b <|
    if b.remAt x.toNat = 0 then .error .sourceMismatch
    else
      let e := b.lutAt x.toNat
      let p := packBits ⟨b.acc, b.fill, []⟩ e.bits
      .ok ({ b with
        acc := p.acc
        fill := p.fill
        rem := setRem b.rem x.toNat (b.remAt x.toNat - 1)
        symcnt := b.symcnt + 1
        bitcnt := b.bitcnt + e.len.setWidth 48 }, p.outs)

/-- ENC b (rule R171). -/
def execEnc (x : Byte) (s : State) : Host.Outcome State Fault Refusal := issue (encode (.enc x)) (encBody x) s

/-- The byte that ends the bitstream, if a partial byte is pending: its bits, right-padded with zeros (rules R65, R173). -/
def flushBytes (acc : BitVec 8) (fill : BitVec 3) : List Byte :=
  if fill = 0 then [] else [acc <<< (8 - fill.toNat)]

/-- ENCEND, the body of rule R173. With FILL = 0, ACC and FILL are left as they are. -/
def encendBody (b : Block) : Effect :=
  requirePhase [.enc] sequenceError b <|
    if b.symcnt ≠ b.total then .error .sourceMismatch
    else .ok ({ b with
      acc := if b.fill = 0 then b.acc else 0
      fill := 0
      phase := .edone }, flushBytes b.acc b.fill)

/-- ENCEND (rule R173). -/
def execEncend (s : State) : Host.Outcome State Fault Refusal := issue (encode .encend) encendBody s

end Sys2Proof.Machine
end

