-- ==== Sys2Proof/Machine/CodeAssigner.lean ====
section
/-! DEFINITION. The code assigner (43_code_assigner.md): the code LUT as a function of the tree (rules R150 to R156), and
ASSIGN. -/

namespace Sys2Proof.Machine

/-- The path from node n down to leaf s, one bit an edge, false for LEFT ("0") and true for RIGHT ("1"), the edge of n first
(rule R151). `fuel` bounds the nodes on the path. In a tree of BUILD's the path is unique (assumption 7). -/
def pathTo (t : Tree) (s : Nat) : Nat → Nat → Option (List Bool)
  | 0, _ => none
  | fuel + 1, n =>
    if n < Config.nsym then
      if n = s then some [] else none
    else
      match pathTo t s fuel (t.nodeAt n).left.toNat with
      | some p => some (false :: p)
      | none =>
        match pathTo t s fuel (t.nodeAt n).right.toNat with
        | some p => some (true :: p)
        | none => none

/-- The LUT entry of a symbol whose code is `bits` (rules R31, R151). -/
def codeEntry (bits : List Bool) : LutEntry := ⟨true, BitVec.ofNat 8 bits.length, codeOfBits bits⟩

/-- The LUT entry ASSIGN gives symbol s: none without a tree, the 1-bit code "0" for the leaf that is the whole tree
(rule R152), else the root-to-leaf path of an allocated leaf (rule R151). A path has at most MAXLEN edges (rule R153), so at
most MAXLEN + 1 nodes. -/
def assignedEntry (t : Tree) (s : Nat) : LutEntry :=
  if t.rootV = false then LutEntry.none
  else if t.root.toNat < Config.nsym then
    if s = t.root.toNat then codeEntry [false] else LutEntry.none
  else if (t.nodeAt s).alloc then
    match pathTo t s (Config.maxLen + 1) t.root.toNat with
    | some p => codeEntry p
    | none => LutEntry.none
  else LutEntry.none

/-- The code LUT of a tree (rules R150, R156). -/
def codeLut (t : Tree) : Table LutEntry := Table.ofFn Config.nsym LutEntry.none (assignedEntry t)

/-- ASSIGN, the body of rule R150. -/
def assignBody (b : Block) : Effect :=
  requirePhase [.cbuilt] sequenceError b <|
    .ok ({ b with
      lut := codeLut b.tree
      rem := b.freq
      acc := 0
      fill := 0
      phase := .coded }, [])

/-- ASSIGN (rule R150). -/
def execAssign (s : State) : Host.Outcome State Fault Refusal := issue (encode .assign) assignBody s

end Sys2Proof.Machine
end

