-- ==== Sys2Proof/Machine/Container.lean ====
section
/-! DEFINITION. The container's header (45_container.md): HDROUT and HDRIN. -/

namespace Sys2Proof.Machine

/-- The container header: for i = 0..255, the four bytes of FREQ[i], most significant first (rule R190). -/
def headerBytes (freq : Table (BitVec 32)) : List Byte :=
  (List.range Config.nsym).flatMap fun i => entryBytes (freq.get 0 i)

/-- HDROUT, the body of rule R191. -/
def hdroutBody (b : Block) : Effect :=
  requirePhase [.coded] sequenceError b <| .ok ({ b with phase := .enc }, headerBytes b.freq)

/-- HDROUT (rule R191). -/
def execHdrout (s : State) : Host.Outcome State Fault Refusal := issue (encode .hdrout) hdroutBody s

/-- FREQ with header byte number `pos` written: byte `pos mod 4` of entry `pos / 4` (rule R192). -/
def putHeaderByte (freq : Table (BitVec 32)) (pos : Nat) (x : Byte) : Table (BitVec 32) :=
  setFreq freq (pos / 4) (setEntryByte (freq.get 0 (pos / 4)) (pos % 4) x)

/-- HDRIN b, the body of rule R192, with HeaderComplete (rule R193) at the 1024th byte. -/
def hdrinBody (x : Byte) (b : Block) : Effect :=
  requirePhase [.idle, .hload] sequenceError b <|
    let freq := putHeaderByte b.freq b.hdrpos.toNat x
    let pos := b.hdrpos + 1
    if pos = 1024 then
      .ok ({ b with freq := freq, hdrpos := pos, total := BitVec.ofNat 40 (freqSum freq), phase := .hdone }, [])
    else .ok ({ b with freq := freq, hdrpos := pos, phase := .hload }, [])

/-- HDRIN b (rule R192). -/
def execHdrin (x : Byte) (s : State) : Host.Outcome State Fault Refusal := issue (encode (.hdrin x)) (hdrinBody x) s

end Sys2Proof.Machine
end

