-- ==== Sys2Proof/Machine/Control.lean ====
section
/-! DEFINITION. The control commands (40_control.md): NOP, INIT, ABORTSRC and ABORTSNK. -/

namespace Sys2Proof.Machine

/-- NOP (rule R101): no effect, legal in every phase. -/
def execNop (s : State) : Host.Outcome State Fault Refusal :=
  issue (encode .nop) (fun b => .ok (b, [])) s

/-- INIT (rules R102, R261): every state element takes its reset value; OUT is not touched. It alone runs in ERROR
(rules R100, R236). -/
def execInit (s : State) : Host.Outcome State Fault Refusal :=
  complete (encode .init) (.ok (Block.reset, [])) s

/-- ABORTSRC (rule R103): always raises SOURCE_READ. -/
def execAbortsrc (s : State) : Host.Outcome State Fault Refusal :=
  issue (encode .abortsrc) (fun _ => .error .sourceRead) s

/-- ABORTSNK (rule R104): always raises SINK_WRITE. -/
def execAbortsnk (s : State) : Host.Outcome State Fault Refusal :=
  issue (encode .abortsnk) (fun _ => .error .sinkWrite) s

end Sys2Proof.Machine
end

