-- ==== Sys2Proof/Machine/Decoder.lean ====
section
/-! DEFINITION. The bit unpacker and tree-walk decoder (46_decoder.md): DEC and DECEND. -/

namespace Sys2Proof.Machine

/-- DEC's locals w, sc, bc and outs (rule R211). -/
structure Walker where
  walk : BitVec 9
  symcnt : BitVec 40
  bitcnt : BitVec 48
  outs : List Byte
deriving DecidableEq, Repr

/-- One bit of rule R211's loop: a padding bit must be 0 (rule R214); with one leaf each bit is its symbol (rule R213);
otherwise the walk takes one edge, and at a leaf it emits and goes back to the root. -/
def decBit (b : Block) (l : Walker) (x : Bool) : Except ErrCode Walker :=
  if l.symcnt = b.total then
    if x then .error .malformedContainer else .ok l
  else if b.tree.nleaf = 1 then
    .ok { l with
      symcnt := l.symcnt + 1
      bitcnt := l.bitcnt + 1
      outs := l.outs ++ [b.tree.root.setWidth 8] }
  else if 256 ≤ l.walk.toNat ∧ (b.tree.nodeAt l.walk.toNat).alloc = true then
    let node := b.tree.nodeAt l.walk.toNat
    let child := if x then node.right else node.left
    if child.toNat < 256 then
      .ok { walk := b.tree.root, symcnt := l.symcnt + 1, bitcnt := l.bitcnt + 1, outs := l.outs ++ [child.setWidth 8] }
    else .ok { l with walk := child, bitcnt := l.bitcnt + 1 }
  else .error .decodeTraversal

/-- The bits in order; the first error ends the byte (rules R211, R235). -/
def decBits (b : Block) (l : Walker) : List Bool → Except ErrCode Walker
  | [] => .ok l
  | x :: rest =>
    match decBit b l x with
    | .error c => .error c
    | .ok l' => decBits b l' rest

/-- DEC b, the body of rule R211. -/
def decBody (x : Byte) (b : Block) : Effect :=
  requirePhase [.dec] sequenceError b <|
    if b.symcnt = b.total then .error .malformedContainer
    else
      match decBits b ⟨b.walk, b.symcnt, b.bitcnt, []⟩ (bitsOfByte x) with
      | .error c => .error c
      | .ok l => .ok ({ b with walk := l.walk, symcnt := l.symcnt, bitcnt := l.bitcnt }, l.outs)

/-- DEC b (rule R211). -/
def execDec (x : Byte) (s : State) : Host.Outcome State Fault Refusal := issue (encode (.dec x)) (decBody x) s

/-- E of DECEND's phase check: MALFORMED_CONTAINER in IDLE and HLOAD, SEQUENCE elsewhere (rules R22, R212). -/
def decendPhaseError : Phase → ErrCode
  | .idle | .hload => .malformedContainer
  | .count | .cbuilt | .coded | .enc | .edone | .hdone | .dec | .ddone | .error => .sequence

/-- DECEND, the body of rule R212. -/
def decendBody (b : Block) : Effect :=
  requirePhase [.dec] decendPhaseError b <|
    if b.symcnt ≠ b.total then .error .malformedContainer
    else .ok ({ b with phase := .ddone }, [])

/-- DECEND (rule R212). -/
def execDecend (s : State) : Host.Outcome State Fault Refusal := issue (encode .decend) decendBody s

end Sys2Proof.Machine
end

