-- ==== Sys2Proof/Machine/FrequencyCounter.lean ====
section
/-! DEFINITION. The frequency counter (41_frequency_counter.md): CNT. -/

namespace Sys2Proof.Machine

/-- CNT b, the body of rule R120. -/
def cntBody (x : Byte) (b : Block) : Effect :=
  requirePhase [.idle, .count] sequenceError b <|
    if b.freqAt x.toNat = 0xFFFFFFFF then .error .freqOverflow
    else .ok ({ b with
      freq := setFreq b.freq x.toNat (b.freqAt x.toNat + 1)
      total := b.total + 1
      phase := .count }, [])

/-- CNT b (rule R120). -/
def execCnt (x : Byte) (s : State) : Host.Outcome State Fault Refusal :=
  issue (encode (.cnt x)) (cntBody x) s

end Sys2Proof.Machine
end

