-- ==== Sys2Proof/Machine/TreeBuilder.lean ====
section
/-! DEFINITION. The tree builder (42_tree_builder.md): TreeBuild as a function of FREQ alone (rules R131 to R138), and
BUILD. -/

namespace Sys2Proof.Machine

/-- TreeBuild's working state: the arena, the priority collection Q (rule R38: a set of node ids, here a list with no
repeats), and the next internal id. -/
structure Builder where
  arena : Table Node
  q : List Nat
  next : Nat
deriving DecidableEq, Repr

/-- WEIGHT[n] in the arena under construction. -/
def weightIn (arena : Table Node) (n : Nat) : Nat := (arena.get Node.none n).weight.toNat

/-- Whether m comes before n in the selection order: the least key `(WEIGHT[n], n)`, lexicographically (rule R133). -/
def keyBefore (arena : Table Node) (m n : Nat) : Bool :=
  decide (weightIn arena m < weightIn arena n ∨ (weightIn arena m = weightIn arena n ∧ m < n))

/-- The node of least key among n and the rest. -/
def leastKey (arena : Table Node) (n : Nat) (rest : List Nat) : Nat :=
  rest.foldl (fun m x => if keyBefore arena x m then x else m) n

/-- PopMin(Q) of rule R133: the node of least key, and Q without it. -/
def popMin (arena : Table Node) : List Nat → Option (Nat × List Nat)
  | [] => none
  | n :: rest => some (leastKey arena n rest, (n :: rest).erase (leastKey arena n rest))

/-- A leaf's arena entry (rules R28, R132). -/
def leafNode (f : BitVec 32) : Node := ⟨true, f.setWidth 40, 0, 0⟩

/-- The arena and Q before the first combination: one leaf for each symbol with nonzero frequency, in ascending symbol order,
and every other entry clear (rules R131, R132). -/
def initialBuilder (freq : Table (BitVec 32)) : Builder where
  arena := Table.ofFn Config.nnode Node.none fun n =>
    if n < Config.nsym ∧ freq.get 0 n ≠ 0 then leafNode (freq.get 0 n) else Node.none
  q := (List.range Config.nsym).filter fun s => freq.get 0 s ≠ 0
  next := Config.nsym

/-- One turn of rule R134's loop: the two least nodes a and b leave Q, and the new internal node with LEFT = a and RIGHT = b
enters it. With fewer than two nodes there is no turn. -/
def Builder.combine (t : Builder) : Builder :=
  match popMin t.arena t.q with
  | none => t
  | some (a, q1) =>
    match popMin t.arena q1 with
    | none => t
    | some (b, q2) =>
      { arena := t.arena.set Config.nnode Node.none t.next
          ⟨true, (t.arena.get Node.none a).weight + (t.arena.get Node.none b).weight,
            BitVec.ofNat 9 a, BitVec.ofNat 9 b⟩
        q := q2 ++ [t.next]
        next := t.next + 1 }

/-- Rule R134's loop, at most `k` turns of it. -/
def Builder.combineAll : Nat → Builder → Builder
  | 0, t => t
  | k + 1, t => if 2 ≤ t.q.length then combineAll k t.combine else t

/-- The root when fewer than two nodes remain (rule R135). -/
def rootOf : List Nat → BitVec 9 × Bool
  | [n] => (BitVec.ofNat 9 n, true)
  | _ => (0, false)

/-- TreeBuild (rules R131 to R135): a function of FREQ alone (rule R138). Each turn takes one node from Q, so as many turns
as Q has nodes are enough. -/
def treeBuild (freq : Table (BitVec 32)) : Tree :=
  let start := initialBuilder freq
  let done := Builder.combineAll start.q.length start
  { arena := done.arena
    root := (rootOf done.q).1
    rootV := (rootOf done.q).2
    nleaf := BitVec.ofNat 9 start.q.length
    nint := BitVec.ofNat 8 (done.next - Config.nsym) }

/-- E of BUILD's phase check: MALFORMED_CONTAINER in HLOAD, SEQUENCE elsewhere (rules R22, R130). -/
def buildPhaseError : Phase → ErrCode
  | .hload => .malformedContainer
  | .idle | .count | .cbuilt | .coded | .enc | .edone | .hdone | .dec | .ddone | .error => .sequence

/-- BUILD, the body of rule R130. -/
def buildBody (b : Block) : Effect :=
  requirePhase [.idle, .count, .hdone] buildPhaseError b <|
    let t := treeBuild b.freq
    .ok ({ b with
      tree := t
      walk := if t.rootV then t.root else 0
      symcnt := 0
      bitcnt := 0
      phase := if b.phase = .hdone then .dec else .cbuilt }, [])

/-- BUILD (rule R130). -/
def execBuild (s : State) : Host.Outcome State Fault Refusal := issue (encode .build) buildBody s

end Sys2Proof.Machine
end

