-- ==== Sys2Proof/Machine/Dispatch.lean ====
section
/-! DEFINITION. The meaning of each command (rule R100): one arm per constructor of Instr. -/

namespace Sys2Proof.Machine

def exec (i : Instr) (s : State) : Host.Outcome State Fault Refusal :=
  match i with
  | .nop => Sys2Proof.Machine.execNop s
  | .init => Sys2Proof.Machine.execInit s
  | .abortsrc => Sys2Proof.Machine.execAbortsrc s
  | .abortsnk => Sys2Proof.Machine.execAbortsnk s
  | .cnt b => Sys2Proof.Machine.execCnt b s
  | .build => Sys2Proof.Machine.execBuild s
  | .assign => Sys2Proof.Machine.execAssign s
  | .hdrout => Sys2Proof.Machine.execHdrout s
  | .enc b => Sys2Proof.Machine.execEnc b s
  | .encend => Sys2Proof.Machine.execEncend s
  | .hdrin b => Sys2Proof.Machine.execHdrin b s
  | .dec b => Sys2Proof.Machine.execDec b s
  | .decend => Sys2Proof.Machine.execDecend s

end Sys2Proof.Machine
end

