-- ==== Sys2Proof/Machine/HostPort.lean ====
section
/-! DEFINITION. The block's ports at the transaction level (rules R60, R61, R66, R69, R260, R262, R267): executing a command
word, reading a register-space word, reset between commands and reset during a command, and the bytes of a running command,
taken one by one or all at once. -/

namespace Sys2Proof.Machine

/-- Execute(w) of rule R100: decode, then the meaning of the command, or ILLEGAL_COMMAND. -/
def executeWord (w : Word) (s : State) : Host.Outcome State Fault Refusal :=
  match decodeWord w with
  | .ok i => exec i s
  | .error _ => issue w illegalBody s

/-- Reset with no command executing: every state element takes its reset value, and OUT keeps what the host has
(rules R260, R261). -/
def hostReset (s : State) : State := { s with toBlock := Block.reset }

/-- What a command word does on a block when the host takes all its bytes: the block it leaves and the bytes it emits
(rules R18, R63). -/
def wordEffect (w : Word) (b : Block) : Block × List Byte :=
  match executeWord w { State.reset with toBlock := b } with
  | .next t => (t.toBlock, t.out)
  | .fault _ => (b, [])
  | .refused _ => (b, [])

/-- The block a command word leaves (rule R18). -/
def afterWord (w : Word) (b : Block) : Block := (wordEffect w b).1

/-- The bytes a command word emits, in order (rule R63). -/
def bytesOfWord (w : Word) (b : Block) : List Byte := (wordEffect w b).2

/-- The bytes that a running command has still to emit. -/
def bytesLeft (r : Running) (s : State) : List Byte := (bytesOfWord r.word s.toBlock).drop r.taken

/-- The host takes all the bytes that are left, and the running command completes (rules R63, R267). -/
def finish (r : Running) (s : State) : State :=
  { s with toBlock := afterWord r.word s.toBlock, busy := none, out := s.out ++ bytesLeft r s }

/-- The host takes one byte of the running command: OUT receives it while the command runs, and with its last byte the command
completes (rules R60, R66, R267). -/
def takeOne (r : Running) (s : State) : State :=
  match bytesLeft r s with
  | x :: _ :: _ => { s with busy := some { r with taken := r.taken + 1 }, out := s.out ++ [x] }
  | [] | [_] => finish r s

/-- Reset while a command executes (rule R262): the command is abandoned, OUT holds some first part of its bytes, from those
already taken to all, and the block is reset. How many more have been taken, is a free value (assumption 5). -/
def abandon (r : Running) (s : State) : State :=
  { s with
    toBlock := Block.reset
    busy := none
    out := s.out ++ (bytesLeft r s).take (Config.resetDraw s.draws)
    draws := s.draws + 1 }

/-- A transfer on the register read port (rules R61, R66): the word of the state as it stands, and no effect on the block. -/
def readPort (a : BitVec 14) (s : State) : State := { s with readData := s.readData ++ [s.toBlock.readWord a] }

/-- One transaction of the host with a block that is ready for it (rule R60). A ready block offers no byte (`out_valid` is 0), so
a host that would take one takes none. -/
def hostEvent (e : HostEvent) (s : State) : Host.Outcome State Fault Refusal :=
  match e with
  | .command w => executeWord w s
  | .read a => .next (readPort a s)
  | .reset => .next (hostReset s)
  | .resetDuring w => .next (abandon ⟨w, 0⟩ s)
  | .takeByte => .next s
  | .sink accepts => .next { s with outReady := accepts }

/-- The next transaction while a command waits for its next byte to be taken (rules R60, R66, R267). The host takes that byte, or
begins to take all; reset abandons the command (rule R262). No port accepts a command or a read in between, so a host that
tries one first never comes to take the byte, nor does one that does nothing more: the command never completes (rule R267;
item U15: stuck). -/
def waitFor (r : Running) (s : State) : Host.Outcome State Fault Refusal :=
  match s.inputs with
  | .takeByte :: rest => .next (takeOne r { s with inputs := rest })
  | .sink true :: rest => .next (finish r { s with inputs := rest, outReady := true })
  | .sink false :: rest => .next { s with inputs := rest, outReady := false }
  | .reset :: rest => .next (abandon r { s with inputs := rest })
  | [] | .command _ :: _ | .read _ :: _ | .resetDuring _ :: _ => .fault .outputStalled

/-- The next transaction, oldest first (rule R69). With no command pending the block does nothing and keeps all its state
(rule R245). -/
def nextEvent (s : State) : Host.Outcome State Fault Refusal :=
  match s.busy with
  | some r => waitFor r s
  | none =>
    match s.inputs with
    | [] => .next s
    | e :: rest => hostEvent e { s with inputs := rest }

/-- The host sends the command word `w` next, to a block that is ready for a command. -/
def sendFirst (w : Word) (s : State) : State := { s with inputs := .command w :: s.inputs, busy := none }

end Sys2Proof.Machine
end

