-- ==== Sys2Proof/Machine/Step.lean ====
section
/-! DEFINITION. One step of the machine: the next transaction at its ports (rules R16, R69). -/

namespace Sys2Proof.Machine

/-- One step. -/
def step (s : State) : Host.Outcome State Fault Refusal := nextEvent s

/-- `s` with the command word that spec/opcode_table.json numbers as `w` the next one the host sends (assumption 2). The block
fetches nothing (rule R72); its next command is the next transfer on the command port. -/
def State.withFetchWord (s : State) (_nbits w : Nat) : State := sendFirst (BitVec.ofNat 32 w) s

end Sys2Proof.Machine
end

