-- ==== Sys2Proof/Machine/Assembler.lean ====
section
/-! DEFINITION. Command text (rule R86) and the pseudo-instructions (rule R87), as functions on lists of characters and lists
of bytes. The block never sees either: they say which commands a text stands for. -/

namespace Sys2Proof.Machine

/-! ## Pseudo-instructions (rule R87) -/

/-- The pseudo-instructions, with their operand bytes. -/
inductive Pseudo where
  | cnts (bytes : List Byte)
  | encs (bytes : List Byte)
  | hdrins (bytes : List Byte)
  | decs (bytes : List Byte)
  | cntstr (text : List Byte)
  | encstr (text : List Byte)
  | compress (source : List Byte)
  | decompress (container : List Byte)
deriving DecidableEq, Repr

/-- The commands that decompress a container: its first 1024 bytes go to HDRIN and the rest to DEC; a container with a short
header gets no BUILD (rules R87, R195). -/
def decompressCommands (container : List Byte) : List Instr :=
  if container.length < Config.hdrBytes then
    [.init] ++ container.map .hdrin ++ [.decend]
  else
    [.init] ++ (container.take Config.hdrBytes).map .hdrin ++ [.build]
      ++ (container.drop Config.hdrBytes).map .dec ++ [.decend]

/-- The commands that compress a source (rule R87). -/
def compressCommands (source : List Byte) : List Instr :=
  [.init] ++ source.map .cnt ++ [.build, .assign, .hdrout] ++ source.map .enc ++ [.encend]

/-- The real commands a pseudo-instruction expands to, in order (rule R87). -/
def Pseudo.expand : Pseudo → List Instr
  | .cnts bytes => bytes.map .cnt
  | .encs bytes => bytes.map .enc
  | .hdrins bytes => bytes.map .hdrin
  | .decs bytes => bytes.map .dec
  | .cntstr text => text.map .cnt
  | .encstr text => text.map .enc
  | .compress source => compressCommands source
  | .decompress container => decompressCommands container

/-! ## Command text (rule R86) -/

/-- Why a line is an assembly error. -/
inductive AsmError where
  /-- the first word is no mnemonic -/
  | unknownMnemonic
  /-- an operand is neither a decimal number, a hexadecimal number nor a quoted character -/
  | badOperand
  /-- rule R86's errors of a source command -/
  | source (e : SourceError)
deriving DecidableEq, Repr

/-- What a line stands for. -/
inductive AsmLine where
  /-- only white space or a comment -/
  | blank
  | command (i : Instr)
  | pseudo (p : Pseudo)
deriving DecidableEq, Repr

/-- A letter in upper case; mnemonics are case-insensitive. -/
def upperChar (c : Char) : Char := if 'a'.toNat ≤ c.toNat ∧ c.toNat ≤ 'z'.toNat then Char.ofNat (c.toNat - 32) else c

/-- White space in command text. DESIGN CHOICE (assumption 10): the space, the tab, CR and LF, and no other character; the spec
does not say which characters count. -/
def isSpaceChar (c : Char) : Bool := c == ' ' || c == '\t' || c == '\r' || c == '\n'

/-- The value of a digit in the given base. -/
def digitValue (base : Nat) (c : Char) : Option Nat :=
  let n := c.toNat
  let v :=
    if '0'.toNat ≤ n ∧ n ≤ '9'.toNat then n - '0'.toNat
    else if 'a'.toNat ≤ n ∧ n ≤ 'f'.toNat then n - 'a'.toNat + 10
    else if 'A'.toNat ≤ n ∧ n ≤ 'F'.toNat then n - 'A'.toNat + 10
    else base
  if v < base then some v else none

/-- The number a nonempty list of digits writes. -/
def digitsValue (base : Nat) : List Char → Option Nat
  | [] => none
  | c :: rest => (c :: rest).foldl (fun acc d => acc.bind fun a => (digitValue base d).map fun v => a * base + v) (some 0)

/-- An operand: decimal, `0x` hexadecimal, or one ASCII character in single quotes (rule R86). -/
def operandValue : List Char → Option Nat
  | ['\'', c, '\''] => if c.toNat < 128 then some c.toNat else none
  | '0' :: 'x' :: digits => digitsValue 16 digits
  | digits => digitsValue 10 digits

/-- The part of a line before its comment, which a `;` outside quotes starts (assumption 10). A quoted character is copied
whole. -/
def dropComment (quoted : Bool) : List Char → List Char
  | [] => []
  | '\'' :: c :: '\'' :: rest => '\'' :: c :: '\'' :: dropComment quoted rest
  | '"' :: rest => '"' :: dropComment (!quoted) rest
  | c :: rest => if c == ';' && !quoted then [] else c :: dropComment quoted rest

def trimLeft (cs : List Char) : List Char := cs.dropWhile isSpaceChar

def trimBoth (cs : List Char) : List Char := (trimLeft (trimLeft cs).reverse).reverse

/-- A comma-separated operand list, with a quoted comma kept in its operand. -/
def splitCommas : List Char → List Char → List (List Char)
  | current, [] => [current.reverse]
  | current, '\'' :: c :: '\'' :: rest => splitCommas ('\'' :: c :: '\'' :: current) rest
  | current, c :: rest => if c == ',' then current.reverse :: splitCommas [] rest else splitCommas (c :: current) rest

/-- The operands of a pseudo-instruction, each a byte. -/
def operandBytes (cs : List Char) : Except AsmError (List Byte) :=
  if trimBoth cs = [] then .ok []
  else (splitCommas [] cs).foldr (fun part acc =>
    match acc, operandValue (trimBoth part) with
    | .error e, _ => .error e
    | .ok _, none => .error .badOperand
    | .ok bytes, some v => if v < 256 then .ok (BitVec.ofNat 8 v :: bytes) else .error (.source .operandTooLarge)) (.ok [])

/-- The characters of a text in double quotes, as ASCII codes (rule R87). DESIGN CHOICE (assumption 10): the text lies between the
first and the last double quote of the operand, so a double quote between those two stands for itself, 0x22; the spec is
silent on it. -/
def textBytes (cs : List Char) : Except AsmError (List Byte) :=
  match trimBoth cs with
  | '"' :: rest =>
    match rest.reverse with
    | '"' :: inner =>
      if inner.all (fun c => c.toNat < 128) then .ok (inner.reverse.map fun c => BitVec.ofNat 8 c.toNat)
      else .error .badOperand
    | _ => .error .badOperand
  | _ => .error .badOperand

/-- The mnemonics as text. -/
def mnemonicText : Mnemonic → List Char
  | .nop => "NOP".toList
  | .init => "INIT".toList
  | .abortsrc => "ABORTSRC".toList
  | .abortsnk => "ABORTSNK".toList
  | .cnt => "CNT".toList
  | .build => "BUILD".toList
  | .assign => "ASSIGN".toList
  | .hdrout => "HDROUT".toList
  | .enc => "ENC".toList
  | .encend => "ENCEND".toList
  | .hdrin => "HDRIN".toList
  | .dec => "DEC".toList
  | .decend => "DECEND".toList

/-- A real command: at most one operand (rule R86). -/
def assembleCommand (m : Mnemonic) (operands : List Char) : Except AsmError AsmLine :=
  let given : Except AsmError (Option Nat) :=
    if operands = [] then .ok none
    else match operandValue operands with
      | some v => .ok (some v)
      | none => .error .badOperand
  match given with
  | .error e => .error e
  | .ok v =>
    match (SourceCommand.mk m v).problem, (SourceCommand.mk m v).instr with
    | some e, _ => .error (.source e)
    | none, some i => .ok (.command i)
    | none, none => .error .unknownMnemonic

/-- A pseudo-instruction by its name (rule R87); none where the name is not one. -/
def assemblePseudo (name : List Char) (operands : List Char) : Option (Except AsmError AsmLine) :=
  let bytes (mk : List Byte → Pseudo) := some ((operandBytes operands).map fun bs => AsmLine.pseudo (mk bs))
  let text (mk : List Byte → Pseudo) := some ((textBytes operands).map fun bs => AsmLine.pseudo (mk bs))
  if name = "CNTS".toList then bytes .cnts
  else if name = "ENCS".toList then bytes .encs
  else if name = "HDRINS".toList then bytes .hdrins
  else if name = "DECS".toList then bytes .decs
  else if name = "CNTSTR".toList then text .cntstr
  else if name = "ENCSTR".toList then text .encstr
  else if name = "COMPRESS".toList then bytes .compress
  else if name = "DECOMPRESS".toList then bytes .decompress
  else none

/-- One line of command text (rule R86). DESIGN CHOICE (assumption 10): the names of rule R87's pseudo-instructions are read in any
case too, where rule R86 says it of mnemonics; and the name ends only at white space or at the end of the code, so `CNT'A'` is no
mnemonic with an operand but an unknown one. The spec is silent on both. -/
def assembleLine (line : List Char) : Except AsmError AsmLine :=
  let code := trimBoth (dropComment false line)
  if code = [] then .ok .blank
  else
    let name := (code.takeWhile (fun c => !isSpaceChar c)).map upperChar
    let operands := trimBoth (code.dropWhile (fun c => !isSpaceChar c))
    match Mnemonic.all.find? (fun m => mnemonicText m = name) with
    | some m => assembleCommand m operands
    | none => (assemblePseudo name operands).getD (.error .unknownMnemonic)

/-- The commands a line stands for, in order (rules R86, R87). -/
def lineCommands (line : List Char) : Except AsmError (List Instr) :=
  (assembleLine line).map fun l =>
    match l with
    | .blank => []
    | .command i => [i]
    | .pseudo p => p.expand

/-- The command words a line stands for: the assembler encodes by rule R81. -/
def lineWords (line : List Char) : Except AsmError (List Word) := (lineCommands line).map fun is => is.map encode

end Sys2Proof.Machine
end

