-- ==== Sys2Proof/Safety.lean ====
section
/-! DEFINITION. The terms in which claims are made: the tables of rules R22 and R232 as functions, the properties rules R139,
R151 and R174 ask of trees, codes and packed bytes, runs of commands, and the invariant of rule R40. No definition of the
machine uses this file. -/

namespace Sys2Proof.Machine

/-! ## The phase table of rule R22 -/

/-- The phases in which a command is legal (rule R22, second column). -/
def legalPhases : Instr → List Phase
  | .nop | .abortsrc | .abortsnk =>
    [.idle, .count, .cbuilt, .coded, .enc, .edone, .hload, .hdone, .dec, .ddone]
  | .init => [.idle, .count, .cbuilt, .coded, .enc, .edone, .hload, .hdone, .dec, .ddone, .error]
  | .cnt _ => [.idle, .count]
  | .build => [.idle, .count, .hdone]
  | .assign => [.cbuilt]
  | .hdrout => [.coded]
  | .enc _ | .encend => [.enc]
  | .hdrin _ => [.idle, .hload]
  | .dec _ | .decend => [.dec]

/-- The error of a command in a phase from 0 to 9 where it is not legal (rule R22, last column). -/
def outOfPhaseError : Instr → Phase → ErrCode
  | .build, .hload => .malformedContainer
  | .decend, .idle => .malformedContainer
  | .decend, .hload => .malformedContainer
  | _, _ => .sequence

/-- The phases a command that completes can leave the block in, from a phase where it is legal (rule R22, third column). -/
def phasesAfter : Instr → Phase → List Phase
  | .nop, p => [p]
  | .init, _ => [.idle]
  | .abortsrc, _ | .abortsnk, _ => []
  | .cnt _, _ => [.count]
  | .build, .hdone => [.dec]
  | .build, _ => [.cbuilt]
  | .assign, _ => [.coded]
  | .hdrout, _ => [.enc]
  | .enc _, _ => [.enc]
  | .encend, _ => [.edone]
  | .hdrin _, _ => [.hload, .hdone]
  | .dec _, _ => [.dec]
  | .decend, _ => [.ddone]

/-- The errors a command can raise by its own checks, in a phase where it is legal (rule R232). -/
def ownErrors : Instr → List ErrCode
  | .abortsrc => [.sourceRead]
  | .abortsnk => [.sinkWrite]
  | .cnt _ => [.freqOverflow]
  | .enc _ | .encend => [.sourceMismatch]
  | .dec _ => [.malformedContainer, .decodeTraversal]
  | .decend => [.malformedContainer]
  | .nop | .init | .build | .assign | .hdrout | .hdrin _ => []

/-! ## Trees and codes -/

/-- The node reached from n by taking the edges `bits` says, false for LEFT and true for RIGHT (rule R151). -/
def follow (t : Tree) : Nat → List Bool → Nat
  | n, [] => n
  | n, x :: rest => follow t (if x then (t.nodeAt n).right.toNat else (t.nodeAt n).left.toNat) rest

/-- Node n is part of the tree (rule R28). -/
abbrev Tree.has (t : Tree) (n : Nat) : Prop := (t.nodeAt n).alloc = true

/-- p is the parent of n (rule R26). -/
abbrev Tree.parentOf (t : Tree) (p n : Nat) : Prop :=
  256 ≤ p ∧ t.has p ∧ ((t.nodeAt p).left.toNat = n ∨ (t.nodeAt p).right.toNat = n)

/-- Node m stands before node n in the selection order of rule R133. -/
abbrev Tree.keyLt (t : Tree) (m n : Nat) : Prop :=
  (t.nodeAt m).weight < (t.nodeAt n).weight ∨ ((t.nodeAt m).weight = (t.nodeAt n).weight ∧ m < n)

/-- Node m is in Q when TreeBuild comes to make internal node n: it is a leaf or was made before n, and no node made before n has
taken it as a child (rules R132, R134). -/
abbrev Tree.inQ (t : Tree) (n m : Nat) : Prop := t.has m ∧ m < n ∧ ∀ p < n, ¬ t.parentOf p m

/-- How many symbols have nonzero frequency (rule R30). -/
def leafCount (freq : Table (BitVec 32)) : Nat := ((List.range 256).filter fun s => freq.get 0 s ≠ 0).length

/-- The tree is one full binary tree rooted at ROOT whose leaves are exactly the symbols with nonzero frequency
(rules R29, R40 item 4, R139 items 1 and 3). -/
structure Tree.Full (t : Tree) (freq : Table (BitVec 32)) : Prop where
  /-- the allocated leaves are the symbols with nonzero frequency -/
  leaves : ∀ s < 256, t.has s ↔ freq.get 0 s ≠ 0
  /-- every allocated internal node has two distinct allocated children, created before it -/
  children : ∀ n, 256 ≤ n → t.has n →
    t.has (t.nodeAt n).left.toNat ∧ t.has (t.nodeAt n).right.toNat ∧
    (t.nodeAt n).left.toNat < n ∧ (t.nodeAt n).right.toNat < n ∧ (t.nodeAt n).left ≠ (t.nodeAt n).right
  /-- every allocated node but the root has exactly one parent -/
  parent : ∀ n, t.has n → n ≠ t.root.toNat → ∃! p, t.parentOf p n
  /-- the root has no parent -/
  rootTop : ∀ p, ¬ (t.rootV = true ∧ t.parentOf p t.root.toNat)
  /-- ROOT_V says that a tree exists, and then ROOT is a node of it -/
  rootIn : t.rootV = true → t.has t.root.toNat
  /-- without a tree no node is allocated -/
  noTree : t.rootV = false → ∀ n, ¬ t.has n

/-- `c` is a first part of `d`. -/
def isFirstPart (c d : List Bool) : Prop := ∃ rest, d = c ++ rest

/-! ## Packing -/

/-- A byte sequence as bits, most significant first (rules R174, R210). -/
def unpackBytes (bytes : List Byte) : List Bool := bytes.flatMap bitsOfByte

/-- The bytes of a whole bit sequence: 8 bits a byte, the last one padded with zeros (rule R174). -/
def packAll (bits : List Bool) : List Byte :=
  let p := packBits ⟨0, 0, []⟩ bits
  p.outs ++ flushBytes p.acc p.fill

/-- The bits waiting in ACC, the earliest first (rule R32). -/
def pendingBits (acc : BitVec 8) (fill : BitVec 3) : List Bool :=
  (List.range fill.toNat).map fun i => acc.getLsbD (fill.toNat - 1 - i)

/-! ## Runs of commands -/

/-- The commands in order, each from the state the one before it leaves (rule R69). A claim about a run is about a host that
takes bytes, or about commands that emit none, so that each command completes before the next (rule R267). -/
def runAll : List Instr → State → Host.Outcome State Fault Refusal
  | [], s => .next s
  | i :: rest, s =>
    match exec i s with
    | .next t => runAll rest t
    | .fault f => .fault f
    | .refused r => .refused r

/-! ## The invariant of rule R40 -/

/-- The phase whose data the block holds: PHASE, and in ERROR the phase the error was raised in (rule R233). -/
def Block.heldPhase (b : Block) : Phase := if b.phase = .error then b.errPhase else b.phase

/-- Every table is in its canonical form. -/
structure Block.Canonical (b : Block) : Prop where
  freq : b.freq.wf Config.nsym 0
  rem : b.rem.wf Config.nsym 0
  arena : b.tree.arena.wf Config.nnode Node.none
  lut : b.lut.wf Config.nsym LutEntry.none

/-- What holds after every command (rule R40), with what the rules of the phases say beside it. -/
structure Block.Inv (b : Block) : Prop where
  canonical : b.Canonical
  /-- item 2: IDLE is the reset state -/
  idle : b.phase = .idle → b = Block.reset
  /-- the error record is empty exactly when no error is pending (rule R37) -/
  record : b.phase = .error ↔ b.err ≠ .none
  /-- ERRPHASE is one of the phases a command runs in (rules R233, R234) -/
  errPhase : b.errPhase ≠ .error
  /-- with no error pending ERRPHASE and ERRCMD are 0 (rules R37, R44) -/
  clearRecord : b.phase ≠ .error → b.errPhase = .idle ∧ b.errCmd = 0
  /-- item 3: TOTAL is the sum of FREQ, but while the header loads it is 0 (rule R24) -/
  total : b.total.toNat = if b.heldPhase = .hload then 0 else freqSum b.freq
  /-- HDRPOS counts the header bytes of the session (rules R22, R35) -/
  hdrpos : match b.heldPhase with
    | .hload => 1 ≤ b.hdrpos.toNat ∧ b.hdrpos.toNat ≤ 1023
    | .hdone | .dec | .ddone => b.hdrpos.toNat = 1024
    | .idle | .count | .cbuilt | .coded | .enc | .edone | .error => b.hdrpos.toNat = 0
  /-- item 4: the tree is TreeBuild of FREQ once BUILD has run (rule R138), and is empty before -/
  tree : b.tree =
    if b.heldPhase ∈ [.cbuilt, .coded, .enc, .edone, .dec, .ddone] then treeBuild b.freq else Tree.none
  /-- item 5: the LUT is the tree's code table once ASSIGN has run (rule R156), and is empty before -/
  lut : b.lut = if b.heldPhase ∈ [.coded, .enc, .edone] then codeLut b.tree else Table.empty
  /-- item 6: what the second pass may still encode -/
  budget : b.heldPhase ∈ [.coded, .enc, .edone] →
    freqSum b.rem + b.symcnt.toNat = b.total.toNat ∧ ∀ s, b.remAt s ≤ b.freqAt s
  /-- without a second pass REM is empty -/
  noBudget : b.heldPhase ∉ [.coded, .enc, .edone] → b.rem = Table.empty
  /-- EDONE is reached with the whole second pass encoded (rule R173), DDONE with every symbol decoded (rule R212) -/
  finished : b.heldPhase ∈ [.edone, .ddone] → b.symcnt = b.total
  /-- item 7: the pending bits fit below FILL -/
  packer : b.acc.toNat < 2 ^ b.fill.toNat
  /-- bits are pending in ENC alone (rules R150, R173) -/
  noPending : b.heldPhase ≠ .enc → b.fill = 0
  /-- SYMCNT never passes TOTAL (rule R33) -/
  symcnt : b.symcnt.toNat ≤ b.total.toNat
  /-- before the tree no symbol has been counted (rule R130) -/
  symcntZero : b.heldPhase ∈ [.idle, .count, .cbuilt, .coded, .hload, .hdone] → b.symcnt = 0
  /-- a counted symbol has at most MAXLEN bits, and the bits of a walk in progress are at most the ids it has descended
  (rule R34: BITCNT never passes 48 bits) -/
  bitcnt : b.bitcnt.toNat + b.walk.toNat ≤ b.symcnt.toNat * 255 + b.tree.root.toNat
  /-- item 8: the walk stands at ROOT when every symbol is decoded -/
  walk : b.heldPhase ∈ [.dec, .ddone] → b.symcnt = b.total → b.walk = b.tree.root
  /-- without an internal node the walk never leaves ROOT (rule R213) -/
  walkLeaf : b.heldPhase = .dec → b.tree.nleaf.toNat ≤ 1 → b.walk = b.tree.root
  /-- the walk stands at an allocated internal node of a tree that has one (rule R215) -/
  walkNode : b.heldPhase = .dec → 2 ≤ b.tree.nleaf.toNat → 256 ≤ b.walk.toNat ∧ b.tree.has b.walk.toNat

/-- What holds of a command that waits for its next byte to be taken (rule R267): the host does not take bytes by itself, the block
is not in ERROR (rule R234), and the command has bytes left. -/
def State.Waits (s : State) : Prop :=
  ∀ r, s.busy = some r → s.outReady = false ∧ s.phase ≠ .error ∧ bytesLeft r s ≠ []

/-- What holds of the machine after every step: rule R40's invariant of the block, and what a waiting command is. -/
structure State.Inv (s : State) : Prop where
  block : s.toBlock.Inv
  waits : s.Waits

end Sys2Proof.Machine
end

