-- ==== Sys2Proof/Certificates/Slice0/Obligations.lean ====
section
/-! DEFINITION. The statements for the provers. Each says in its docstring which rule of the spec it formalises, or which choice
of the model it rests on. -/

open Sys2Proof Sys2Proof.Machine

/-! ## Encoding (30_encoding.md) -/

/-- Words written out from rule R82's table decode to their commands, and words that break rule R81's formats do not decode
(rules R82, R84; vectors V-CTL-2, V-CTL-8, V-CTL-9, V-CTL-10). -/
def Obligations.DecodesWordsOfTheOpcodeMap : Prop :=
  decodeWord 0x00000000 = .ok .nop ∧ decodeWord 0x01000000 = .ok .init ∧ decodeWord 0x02000000 = .ok .abortsrc ∧
  decodeWord 0x03000000 = .ok .abortsnk ∧ decodeWord 0x10000041 = .ok (.cnt 0x41) ∧ decodeWord 0x11000000 = .ok .build ∧
  decodeWord 0x12000000 = .ok .assign ∧ decodeWord 0x13000000 = .ok .hdrout ∧ decodeWord 0x14000044 = .ok (.enc 0x44) ∧
  decodeWord 0x15000000 = .ok .encend ∧ decodeWord 0x20000003 = .ok (.hdrin 0x03) ∧
  decodeWord 0x2100001F = .ok (.dec 0x1F) ∧ decodeWord 0x22000000 = .ok .decend ∧
  decodeWord 0x00000001 = .error .operandBits ∧ decodeWord 0x04000000 = .error .reservedOpcode ∧
  decodeWord 0x10000100 = .error .reservedBits ∧ decodeWord 0xFFFFFFFF = .error .reservedOpcode

/-- Decoding a command's own word gives the command, with every operand byte (rules R81, R82, R83). -/
def Obligations.DecodeOfEncodeIsTheCommand : Prop := ∀ i : Instr, decodeWord (encode i) = .ok i

/-- A word that decodes is the word of the command it decodes to: no two words stand for one command, and no bit of a word is
ignored (rules R81, R82, R83). -/
def Obligations.EncodeOfDecodeIsTheWord : Prop := ∀ (w : Word) (i : Instr), decodeWord w = .ok i → encode i = w

/-- Rule R83: every word is exactly one command or ILLEGAL. It is ILLEGAL exactly when its OPC is in no row of rule R82, or its
OPC is a format-N one and a bit of [23:0] is set, or its OPC is a format-B one and a bit of [23:8] is set; and then executing it
raises ILLEGAL_COMMAND. -/
def Obligations.IllegalWordsAreExactlyThese : Prop :=
  ∀ w : Word,
    ((∃ e, decodeWord w = .error e) ↔
      (w.extractLsb' 24 8 ∉ [0x00#8, 0x01#8, 0x02#8, 0x03#8, 0x10#8, 0x11#8, 0x12#8, 0x13#8, 0x14#8, 0x15#8, 0x20#8,
          0x21#8, 0x22#8] ∨
        (w.extractLsb' 24 8 ∈ [0x00#8, 0x01#8, 0x02#8, 0x03#8, 0x11#8, 0x12#8, 0x13#8, 0x15#8, 0x22#8] ∧
          w.extractLsb' 0 24 ≠ 0) ∨
        (w.extractLsb' 24 8 ∈ [0x10#8, 0x14#8, 0x20#8, 0x21#8] ∧ w.extractLsb' 8 16 ≠ 0))) ∧
    ∀ (e : IllegalWord) (s : State), decodeWord w = .error e → s.phase ≠ .error →
      executeWord w s = .next { s with errPhase := s.phase, err := .illegalCommand, errCmd := w, phase := .error }

/-- No two rows of rule R82 overlap. -/
def Obligations.OpcodeRowsNeverOverlap : Prop :=
  ∀ (w : Word) (r1 r2 : OpcodeRow), r1 ∈ opcodeTable → r2 ∈ opcodeTable →
    w &&& r1.mask = r1.matchWord → w &&& r2.mask = r2.matchWord → r1.mnemonic = r2.mnemonic

/-- Rule R86's operand checks and encoding: a source command is refused exactly when a format-B one has no operand or one outside
0..255, or a format-N one has an operand; and one that is accepted is encoded as {OPC, 24'h0} or {OPC, 16'h0000, b}, with the OPC and the
format of its mnemonic's row of rule R82 and b its operand number, never truncated. -/
def Obligations.AssemblerRefusesExactlyIllFormedCommands : Prop :=
  ∀ (m : Mnemonic) (v : Option Nat),
    let c := SourceCommand.mk m v
    (c.instr = none ↔
      (m.format = .b ∧ (v = none ∨ ∃ n, v = some n ∧ 256 ≤ n)) ∨ (m.format = .n ∧ ∃ n, v = some n)) ∧
    ∀ i, c.instr = some i →
      (encode i).toNat % 256 = v.getD 0 ∧
      ((∃ opc, (m, opc) ∈ [(.nop, 0x00#8), (.init, 0x01#8), (.abortsrc, 0x02#8), (.abortsnk, 0x03#8), (.build, 0x11#8),
            (.assign, 0x12#8), (.hdrout, 0x13#8), (.encend, 0x15#8), (.decend, 0x22#8)] ∧
          v = none ∧ encode i = opc ++ 0#24) ∨
        ∃ opc n, (m, opc) ∈ [(.cnt, 0x10#8), (.enc, 0x14#8), (.hdrin, 0x20#8), (.dec, 0x21#8)] ∧
          v = some n ∧ n < 256 ∧ encode i = opc ++ 0#16 ++ BitVec.ofNat 8 n)

/-! ## The step, the dispatch and the ports (20_memory.md, 40_control.md, 60_exceptions.md) -/

/-- With a block that is ready, a step executes the next word on the command port, whichever word it is (rules R16, R69, R100): with
that transaction taken off the inputs and nothing else around it, it does what `exec` says of the command the word decodes to, and
with an ILLEGAL word it raises ILLEGAL_COMMAND, or ignores it in ERROR (rules R83, R234). That the host's transactions stand in the
inputs is the model's choice (assumptions 1 and 2). -/
def Obligations.StepRunsTheDecodedCommand : Prop :=
  ∀ (s : State) (w : Word) (rest : List HostEvent), s.busy = none → s.inputs = .command w :: rest →
    step s = executeWord w { s with inputs := rest } ∧
    (∀ i, decodeWord w = .ok i → step s = exec i { s with inputs := rest }) ∧
    (∀ e, decodeWord w = .error e →
      (s.phase ≠ .error → step s = .next { s with
        inputs := rest
        errPhase := s.phase
        err := .illegalCommand
        errCmd := w
        phase := .error }) ∧
      (s.phase = .error → step s = .next { s with inputs := rest }))

/-- Rule R245: with no command pending, none executing and none to come, the block does nothing and keeps all its state. -/
def Obligations.IdleBlockKeepsAllItsState : Prop :=
  ∀ s : State, s.busy = none → s.inputs = [] → step s = .next s

/-- Rule R234: in ERROR every command word except the exact INIT word is ignored: no state change, nothing emitted, nothing
recorded. -/
def Obligations.ErrorPhaseIgnoresAllWordsButInit : Prop :=
  ∀ (s : State) (w : Word), s.phase = .error → w ≠ 0x01000000 → executeWord w s = .next s

/-- Rule R236: INIT and reset are the only ways out of ERROR, and both discard the whole session. A reset may come between
commands or during one. That a waiting command is never one in ERROR is part of the invariant (`State.Waits`). -/
def Obligations.OnlyInitAndResetLeaveError : Prop :=
  ∀ s t : State, s.Waits → s.phase = .error → step s = .next t → t.phase ≠ .error →
    t.toBlock = Block.reset ∧
    ∃ e rest, s.inputs = e :: rest ∧ (e = .command 0x01000000 ∨ e = .reset ∨ ∃ w, e = .resetDuring w)

/-- Rule R233: when a command raises, ERRPHASE is the phase it started in, ERR the code, ERRCMD the command word, PHASE is ERROR;
every other element, OUT among them, is what it was before the command. The code is never NONE (rule R231). -/
def Obligations.ErrorEntryIsPrecise : Prop :=
  ∀ (w : Word) (s t : State), executeWord w s = .next t → s.phase ≠ .error → t.phase = .error →
    ∃ code, code ≠ ErrCode.none ∧
      t = { s with errPhase := s.phase, err := code, errCmd := w, phase := .error }

/-- The table of rule R232, by command: outside its legal phases a command raises the error rule R22 names, and in a legal phase
only errors of its own rows. -/
def Obligations.CommandsRaiseOnlyTheirErrors : Prop :=
  ∀ (i : Instr) (s t : State), s.phase ≠ .error → exec i s = .next t → t.phase = .error →
    if s.phase ∈ legalPhases i then t.err ∈ ownErrors i else t.err = outOfPhaseError i s.phase

/-- The table of rule R22: in a phase from 0 to 9 where it is not legal a command raises the error of the table's last column, and
a command that completes leaves the block in the phase of its row (one that waits for the host to take its bytes has not completed,
rule R267). -/
def Obligations.PhaseTransitionsFollowTheTable : Prop :=
  ∀ (i : Instr) (s : State), s.phase ≠ .error →
    (s.phase ∉ legalPhases i →
      exec i s = .next { s with
        errPhase := s.phase
        err := outOfPhaseError i s.phase
        errCmd := encode i
        phase := .error }) ∧
    (∀ t, s.busy = none → exec i s = .next t → t.busy = none → t.phase ≠ .error →
      s.phase ∈ legalPhases i ∧ t.phase ∈ phasesAfter i s.phase)

/-- A register read returns the word of the state as it stands and has no side effect on the block, and the host's taking or not
taking bytes has none either (rules R61, R62), for a block that is ready (rule R66). Where the word read is kept is the model's choice
(assumption 11). -/
def Obligations.HostReadsChangeNothing : Prop :=
  ∀ (s : State) (rest : List HostEvent), s.busy = none →
    (∀ a, s.inputs = .read a :: rest →
      step s = .next { s with inputs := rest, readData := s.readData ++ [s.toBlock.readWord a] }) ∧
    (∀ v, s.inputs = .sink v :: rest → step s = .next { s with inputs := rest, outReady := v }) ∧
    (s.inputs = .takeByte :: rest → step s = .next { s with inputs := rest })

/-- Rules R44 and R261: after reset, and after INIT, every state element has its value of rule R44; OUT keeps its bytes. (Reset while a
command executes, where OUT may gain bytes, is the next statement.) -/
def Obligations.ResetAndInitGiveTheResetValues : Prop :=
  ∀ (s : State) (rest : List HostEvent), s.busy = none →
    s.inputs = .reset :: rest ∨ s.inputs = .command 0x01000000 :: rest →
    ∃ t, step s = .next t ∧ t.busy = none ∧ t.phase = .idle ∧ (∀ k, t.toBlock.freqAt k = 0) ∧ t.total = 0 ∧ (∀ k, t.toBlock.remAt k = 0) ∧
      (∀ n, (t.tree.nodeAt n).alloc = false ∧ (t.tree.nodeAt n).weight = 0 ∧ (t.tree.nodeAt n).left = 0 ∧
        (t.tree.nodeAt n).right = 0) ∧
      t.tree.root = 0 ∧ t.tree.rootV = false ∧ t.tree.nleaf = 0 ∧ t.tree.nint = 0 ∧
      (∀ k, (t.toBlock.lutAt k).valid = false ∧ (t.toBlock.lutAt k).len = 0 ∧ (t.toBlock.lutAt k).code = 0) ∧
      t.acc = 0 ∧ t.fill = 0 ∧ t.symcnt = 0 ∧ t.bitcnt = 0 ∧ t.hdrpos = 0 ∧ t.walk = 0 ∧ t.err = .none ∧
      t.errPhase = .idle ∧ t.errCmd = 0 ∧ t.toBlock.memRead 0x000 = some 0x48554631 ∧
      t.toBlock.memRead 0x004 = some 0x04200100 ∧ t.out = s.out

/-- Rule R262: when reset interrupts a command, the command is abandoned, OUT holds some first part of the bytes it would have
emitted, from none to all, and the block is in the reset state whatever the command had done. Of a command that waits, k bytes are in
OUT already, and some first part of the others may follow. Which part is a free value (assumption 5). -/
def Obligations.ResetDuringACommandKeepsAFirstPartOfItsBytes : Prop :=
  ∀ (s t : State) (w : Word) (k : Nat) (rest : List HostEvent) (done : State) (bytes : List Byte),
    (s.busy = none ∧ k = 0 ∧ s.inputs = .resetDuring w :: rest) ∨ (s.busy = some ⟨w, k⟩ ∧ s.inputs = .reset :: rest) →
    executeWord w { s with inputs := rest, outReady := true } = .next done → done.out = s.out ++ bytes →
    step s = .next t →
    t.toBlock = Block.reset ∧ t.busy = none ∧ ∃ part, part <+: bytes.drop k ∧ t.out = s.out ++ part

/-- Rule R63: OUT only grows: no step drops, reorders or changes a byte that has been emitted. -/
def Obligations.OutOnlyGrows : Prop := ∀ s t : State, step s = .next t → s.out <+: t.out

/-- Rules R60, R66 and R267, as the model takes them (assumption 4). With a host that does not take bytes by itself a command that has
bytes to emit does not complete: it waits, with no byte taken and nothing of its effect on the block to be seen. Any other command
completes as it does with a host that takes bytes. Of a waiting command each transfer on OUT puts the next byte in OUT, and the last one
completes the command, with the block and the bytes it has with a host that takes them all; so does a host that begins to take them all.
If the host does nothing more, or first waits for a transfer that a busy block does not accept, it never takes the next byte, and the
machine is stuck. -/
def Obligations.StalledSinkStopsOnlyEmittingCommands : Prop :=
  (∀ (i : Instr) (s t : State), s.outReady = false → exec i { s with outReady := true } = .next t →
    (t.out ≠ s.out → exec i s = .next { s with busy := some ⟨encode i, 0⟩ }) ∧
    (t.out = s.out → exec i s = .next { t with outReady := false })) ∧
  (∀ (s done : State) (w : Word) (k : Nat) (rest : List HostEvent) (bytes : List Byte), s.busy = some ⟨w, k⟩ →
    executeWord w { s with inputs := rest, busy := none, outReady := true } = .next done → done.out = s.out ++ bytes →
    (∀ x, s.inputs = .takeByte :: rest → k + 1 < bytes.length → bytes[k]? = some x →
      step s = .next { s with inputs := rest, busy := some ⟨w, k + 1⟩, out := s.out ++ [x] }) ∧
    (s.inputs = .takeByte :: rest → bytes.length ≤ k + 1 →
      step s = .next { done with outReady := s.outReady, out := s.out ++ bytes.drop k }) ∧
    (s.inputs = .sink true :: rest → step s = .next { done with out := s.out ++ bytes.drop k })) ∧
  ∀ (s : State) (r : Running) (rest : List HostEvent), s.busy = some r →
    (s.inputs = .sink false :: rest → step s = .next { s with inputs := rest, outReady := false }) ∧
    (s.inputs = [] → step s = .fault .outputStalled) ∧
    (∀ v, s.inputs = .command v :: rest ∨ s.inputs = .resetDuring v :: rest → step s = .fault .outputStalled) ∧
    (∀ a, s.inputs = .read a :: rest → step s = .fault .outputStalled)

/-- Rule R18: a command's effect is a function of the block state and the command word alone: from two states with the same block,
it leaves the same block and emits the same bytes, whatever OUT, the inputs and the words read before. -/
def Obligations.EffectIsAFunctionOfBlockAndWord : Prop :=
  ∀ (w : Word) (s1 s2 t1 : State), s1.toBlock = s2.toBlock → s1.outReady = s2.outReady →
    executeWord w s1 = .next t1 →
    ∃ t2 bytes, executeWord w s2 = .next t2 ∧ t1.toBlock = t2.toBlock ∧ t1.out = s1.out ++ bytes ∧
      t2.out = s2.out ++ bytes

/-- Rule R34: no command's behaviour depends on BITCNT: with another value in it a command does the same to every other element
and emits the same bytes. -/
def Obligations.NoCommandDependsOnBitcnt : Prop :=
  ∀ (i : Instr) (s t : State) (v : BitVec 48), exec i s = .next t →
    ∃ u, exec i { s with bitcnt := v } = .next { t with bitcnt := u }

/-! ## The register space (10_state.md) -/

/-- Rule R41: ID and PARAM never change. -/
def Obligations.IdentificationRegistersAreConstant : Prop :=
  ∀ b : Block, b.memRead 0x000 = some 0x48554631 ∧ b.memRead 0x004 = some 0x04200100

/-- Rule R39: STATUS, bit by bit, read at byte offset 0x008; and rule R21's number of each phase. -/
def Obligations.StatusBitsAreComputedFromState : Prop :=
  Phase.idle.code = 0 ∧ Phase.count.code = 1 ∧ Phase.cbuilt.code = 2 ∧ Phase.coded.code = 3 ∧ Phase.enc.code = 4 ∧
  Phase.edone.code = 5 ∧ Phase.hload.code = 6 ∧ Phase.hdone.code = 7 ∧ Phase.dec.code = 8 ∧ Phase.ddone.code = 9 ∧
  Phase.error.code = 15 ∧
  ∀ b : Block, ∃ w, b.memRead 0x008 = some w ∧ w.extractLsb' 0 4 = b.phase.code ∧
    (w.getLsbD 4 = true ↔ b.phase.code = 15) ∧ (w.getLsbD 5 = true ↔ b.tree.rootV = true) ∧
    (w.getLsbD 6 = true ↔ b.tree.nleaf = 1) ∧ (w.getLsbD 7 = true ↔ b.fill ≠ 0) ∧
    (w.getLsbD 8 = true ↔ b.hdrpos = 1024) ∧ w.extractLsb' 9 23 = 0

/-- Rule R42: every scalar register at its byte offset, its fields at their bits and the bits not listed 0; the reserved offsets
read 0; and the reset column. ERR and ERRPHASE read as rule R231's and rule R21's numbers. -/
def Obligations.ScalarRegistersReadTheirFields : Prop :=
  (ErrCode.none.code = 0 ∧ ErrCode.sourceRead.code = 1 ∧ ErrCode.sinkWrite.code = 2 ∧ ErrCode.malformedContainer.code = 3 ∧
    ErrCode.decodeTraversal.code = 4 ∧ ErrCode.sourceMismatch.code = 5 ∧ ErrCode.freqOverflow.code = 6 ∧
    ErrCode.illegalCommand.code = 7 ∧ ErrCode.sequence.code = 8) ∧
  (Phase.idle.code = 0 ∧ Phase.count.code = 1 ∧ Phase.cbuilt.code = 2 ∧ Phase.coded.code = 3 ∧ Phase.enc.code = 4 ∧
    Phase.edone.code = 5 ∧ Phase.hload.code = 6 ∧ Phase.hdone.code = 7 ∧ Phase.dec.code = 8 ∧ Phase.ddone.code = 9 ∧
    Phase.error.code = 15) ∧
  (∀ b : Block,
    b.memRead 0x000 = some 0x48554631 ∧ b.memRead 0x004 = some 0x04200100 ∧ b.memRead 0x008 = some b.status ∧
    (∃ w, b.memRead 0x00C = some w ∧ w.extractLsb' 0 4 = b.err.code ∧ w.extractLsb' 4 4 = b.errPhase.code ∧
      w.extractLsb' 8 24 = 0) ∧
    b.memRead 0x010 = some b.errCmd ∧
    b.memRead 0x014 = some (b.tree.nleaf.setWidth 32) ∧ b.memRead 0x018 = some (b.tree.nint.setWidth 32) ∧
    (∃ w, b.memRead 0x01C = some w ∧ w.extractLsb' 0 9 = b.tree.root ∧ w.getLsbD 31 = b.tree.rootV ∧
      w.extractLsb' 9 22 = 0) ∧
    (∃ lo hi, b.memRead 0x020 = some lo ∧ b.memRead 0x024 = some hi ∧ hi.toNat * 2 ^ 32 + lo.toNat = b.total.toNat) ∧
    (∃ lo hi, b.memRead 0x028 = some lo ∧ b.memRead 0x02C = some hi ∧ hi.toNat * 2 ^ 32 + lo.toNat = b.symcnt.toNat) ∧
    (∃ lo hi, b.memRead 0x030 = some lo ∧ b.memRead 0x034 = some hi ∧ hi.toNat * 2 ^ 32 + lo.toNat = b.bitcnt.toNat) ∧
    (∃ w, b.memRead 0x038 = some w ∧ w.extractLsb' 0 8 = b.acc ∧ w.extractLsb' 8 3 = b.fill ∧ w.extractLsb' 11 21 = 0) ∧
    b.memRead 0x03C = some (b.hdrpos.setWidth 32) ∧ b.memRead 0x040 = some (b.walk.setWidth 32) ∧
    (∀ k, 0x11 ≤ k → k < 0x100 → b.memRead (4 * k) = some 0)) ∧
  (∀ k, 2 ≤ k → k < 0x100 → Block.reset.memRead (4 * k) = some 0)

/-- Rule R43: every array window, word by word, and the reserved words at n = 511 and from 0x4800 up. -/
def Obligations.ArrayWindowsReadTheirEntries : Prop :=
  ∀ b : Block,
    (∀ s < 256, b.memRead (0x0400 + 4 * s) = some (b.freqAt s)) ∧
    (∀ s < 256, b.memRead (0x0800 + 4 * s) = some (b.remAt s)) ∧
    (∀ s < 256, ∃ w, b.memRead (0x0C00 + 4 * s) = some w ∧ w.extractLsb' 0 8 = (b.lutAt s).len ∧
      w.getLsbD 31 = (b.lutAt s).valid ∧ w.extractLsb' 8 23 = 0) ∧
    (∀ s < 256, ∀ k < 8, ∃ w, b.memRead (0x1000 + 32 * s + 4 * k) = some w ∧
      ∀ j < 32, w.getLsbD (31 - j) = if 32 * k + j < 255 then (b.lutAt s).code.getLsbD (32 * k + j) else false) ∧
    (∀ n < 511, ∃ w, b.memRead (0x3000 + 4 * n) = some w ∧ w.extractLsb' 0 9 = (b.tree.nodeAt n).left ∧
      w.extractLsb' 16 9 = (b.tree.nodeAt n).right ∧ w.getLsbD 31 = (b.tree.nodeAt n).alloc ∧ w.extractLsb' 9 7 = 0 ∧
      w.extractLsb' 25 6 = 0) ∧
    (∀ n < 511, ∃ lo hi, b.memRead (0x3800 + 4 * n) = some lo ∧ b.memRead (0x4000 + 4 * n) = some hi ∧
      hi.toNat * 2 ^ 32 + lo.toNat = (b.tree.nodeAt n).weight.toNat) ∧
    b.memRead 0x37FC = some 0 ∧ b.memRead 0x3FFC = some 0 ∧ b.memRead 0x47FC = some 0 ∧
    (∀ k, 0x1200 ≤ k → k < 0x4000 → b.memRead (4 * k) = some 0)

/-! ## The commands, one statement each: where it completes and with what, and each error it raises -/

/-- Rule R101: NOP leaves all state unchanged and emits nothing, in every phase. -/
def Obligations.NopChangesNothing : Prop := encode .nop = 0x00000000 ∧ ∀ s : State, exec .nop s = .next s

/-- Rule R102: INIT returns every state element to its reset value in every phase, ERROR included; STATUS becomes 0x000; OUT is
not touched. -/
def Obligations.InitResetsTheBlock : Prop :=
  encode .init = 0x01000000 ∧ Block.reset.status = 0 ∧
  ∀ s : State, exec .init s = .next { s with toBlock := Block.reset }

/-- Rules R103 and R104: ABORTSRC and ABORTSNK always raise their errors in phases 0–9, and are ignored in ERROR. Taking the error is
their whole effect. -/
def Obligations.AbortsRecordTheHostsFailure : Prop :=
  encode .abortsrc = 0x02000000 ∧ encode .abortsnk = 0x03000000 ∧
  ∀ s : State,
    (s.phase ≠ .error →
      exec .abortsrc s =
        .next { s with errPhase := s.phase, err := .sourceRead, errCmd := 0x02000000, phase := .error } ∧
      exec .abortsnk s =
        .next { s with errPhase := s.phase, err := .sinkWrite, errCmd := 0x03000000, phase := .error }) ∧
    (s.phase = .error → exec .abortsrc s = .next s ∧ exec .abortsnk s = .next s) ∧
    ErrCode.sourceRead.code = 1 ∧ ErrCode.sinkWrite.code = 2

/-- Rule R120: CNT b adds 1 to FREQ[b] and TOTAL and goes to COUNT; it raises SEQUENCE outside IDLE and COUNT, and FREQ_OVERFLOW at
2^32 − 1. Every other FREQ entry keeps its value. -/
def Obligations.CntCountsOneByte : Prop :=
  ∀ (s : State) (x : Byte),
    encode (.cnt x) = (0x10 : BitVec 8) ++ (0 : BitVec 16) ++ x ∧
    (s.phase ∈ [.idle, .count] → s.toBlock.freqAt x.toNat ≠ 0xFFFFFFFF →
      ∃ freq, exec (.cnt x) s = .next { s with freq := freq, total := s.total + 1, phase := .count } ∧
        freq.get 0 x.toNat = s.toBlock.freqAt x.toNat + 1 ∧ ∀ k, k ≠ x.toNat → freq.get 0 k = s.toBlock.freqAt k) ∧
    (s.phase ∉ [.idle, .count, .error] → exec (.cnt x) s = .next (s.raise .sequence (encode (.cnt x)))) ∧
    (s.phase ∈ [.idle, .count] → s.toBlock.freqAt x.toNat = 0xFFFFFFFF →
      exec (.cnt x) s = .next (s.raise .freqOverflow (encode (.cnt x))))

/-- Rule R130: BUILD makes the tree of FREQ, puts WALK at the root, clears SYMCNT and BITCNT, and goes to DEC from HDONE, to CBUILT
from IDLE and COUNT; it raises MALFORMED_CONTAINER in HLOAD and SEQUENCE in the other phases. -/
def Obligations.BuildMakesTheTree : Prop :=
  encode .build = 0x11000000 ∧
  ∀ s : State,
    (s.phase ∈ [.idle, .count, .hdone] →
      exec .build s = .next { s with
        tree := treeBuild s.freq
        walk := if (treeBuild s.freq).rootV then (treeBuild s.freq).root else 0
        symcnt := 0
        bitcnt := 0
        phase := if s.phase = .hdone then .dec else .cbuilt }) ∧
    (s.phase = .hload → exec .build s = .next (s.raise .malformedContainer 0x11000000)) ∧
    (s.phase ∈ [.cbuilt, .coded, .enc, .edone, .dec, .ddone] → exec .build s = .next (s.raise .sequence 0x11000000))

/-- Rules R150 and R155: ASSIGN writes the LUT of the tree, copies FREQ to REM, clears ACC and FILL and goes to CODED; it raises
SEQUENCE in every phase except CBUILT. Every LUT entry is the tree's code for its symbol. -/
def Obligations.AssignMakesTheLut : Prop :=
  encode .assign = 0x12000000 ∧
  ∀ s : State,
    (s.phase = .cbuilt →
      exec .assign s = .next { s with
        lut := codeLut s.tree
        rem := s.freq
        acc := 0
        fill := 0
        phase := .coded } ∧
      ∀ k < 256, (codeLut s.tree).get LutEntry.none k = assignedEntry s.tree k) ∧
    (s.phase ∉ [.cbuilt, .error] → exec .assign s = .next (s.raise .sequence 0x12000000))

/-- Rule R191: HDROUT emits the 1024 header bytes, FREQ as counted, and goes to ENC; it raises SEQUENCE outside CODED. -/
def Obligations.HdroutEmitsTheHeader : Prop :=
  encode .hdrout = 0x13000000 ∧
  ∀ s : State,
    (s.phase = .coded → s.outReady = true →
      ∃ bytes, exec .hdrout s = .next { s with phase := .enc, out := s.out ++ bytes } ∧ bytes.length = 1024 ∧
        ∀ i < 256, ∀ j < 4, bytes[4 * i + j]? = some ((s.toBlock.freqAt i).extractLsb' (24 - 8 * j) 8)) ∧
    (s.phase ∉ [.coded, .error] → exec .hdrout s = .next (s.raise .sequence 0x13000000))

/-- Rule R170: PackBit, for a bit that does not fill the byte and for one that does. -/
def Obligations.PackBitShiftsAndEmits : Prop :=
  ∀ (p : Packer) (x : Bool),
    (p.fill.toNat < 7 → (packBit p x).acc = ((p.acc <<< 1) ||| (if x then 1 else 0)) ∧
      (packBit p x).fill.toNat = p.fill.toNat + 1 ∧ (packBit p x).outs = p.outs) ∧
    (p.fill.toNat = 7 → (packBit p x).acc = 0 ∧ (packBit p x).fill = 0 ∧
      (packBit p x).outs = p.outs ++ [(p.acc <<< 1) ||| (if x then 1 else 0)])

/-- Rules R171 and R172: ENC b packs the LUT's code of b, c_0 first, takes 1 from REM[b], and adds 1 to SYMCNT and the code's length
to BITCNT; it raises SEQUENCE outside ENC, and SOURCE_MISMATCH, before any other effect, when REM[b] is 0. -/
def Obligations.EncPacksTheCode : Prop :=
  ∀ (s : State) (x : Byte) (p : Packer),
    encode (.enc x) = (0x14 : BitVec 8) ++ (0 : BitVec 16) ++ x ∧
    (s.phase = .enc → s.toBlock.remAt x.toNat ≠ 0 →
      p = packBits ⟨s.acc, s.fill, []⟩
        ((List.range (s.toBlock.lutAt x.toNat).len.toNat).map (s.toBlock.lutAt x.toNat).code.getLsbD) →
      (p.outs = [] ∨ s.outReady = true) →
      ∃ rem, exec (.enc x) s = .next { s with
          acc := p.acc
          fill := p.fill
          rem := rem
          symcnt := s.symcnt + 1
          bitcnt := s.bitcnt + (s.toBlock.lutAt x.toNat).len.setWidth 48
          out := s.out ++ p.outs } ∧
        rem.get 0 x.toNat = s.toBlock.remAt x.toNat - 1 ∧ ∀ k, k ≠ x.toNat → rem.get 0 k = s.toBlock.remAt k) ∧
    (s.phase ∉ [.enc, .error] → exec (.enc x) s = .next (s.raise .sequence (encode (.enc x)))) ∧
    (s.phase = .enc → s.toBlock.remAt x.toNat = 0 → exec (.enc x) s = .next (s.raise .sourceMismatch (encode (.enc x))))

/-- Rule R173: ENCEND emits the pending bits right-padded with zeros, if there are any, and goes to EDONE; it raises SEQUENCE
outside ENC, and SOURCE_MISMATCH when SYMCNT is not TOTAL. -/
def Obligations.EncendFlushesThePartialByte : Prop :=
  encode .encend = 0x15000000 ∧
  ∀ s : State,
    (s.phase = .enc → s.symcnt = s.total → s.fill = 0 → exec .encend s = .next { s with phase := .edone }) ∧
    (s.phase = .enc → s.symcnt = s.total → s.fill ≠ 0 → s.outReady = true →
      exec .encend s = .next { s with
        acc := 0
        fill := 0
        phase := .edone
        out := s.out ++ [s.acc <<< (8 - s.fill.toNat)] }) ∧
    (s.phase = .enc → s.symcnt ≠ s.total → exec .encend s = .next (s.raise .sourceMismatch 0x15000000)) ∧
    (s.phase ∉ [.enc, .error] → exec .encend s = .next (s.raise .sequence 0x15000000))

/-- Rules R192 and R193: HDRIN b writes byte HDRPOS[1:0] of FREQ[HDRPOS[10:2]] and adds 1 to HDRPOS; the 1024th byte sets TOTAL to
the exact sum of FREQ and goes to HDONE, any other goes to HLOAD; it raises SEQUENCE outside IDLE and HLOAD. -/
def Obligations.HdrinTakesOneHeaderByte : Prop :=
  ∀ (s : State) (x : Byte),
    encode (.hdrin x) = (0x20 : BitVec 8) ++ (0 : BitVec 16) ++ x ∧
    (s.phase ∈ [.idle, .hload] → s.hdrpos.toNat < 1024 →
      ∃ freq total phase,
        exec (.hdrin x) s =
          .next { s with freq := freq, hdrpos := s.hdrpos + 1, total := total, phase := phase } ∧
        (∀ i < 256, ∀ j < 4, (freq.get 0 i).extractLsb' (24 - 8 * j) 8 =
          if 4 * i + j = s.hdrpos.toNat then x else (s.toBlock.freqAt i).extractLsb' (24 - 8 * j) 8) ∧
        (s.hdrpos.toNat = 1023 → phase = .hdone ∧
          total.toNat = ((List.range 256).map fun i => (freq.get 0 i).toNat).sum) ∧
        (s.hdrpos.toNat ≠ 1023 → phase = .hload ∧ total = s.total)) ∧
    (s.phase ∉ [.idle, .hload, .error] → exec (.hdrin x) s = .next (s.raise .sequence (encode (.hdrin x))))

/-- Rules R210 and R213, and the loop body of rule R211: what one bit of a body byte does, in each of its four cases, and the order of
the bits. -/
def Obligations.DecodeTakesOneBitAtATime : Prop :=
  ∀ (b : Block) (l : Walker) (x : Bool),
    (l.symcnt = b.total → decBit b l x = if x then .error .malformedContainer else .ok l) ∧
    (l.symcnt ≠ b.total → b.tree.nleaf = 1 →
      decBit b l x = .ok { l with
        bitcnt := l.bitcnt + 1
        symcnt := l.symcnt + 1
        outs := l.outs ++ [b.tree.root.setWidth 8] }) ∧
    (l.symcnt ≠ b.total → b.tree.nleaf ≠ 1 → 256 ≤ l.walk.toNat → b.tree.has l.walk.toNat →
      ∀ child, child = (if x then (b.tree.nodeAt l.walk.toNat).right else (b.tree.nodeAt l.walk.toNat).left) →
        decBit b l x = .ok (
          if child.toNat < 256 then
            { walk := b.tree.root
              bitcnt := l.bitcnt + 1
              symcnt := l.symcnt + 1
              outs := l.outs ++ [child.setWidth 8] }
          else { l with walk := child, bitcnt := l.bitcnt + 1 })) ∧
    (l.symcnt ≠ b.total → b.tree.nleaf ≠ 1 → ¬ (256 ≤ l.walk.toNat ∧ b.tree.has l.walk.toNat) →
      decBit b l x = .error .decodeTraversal) ∧
    ∀ (y : Byte) (i : Fin 8), (bitsOfByte y)[i.val]? = some (y.getLsbD (7 - i.val))

/-- Rule R211: DEC b runs the bits of b, most significant first, from WALK, SYMCNT and BITCNT, then writes the three and emits what it
decoded; on any error nothing is written and nothing emitted. It raises SEQUENCE outside DEC, MALFORMED_CONTAINER for an excess byte,
and the first error of its bits. -/
def Obligations.DecDecodesOneByte : Prop :=
  ∀ (s : State) (x : Byte),
    encode (.dec x) = (0x21 : BitVec 8) ++ (0 : BitVec 16) ++ x ∧
    (s.phase = .dec → s.symcnt ≠ s.total →
      (∀ l, decBits s.toBlock ⟨s.walk, s.symcnt, s.bitcnt, []⟩ (bitsOfByte x) = .ok l →
        (l.outs = [] ∨ s.outReady = true) →
        exec (.dec x) s =
          .next { s with walk := l.walk, symcnt := l.symcnt, bitcnt := l.bitcnt, out := s.out ++ l.outs }) ∧
      (∀ c, decBits s.toBlock ⟨s.walk, s.symcnt, s.bitcnt, []⟩ (bitsOfByte x) = .error c →
        exec (.dec x) s = .next (s.raise c (encode (.dec x))))) ∧
    (s.phase = .dec → s.symcnt = s.total → exec (.dec x) s = .next (s.raise .malformedContainer (encode (.dec x)))) ∧
    (s.phase ∉ [.dec, .error] → exec (.dec x) s = .next (s.raise .sequence (encode (.dec x))))

/-- Rule R212: DECEND goes to DDONE when every symbol is decoded; it raises MALFORMED_CONTAINER in IDLE, in HLOAD, and in DEC with
symbols missing, and SEQUENCE in every other phase. -/
def Obligations.DecendChecksTheEnd : Prop :=
  encode .decend = 0x22000000 ∧
  ∀ s : State,
    (s.phase = .dec → s.symcnt = s.total → exec .decend s = .next { s with phase := .ddone }) ∧
    (s.phase = .dec → s.symcnt ≠ s.total → exec .decend s = .next (s.raise .malformedContainer 0x22000000)) ∧
    (s.phase ∈ [.idle, .hload] → exec .decend s = .next (s.raise .malformedContainer 0x22000000)) ∧
    (s.phase ∉ [.dec, .idle, .hload, .error] → exec .decend s = .next (s.raise .sequence 0x22000000))

/-! ## The frequency counter's property (41_frequency_counter.md) -/

/-- Rule R121: after a run of CNT over a byte sequence from IDLE with no error, FREQ[v] is the number of v's in it for every v, and
TOTAL is its length; a sequence with no count past 2^32 − 1 raises none, and the CNT that would go past it raises FREQ_OVERFLOW. In IDLE
FREQ and TOTAL are 0 (rules R21, R24). -/
def Obligations.CountingGivesTheHistogram : Prop :=
  ∀ (s : State) (bytes : List Byte), s.phase = .idle → (∀ v : Byte, s.toBlock.freqAt v.toNat = 0) → s.total = 0 →
    (∀ v : Byte, bytes.count v < 2 ^ 32) →
    ∃ t, runAll (bytes.map Instr.cnt) s = .next t ∧ t.phase ≠ .error ∧
      (∀ v : Byte, (t.toBlock.freqAt v.toNat).toNat = bytes.count v) ∧ t.total.toNat = bytes.length ∧ t.out = s.out ∧
      ((∀ v : Byte, t.toBlock.freqAt v.toNat = 0) ↔ bytes = []) ∧
      ∀ v : Byte, bytes.count v = 2 ^ 32 - 1 → exec (.cnt v) t = .next (t.raise .freqOverflow (encode (.cnt v)))

/-! ## The tree (42_tree_builder.md) -/

/-- Rule R133: PopMin removes the one node with the least key (WEIGHT, id), compared lexicographically, and returns it. -/
def Obligations.PopMinTakesTheLeastKey : Prop :=
  ∀ (arena : Table Node) (q : List Nat), q ≠ [] →
    ∃ n rest, popMin arena q = some (n, rest) ∧ n ∈ q ∧ rest = q.erase n ∧
      ∀ m ∈ q, m ≠ n →
        (arena.get Node.none n).weight < (arena.get Node.none m).weight ∨
        ((arena.get Node.none n).weight = (arena.get Node.none m).weight ∧ n < m)

/-- Rules R29, R40 item 4 and R139 items 1 and 3: TreeBuild makes one full binary tree rooted at ROOT, whose leaves are exactly the
symbols with nonzero FREQ. -/
def Obligations.TreeBuildMakesAFullTree : Prop := ∀ freq : Table (BitVec 32), (treeBuild freq).Full freq

/-- Rule R134: each internal node combines the two least nodes of Q, the least as LEFT and the next as RIGHT, and weighs exactly their
sum, so every other node in Q when it is made comes after both; the internal nodes are the ids from 256 up, made in order and one fewer
than the symbols that occur, and NINT counts them. Beside it: a leaf weighs its symbol's count and has no children, the root weighs
TOTAL, NLEAF counts the symbols, and an entry that is not allocated is all zero (rules R30, R131, R132, R136, R139 items 2 and 4). -/
def Obligations.TreeWeightsAndCountsAreExact : Prop :=
  ∀ freq : Table (BitVec 32),
    let t := treeBuild freq
    (∀ k < 256, freq.get 0 k ≠ 0 →
      (t.nodeAt k).weight.toNat = (freq.get 0 k).toNat ∧ (t.nodeAt k).left = 0 ∧ (t.nodeAt k).right = 0) ∧
    (∀ n, 256 ≤ n → t.has n →
      let a := (t.nodeAt n).left.toNat
      let b := (t.nodeAt n).right.toNat
      (t.nodeAt n).weight.toNat = (t.nodeAt a).weight.toNat + (t.nodeAt b).weight.toNat ∧
      t.inQ n a ∧ t.inQ n b ∧ t.keyLt a b ∧ ∀ m, t.inQ n m → m ≠ a → m ≠ b → t.keyLt b m) ∧
    (t.rootV = true → (t.nodeAt t.root.toNat).weight.toNat = freqSum freq) ∧
    t.nleaf.toNat = leafCount freq ∧ t.nint.toNat = leafCount freq - 1 ∧
    (∀ n, 256 ≤ n → (t.has n ↔ n < 256 + t.nint.toNat)) ∧
    ∀ n, ¬ t.has n → t.nodeAt n = Node.none

/-- Rule R137: with no symbol there is no node, no internal node and no root; with exactly one, ROOT is that symbol's leaf and there
is no internal node. -/
def Obligations.DegenerateAlphabetsHaveNoInternalNode : Prop :=
  ∀ freq : Table (BitVec 32),
    (leafCount freq = 0 → (∀ n, ¬ (treeBuild freq).has n) ∧ (treeBuild freq).nint = 0 ∧ (treeBuild freq).root = 0 ∧
      (treeBuild freq).rootV = false) ∧
    (∀ k < 256, freq.get 0 k ≠ 0 → leafCount freq = 1 → (∀ n, (treeBuild freq).has n ↔ n = k) ∧
      (treeBuild freq).nint = 0 ∧ (treeBuild freq).root.toNat = k ∧ (treeBuild freq).rootV = true)

/-- Rule R138: BUILD makes the same tree, node for node, from the same FREQ, in any two phases it is legal in (the compress path and the
decompress path, either twice or one of each), whatever tree, LUT, counters or OUT the two states hold. -/
def Obligations.BothPathsBuildTheSameTree : Prop :=
  ∀ s1 s2 t1 t2 : State, (∀ k < 256, s1.toBlock.freqAt k = s2.toBlock.freqAt k) →
    exec .build s1 = .next t1 → exec .build s2 = .next t2 →
    s1.phase ∈ [.idle, .count, .hdone] → s2.phase ∈ [.idle, .count, .hdone] → t1.tree = t2.tree ∧ t1.walk = t2.walk

/-! ## The codes (43_code_assigner.md) -/

/-- Rule R151 with R31 and R40 item 5: in a tree with an internal root, the code of every symbol that occurs leads from ROOT, 0 to LEFT
and 1 to RIGHT, to that symbol's leaf, leaving internal nodes only; and a symbol has a code exactly when it occurs. -/
def Obligations.CodesAreRootToLeafPaths : Prop :=
  ∀ (freq : Table (BitVec 32)) (k : Nat), k < 256 → 2 ≤ leafCount freq →
    let e := (codeLut (treeBuild freq)).get LutEntry.none k
    (e.valid = true ↔ freq.get 0 k ≠ 0) ∧
    (e.valid = true → follow (treeBuild freq) (treeBuild freq).root.toNat e.bits = k ∧
      ∀ p q, e.bits = p ++ q → q ≠ [] → 256 ≤ follow (treeBuild freq) (treeBuild freq).root.toNat p)

/-- Rules R31 and R153: a symbol with a code has a length from 1 to 255, one without has length 0, and the code bits at and past the
length are 0. -/
def Obligations.CodeLengthsAreBounded : Prop :=
  ∀ (freq : Table (BitVec 32)) (k : Nat), k < 256 →
    let e := (codeLut (treeBuild freq)).get LutEntry.none k
    (e.valid = true → 1 ≤ e.len.toNat ∧ e.len.toNat ≤ 255) ∧ (e.valid = false → e.len = 0) ∧
    ∀ i, e.len.toNat ≤ i → e.code.getLsbD i = false

/-- Rule R152: the only symbol that occurs gets the 1-bit code "0", and no other symbol has a code. -/
def Obligations.SingleSymbolGetsTheCodeZero : Prop :=
  ∀ (freq : Table (BitVec 32)) (k j : Nat), k < 256 → j < 256 → freq.get 0 k ≠ 0 → leafCount freq = 1 →
    let e := (codeLut (treeBuild freq)).get LutEntry.none j
    if j = k then e.valid = true ∧ e.len = 1 ∧ e.code.getLsbD 0 = false else e.valid = false

/-- Rule R154, first part: no symbol's code is a first part of another's. -/
def Obligations.CodesArePrefixFree : Prop :=
  ∀ (freq : Table (BitVec 32)) (j k : Nat), j < 256 → k < 256 → j ≠ k →
    ((codeLut (treeBuild freq)).get LutEntry.none j).valid = true →
    ((codeLut (treeBuild freq)).get LutEntry.none k).valid = true →
    ¬ isFirstPart ((codeLut (treeBuild freq)).get LutEntry.none j).bits ((codeLut (treeBuild freq)).get LutEntry.none k).bits

/-- Rule R154, second part: in a tree with an internal root the codes satisfy Σ 2^(−LEN) = 1, here times 2^255. -/
def Obligations.CodeLengthsFillTheTree : Prop :=
  ∀ freq : Table (BitVec 32), 2 ≤ leafCount freq →
    ((List.range 256).map fun k =>
      if ((codeLut (treeBuild freq)).get LutEntry.none k).valid then
        2 ^ (255 - ((codeLut (treeBuild freq)).get LutEntry.none k).len.toNat) else 0).sum = 2 ^ 255

/-! ## The packer (44_bit_packer.md) -/

/-- Rules R32 and R170: whatever ENC packs, the bits of the bytes it emits, then the bits left waiting in ACC, are the bits that were
waiting and the bits packed, in order; and 8·bytes + FILL counts them. -/
def Obligations.PackingLosesNoBit : Prop :=
  ∀ (acc : BitVec 8) (fill : BitVec 3) (bits : List Bool),
    let p := packBits ⟨acc, fill, []⟩ bits
    unpackBytes p.outs ++ pendingBits p.acc p.fill = pendingBits acc fill ++ bits ∧
    p.outs.length = (fill.toNat + bits.length) / 8 ∧ p.fill.toNat = (fill.toNat + bits.length) % 8

/-- Rule R174 items 2 and 3: unpacking the packed bytes gives the bits and zeros up to a multiple of 8, in ⌈|bits|/8⌉ bytes. -/
def Obligations.UnpackOfPackAddsOnlyPadding : Prop :=
  ∀ bits : List Bool,
    unpackBytes (packAll bits) = bits ++ List.replicate ((8 - bits.length % 8) % 8) false ∧
    (packAll bits).length = (bits.length + 7) / 8

/-! ## The container and the decoder (45_container.md, 46_decoder.md) -/

/-- Rules R191 to R193: the 1024 bytes that HDROUT emits for a table, sent with HDRIN after INIT, give the same table back, with TOTAL
its sum, in HDONE. -/
def Obligations.HeaderReadsBack : Prop :=
  ∀ (s : State) (freq : Table (BitVec 32)), freq.wf 256 0 →
    ∃ t, runAll (.init :: (headerBytes freq).map Instr.hdrin) s = .next t ∧ t.phase = .hdone ∧ t.freq = freq ∧
      t.total.toNat = freqSum freq ∧ t.hdrpos = 1024 ∧ t.out = s.out

/-- Rule R213: with one leaf, k bits before the last symbol decode to k copies of ROOT's symbol, whatever they are, and WALK does not
move. -/
def Obligations.SingleLeafDecodesEveryBit : Prop :=
  ∀ (b : Block) (l : Walker) (bits : List Bool), b.tree.nleaf = 1 → l.symcnt.toNat + bits.length ≤ b.total.toNat →
    l.bitcnt.toNat + bits.length < 2 ^ 48 →
    ∃ l', decBits b l bits = .ok l' ∧ l'.walk = l.walk ∧ l'.symcnt.toNat = l.symcnt.toNat + bits.length ∧
      l'.bitcnt.toNat = l.bitcnt.toNat + bits.length ∧
      l'.outs = l.outs ++ List.replicate bits.length (b.tree.root.setWidth 8)

/-- Rule R214: once the last symbol is decoded the rest of the byte is padding: it is accepted exactly when every bit of it is 0, and
decodes to nothing. -/
def Obligations.PaddingIsAcceptedOnlyWhenZero : Prop :=
  ∀ (b : Block) (l : Walker) (bits : List Bool), l.symcnt = b.total →
    decBits b l bits = if bits.all (· = false) then .ok l else .error .malformedContainer

/-- Rule R215: DECODE_TRAVERSAL cannot happen: in a state of the machine (rule R40) no command raises it. -/
def Obligations.DecodeTraversalCannotHappen : Prop :=
  ∀ (s t : State) (w : Word), s.toBlock.Inv → executeWord w s = .next t → s.phase ≠ .error → t.err ≠ .decodeTraversal

/-- The decoder undoes the codes (rules R151, R152, R211, R213): walking the codes of a sequence of symbols that occur, from the root,
decodes exactly those symbols, as long as TOTAL leaves room for them. -/
def Obligations.DecodingTheCodesGivesTheSymbols : Prop :=
  ∀ (b : Block) (l : Walker) (symbols : List Byte), b.tree = treeBuild b.freq → l.walk = b.tree.root →
    (∀ x ∈ symbols, b.freqAt x.toNat ≠ 0) → l.symcnt.toNat + symbols.length ≤ b.total.toNat →
    ∃ l', decBits b l (symbols.flatMap fun x => ((codeLut b.tree).get LutEntry.none x.toNat).bits) = .ok l' ∧
      l'.walk = b.tree.root ∧ l'.symcnt.toNat = l.symcnt.toNat + symbols.length ∧ l'.outs = l.outs ++ symbols

/-- Rule R216, with rules R174 and R190: for every source whose counts fit 32 bits, the commands of COMPRESS raise no error, in
EDONE, and emit a container; those of DECOMPRESS on that container raise no error, in DDONE, and emit exactly the source. -/
def Obligations.DecompressUndoesCompress : Prop :=
  ∀ (s : State) (source : List Byte), s.outReady = true → (∀ v : Byte, source.count v < 2 ^ 32) →
    ∃ t container u, runAll (compressCommands source) s = .next t ∧ t.phase = .edone ∧ t.out = s.out ++ container ∧
      runAll (decompressCommands container) t = .next u ∧ u.phase = .ddone ∧ u.out = t.out ++ source

/-! ## The invariant (rule R40) -/

/-- The reset state meets the invariant of rule R40, and no command waits in it. -/
def Obligations.ResetMeetsTheInvariant : Prop := State.reset.Inv

/-- Rule R40: every step keeps the invariant, whatever the host does; and a command that waits for its next byte to be taken is one that has
bytes left, outside ERROR, with a host that does not take them by itself (rule R267, as assumption 4 takes it). -/
def Obligations.EveryStepKeepsTheInvariant : Prop :=
  ∀ s t : State, s.Inv → step s = .next t → t.Inv

/-- Rule R40: its eight items, as the rule words them, hold after every step from a state that meets the invariant. -/
def Obligations.EightInvariantsHoldAfterEveryStep : Prop :=
  ∀ s t : State, s.toBlock.Inv → step s = .next t →
    (t.phase.code.toNat ≤ 9 ∨ t.phase.code.toNat = 15) ∧
    (t.phase = .idle →
      (∀ k, t.toBlock.freqAt k = 0 ∧ t.toBlock.remAt k = 0 ∧ t.toBlock.lutAt k = LutEntry.none ∧
        t.tree.nodeAt k = Node.none) ∧ t.hdrpos = 0) ∧
    (t.phase ≠ .hload → (t.phase = .error → t.errPhase ≠ .hload) →
      t.total.toNat = ((List.range 256).map fun k => (t.toBlock.freqAt k).toNat).sum) ∧
    (t.tree.rootV = true → t.tree.Full t.freq) ∧
    (t.phase ∈ [.coded, .enc, .edone] → ∀ k < 256, (t.toBlock.lutAt k).valid = true ↔ t.toBlock.freqAt k ≠ 0) ∧
    (t.phase = .enc →
      ((List.range 256).map fun k => (t.toBlock.remAt k).toNat).sum + t.symcnt.toNat = t.total.toNat ∧
      ∀ k, t.toBlock.remAt k ≤ t.toBlock.freqAt k) ∧
    (t.fill.toNat ≤ 7 ∧ t.acc.toNat < 2 ^ t.fill.toNat) ∧
    (t.phase = .dec → t.symcnt = t.total → t.walk = t.tree.root)
end

