-- ==== Sys2Proof/Laws/State.lean ====
section
/-! SUPPORT. What each named update of the state leaves in each part of it, so that no proof unfolds a record update. -/

namespace Sys2Proof.Machine

/-! ## Error entry (rule R233) -/

@[simp] theorem State.raise_phase (c : ErrCode) (w : Word) (s : State) : (s.raise c w).phase = .error := rfl
@[simp] theorem State.raise_err (c : ErrCode) (w : Word) (s : State) : (s.raise c w).err = c := rfl
@[simp] theorem State.raise_errPhase (c : ErrCode) (w : Word) (s : State) : (s.raise c w).errPhase = s.phase := rfl
@[simp] theorem State.raise_errCmd (c : ErrCode) (w : Word) (s : State) : (s.raise c w).errCmd = w := rfl
@[simp] theorem State.raise_freq (c : ErrCode) (w : Word) (s : State) : (s.raise c w).freq = s.freq := rfl
@[simp] theorem State.raise_total (c : ErrCode) (w : Word) (s : State) : (s.raise c w).total = s.total := rfl
@[simp] theorem State.raise_rem (c : ErrCode) (w : Word) (s : State) : (s.raise c w).rem = s.rem := rfl
@[simp] theorem State.raise_tree (c : ErrCode) (w : Word) (s : State) : (s.raise c w).tree = s.tree := rfl
@[simp] theorem State.raise_lut (c : ErrCode) (w : Word) (s : State) : (s.raise c w).lut = s.lut := rfl
@[simp] theorem State.raise_acc (c : ErrCode) (w : Word) (s : State) : (s.raise c w).acc = s.acc := rfl
@[simp] theorem State.raise_fill (c : ErrCode) (w : Word) (s : State) : (s.raise c w).fill = s.fill := rfl
@[simp] theorem State.raise_symcnt (c : ErrCode) (w : Word) (s : State) : (s.raise c w).symcnt = s.symcnt := rfl
@[simp] theorem State.raise_bitcnt (c : ErrCode) (w : Word) (s : State) : (s.raise c w).bitcnt = s.bitcnt := rfl
@[simp] theorem State.raise_hdrpos (c : ErrCode) (w : Word) (s : State) : (s.raise c w).hdrpos = s.hdrpos := rfl
@[simp] theorem State.raise_walk (c : ErrCode) (w : Word) (s : State) : (s.raise c w).walk = s.walk := rfl
@[simp] theorem State.raise_inputs (c : ErrCode) (w : Word) (s : State) : (s.raise c w).inputs = s.inputs := rfl
@[simp] theorem State.raise_busy (c : ErrCode) (w : Word) (s : State) : (s.raise c w).busy = s.busy := rfl
@[simp] theorem State.raise_out (c : ErrCode) (w : Word) (s : State) : (s.raise c w).out = s.out := rfl
@[simp] theorem State.raise_readData (c : ErrCode) (w : Word) (s : State) : (s.raise c w).readData = s.readData := rfl
@[simp] theorem State.raise_outReady (c : ErrCode) (w : Word) (s : State) : (s.raise c w).outReady = s.outReady := rfl
@[simp] theorem State.raise_draws (c : ErrCode) (w : Word) (s : State) : (s.raise c w).draws = s.draws := rfl

/-! ## Reset (rules R260, R262) and the read port (rule R61) -/

@[simp] theorem hostReset_toBlock (s : State) : (hostReset s).toBlock = Block.reset := rfl
@[simp] theorem hostReset_inputs (s : State) : (hostReset s).inputs = s.inputs := rfl
@[simp] theorem hostReset_busy (s : State) : (hostReset s).busy = s.busy := rfl
@[simp] theorem hostReset_out (s : State) : (hostReset s).out = s.out := rfl
@[simp] theorem hostReset_readData (s : State) : (hostReset s).readData = s.readData := rfl
@[simp] theorem hostReset_outReady (s : State) : (hostReset s).outReady = s.outReady := rfl
@[simp] theorem hostReset_draws (s : State) : (hostReset s).draws = s.draws := rfl
@[simp] theorem abandon_toBlock (r : Running) (s : State) : (abandon r s).toBlock = Block.reset := rfl
@[simp] theorem abandon_busy (r : Running) (s : State) : (abandon r s).busy = none := rfl
@[simp] theorem abandon_inputs (r : Running) (s : State) : (abandon r s).inputs = s.inputs := rfl
@[simp] theorem abandon_readData (r : Running) (s : State) : (abandon r s).readData = s.readData := rfl
@[simp] theorem abandon_outReady (r : Running) (s : State) : (abandon r s).outReady = s.outReady := rfl
@[simp] theorem abandon_draws (r : Running) (s : State) : (abandon r s).draws = s.draws + 1 := rfl
@[simp] theorem abandon_out (r : Running) (s : State) :
    (abandon r s).out = s.out ++ (bytesLeft r s).take (Config.resetDraw s.draws) := rfl
@[simp] theorem readPort_toBlock (a : BitVec 14) (s : State) : (readPort a s).toBlock = s.toBlock := rfl
@[simp] theorem readPort_inputs (a : BitVec 14) (s : State) : (readPort a s).inputs = s.inputs := rfl
@[simp] theorem readPort_busy (a : BitVec 14) (s : State) : (readPort a s).busy = s.busy := rfl
@[simp] theorem readPort_out (a : BitVec 14) (s : State) : (readPort a s).out = s.out := rfl
@[simp] theorem readPort_outReady (a : BitVec 14) (s : State) : (readPort a s).outReady = s.outReady := rfl
@[simp] theorem readPort_draws (a : BitVec 14) (s : State) : (readPort a s).draws = s.draws := rfl
@[simp] theorem sendFirst_toBlock (w : Word) (s : State) : (sendFirst w s).toBlock = s.toBlock := rfl
@[simp] theorem sendFirst_busy (w : Word) (s : State) : (sendFirst w s).busy = none := rfl
@[simp] theorem sendFirst_out (w : Word) (s : State) : (sendFirst w s).out = s.out := rfl

/-! ## The end of a running command (rules R66, R267) -/

@[simp] theorem finish_toBlock (r : Running) (s : State) : (finish r s).toBlock = afterWord r.word s.toBlock := rfl
@[simp] theorem finish_busy (r : Running) (s : State) : (finish r s).busy = none := rfl
@[simp] theorem finish_inputs (r : Running) (s : State) : (finish r s).inputs = s.inputs := rfl
@[simp] theorem finish_out (r : Running) (s : State) : (finish r s).out = s.out ++ bytesLeft r s := rfl
@[simp] theorem finish_readData (r : Running) (s : State) : (finish r s).readData = s.readData := rfl
@[simp] theorem finish_outReady (r : Running) (s : State) : (finish r s).outReady = s.outReady := rfl
@[simp] theorem finish_draws (r : Running) (s : State) : (finish r s).draws = s.draws := rfl

/-! ## Reset values (rule R44) -/

@[simp] theorem Block.reset_phase : Block.reset.phase = .idle := rfl
@[simp] theorem Block.reset_freq : Block.reset.freq = Table.empty := rfl
@[simp] theorem Block.reset_rem : Block.reset.rem = Table.empty := rfl
@[simp] theorem Block.reset_tree : Block.reset.tree = Tree.none := rfl
@[simp] theorem Block.reset_lut : Block.reset.lut = Table.empty := rfl
@[simp] theorem Block.reset_total : Block.reset.total = 0 := rfl
@[simp] theorem Block.reset_acc : Block.reset.acc = 0 := rfl
@[simp] theorem Block.reset_fill : Block.reset.fill = 0 := rfl
@[simp] theorem Block.reset_symcnt : Block.reset.symcnt = 0 := rfl
@[simp] theorem Block.reset_bitcnt : Block.reset.bitcnt = 0 := rfl
@[simp] theorem Block.reset_hdrpos : Block.reset.hdrpos = 0 := rfl
@[simp] theorem Block.reset_walk : Block.reset.walk = 0 := rfl
@[simp] theorem Block.reset_err : Block.reset.err = .none := rfl
@[simp] theorem Block.reset_errPhase : Block.reset.errPhase = .idle := rfl
@[simp] theorem Block.reset_errCmd : Block.reset.errCmd = 0 := rfl

end Sys2Proof.Machine
end

