-- ==== Sys2Proof/Laws/Table.lean ====
section
/-! SUPPORT. The laws of the entry arrays: a read after a write, the canonical form kept by every operation, and equality of
canonical arrays that read the same. -/

namespace Sys2Proof.Machine

variable {α : Type}

@[simp] theorem Table.get_empty (z : α) (k : Nat) : (Table.empty : Table α).get z k = z := rfl

theorem lookupEntry_insertEntry (z : α) (k : Nat) (v : α) (j : Nat) (es : List (Nat × α))
    (h : ∀ e ∈ es, e.1 ≠ k) :
    lookupEntry z j (insertEntry k v es) = if j = k then v else lookupEntry z j es := by
  induction es with
  | nil => simp [insertEntry, lookupEntry, eq_comm]
  | cons e es ih =>
    obtain ⟨i, u⟩ := e
    have hi : i ≠ k := h (i, u) (by simp)
    have ih := ih (fun e he => h e (by simp [he]))
    simp only [insertEntry]
    split
    · by_cases hj : j = k
      · simp [lookupEntry, hj]
      · simp [lookupEntry, hj, Ne.symm hj]
    · simp only [lookupEntry, ih]
      by_cases hj : j = k
      · subst hj; simp [hi]
      · simp [hj]

theorem lookupEntry_filter_ne (z : α) (k j : Nat) (es : List (Nat × α)) :
    lookupEntry z j (es.filter (fun e => e.1 ≠ k)) = if j = k then z else lookupEntry z j es := by
  induction es with
  | nil => simp [lookupEntry]
  | cons e es ih =>
    obtain ⟨i, u⟩ := e
    by_cases hi : i = k
    · subst hi
      simp only [ne_eq, decide_not, List.filter_cons, decide_true, Bool.not_true, Bool.false_eq_true, if_false]
      simp only [ne_eq, decide_not] at ih
      rw [ih]
      by_cases hj : j = i
      · simp [hj]
      · simp [lookupEntry, hj, Ne.symm hj]
    · simp only [ne_eq, decide_not, List.filter_cons, hi, decide_false, Bool.not_false, if_true, lookupEntry]
      simp only [ne_eq, decide_not] at ih
      rw [ih]
      by_cases hj : j = k
      · subst hj; simp [hi]
      · simp [hj]

/-- A read after a write to an entry that exists. -/
theorem Table.get_set [DecidableEq α] {size : Nat} {z : α} (t : Table α) {k : Nat} (hk : k < size) (v : α) (j : Nat) :
    (t.set size z k v).get z j = if j = k then v else t.get z j := by
  simp only [Table.set, if_pos hk, Table.get]
  split
  · rename_i hv; rw [lookupEntry_filter_ne, hv]
  · rw [lookupEntry_insertEntry]
    · rw [lookupEntry_filter_ne]; split <;> rfl
    · intro e he; simpa using (List.mem_filter.1 he).2

theorem Table.get_set_same [DecidableEq α] {size : Nat} {z : α} (t : Table α) {k : Nat} (hk : k < size) (v : α) :
    (t.set size z k v).get z k = v := by rw [Table.get_set t hk, if_pos rfl]

/-- A write leaves every other entry alone, wherever it goes. -/
theorem Table.get_set_ne [DecidableEq α] {size : Nat} {z : α} (t : Table α) {k j : Nat} (h : j ≠ k) (v : α) :
    (t.set size z k v).get z j = t.get z j := by
  by_cases hk : k < size
  · rw [Table.get_set t hk, if_neg h]
  · simp [Table.set, hk]

/-- A write at or above the size changes nothing. -/
theorem Table.set_of_size_le [DecidableEq α] {size : Nat} {z : α} (t : Table α) {k : Nat} (h : size ≤ k) (v : α) :
    t.set size z k v = t := by simp [Table.set, Nat.not_lt.2 h]

theorem mem_insertEntry {k : Nat} {v : α} {es : List (Nat × α)} {e : Nat × α} (h : e ∈ insertEntry k v es) :
    e = (k, v) ∨ e ∈ es := by
  induction es with
  | nil => simpa [insertEntry] using h
  | cons a es ih =>
    obtain ⟨i, u⟩ := a
    simp only [insertEntry] at h
    split at h
    · simpa using h
    · rcases List.mem_cons.1 h with h | h
      · exact .inr (by simp [h])
      · rcases ih h with h | h
        · exact .inl h
        · exact .inr (by simp [h])

theorem pairwise_insertEntry {k : Nat} {v : α} {es : List (Nat × α)}
    (hs : es.Pairwise (fun a b => a.1 < b.1)) (hk : ∀ e ∈ es, e.1 ≠ k) :
    (insertEntry k v es).Pairwise (fun a b => a.1 < b.1) := by
  induction es with
  | nil => simp [insertEntry]
  | cons a es ih =>
    obtain ⟨i, u⟩ := a
    obtain ⟨h1, h2⟩ := List.pairwise_cons.1 hs
    simp only [insertEntry]
    have hi : i ≠ k := hk (i, u) (by simp)
    split
    · rename_i hlt
      refine List.pairwise_cons.2 ⟨?_, hs⟩
      intro e he
      rcases List.mem_cons.1 he with he | he
      · subst he; exact hlt
      · exact Nat.lt_trans hlt (h1 e he)
    · refine List.pairwise_cons.2 ⟨?_, ih h2 (fun e he => hk e (by simp [he]))⟩
      intro e he
      rcases mem_insertEntry he with he | he
      · subst he; simp; omega
      · exact h1 e he

/-- A write keeps the canonical form. -/
theorem Table.wf_set [DecidableEq α] {size : Nat} {z : α} {t : Table α} (h : t.wf size z) (k : Nat) (v : α) :
    (t.set size z k v).wf size z := by
  by_cases hk : k < size
  · simp only [Table.wf, Table.set, if_pos hk]
    obtain ⟨hs, he⟩ := h
    have hs' := hs.filter (fun e => decide (e.1 ≠ k))
    by_cases hv : v = z
    · simp only [if_pos hv]
      exact ⟨hs', fun e hm => he e (List.mem_filter.1 hm).1⟩
    · simp only [if_neg hv]
      refine ⟨pairwise_insertEntry hs' ?_, ?_⟩
      · intro e hm; simpa using (List.mem_filter.1 hm).2
      · intro e hm
        rcases mem_insertEntry hm with h | h
        · subst h; exact ⟨hk, hv⟩
        · exact he e (List.mem_filter.1 h).1
  · rw [Table.set_of_size_le t (Nat.not_lt.1 hk)]; exact h

theorem Table.wf_empty [DecidableEq α] (size : Nat) (z : α) : (Table.empty : Table α).wf size z := by
  simp [Table.wf, Table.empty]

theorem lookupEntry_of_not_mem {z : α} {k : Nat} {es : List (Nat × α)} (h : ∀ e ∈ es, e.1 ≠ k) :
    lookupEntry z k es = z := by
  induction es with
  | nil => rfl
  | cons a es ih =>
    have : a.1 ≠ k := h a (by simp)
    simp [lookupEntry, this, ih (fun e he => h e (by simp [he]))]

/-- In a canonical array an entry that is not listed reads as the reset value, so entries at or above the size do. -/
theorem Table.get_of_size_le [DecidableEq α] {size : Nat} {z : α} {t : Table α} (h : t.wf size z) {k : Nat}
    (hk : size ≤ k) : t.get z k = z :=
  lookupEntry_of_not_mem fun e he => by have := (h.2 e he).1; omega

theorem lookupEntry_filterMap_range [DecidableEq α] (z : α) (f : Nat → α) (k a n : Nat) :
    lookupEntry z k ((List.range' a n).filterMap fun i => if f i = z then none else some (i, f i)) =
      if a ≤ k ∧ k < a + n then f k else z := by
  induction n generalizing a with
  | zero => simp [lookupEntry]
  | succ n ih =>
    rw [List.range'_succ, List.filterMap_cons]
    have hrest := ih (a + 1)
    by_cases hz : f a = z
    · simp only [hz, if_true, hrest]
      by_cases hk : k = a
      · subst hk; simp [hz]
      · have : (a + 1 ≤ k ∧ k < a + 1 + n) ↔ (a ≤ k ∧ k < a + (n + 1)) := by omega
        exact if_congr this rfl rfl
    · simp only [hz, if_false, lookupEntry, hrest]
      by_cases hk : a = k
      · subst hk; simp
      · have : (a + 1 ≤ k ∧ k < a + 1 + n) ↔ (a ≤ k ∧ k < a + (n + 1)) := by omega
        rw [if_neg hk]; exact if_congr this rfl rfl

/-- Reading the array that a function gives. -/
theorem Table.get_ofFn [DecidableEq α] (size : Nat) (z : α) (f : Nat → α) (k : Nat) :
    (Table.ofFn size z f).get z k = if k < size then f k else z := by
  have := lookupEntry_filterMap_range z f k 0 size
  simpa [Table.get, Table.ofFn, List.range_eq_range'] using this

theorem Table.wf_ofFn [DecidableEq α] (size : Nat) (z : α) (f : Nat → α) : (Table.ofFn size z f).wf size z := by
  constructor
  · simp only [Table.ofFn]
    rw [List.pairwise_filterMap]
    refine List.Pairwise.imp ?_ List.pairwise_lt_range
    intro a b hab x hx y hy
    split at hx <;> simp at hx
    split at hy <;> simp at hy
    subst hx; subst hy; exact hab
  · intro e he
    simp only [Table.ofFn, List.mem_filterMap, List.mem_range] at he
    obtain ⟨k, hk, hf⟩ := he
    split at hf <;> simp at hf
    subst hf
    exact ⟨hk, by assumption⟩

theorem lookupEntry_cons_lt {z : α} {k : Nat} {e : Nat × α} {es : List (Nat × α)}
    (hs : (e :: es).Pairwise (fun a b => a.1 < b.1)) (hk : k < e.1) : lookupEntry z k (e :: es) = z := by
  refine lookupEntry_of_not_mem fun a ha => ?_
  rcases List.mem_cons.1 ha with h | h
  · subst h; omega
  · have := (List.pairwise_cons.1 hs).1 a h; omega

theorem entries_ext [DecidableEq α] {z : α} {es fs : List (Nat × α)}
    (hs : es.Pairwise (fun a b => a.1 < b.1)) (hz : ∀ e ∈ es, e.2 ≠ z)
    (gs : fs.Pairwise (fun a b => a.1 < b.1)) (gz : ∀ e ∈ fs, e.2 ≠ z)
    (h : ∀ k, lookupEntry z k es = lookupEntry z k fs) : es = fs := by
  induction es generalizing fs with
  | nil =>
    cases fs with
    | nil => rfl
    | cons f fs =>
      have := h f.1
      simp only [lookupEntry, if_true] at this
      exact absurd this.symm (gz f (by simp))
  | cons e es ih =>
    cases fs with
    | nil =>
      have := h e.1
      simp only [lookupEntry, if_true] at this
      exact absurd this (hz e (by simp))
    | cons f fs =>
      have he := h e.1
      have hf := h f.1
      rcases Nat.lt_trichotomy e.1 f.1 with hlt | heq | hlt
      · rw [lookupEntry_cons_lt gs hlt] at he
        simp only [lookupEntry, if_true] at he
        exact absurd he (hz e (by simp))
      · have hv : e.2 = f.2 := by simpa [lookupEntry, heq] using he
        have hef : e = f := Prod.ext heq hv
        subst hef
        have h1 := List.pairwise_cons.1 hs
        have h2 := List.pairwise_cons.1 gs
        refine congrArg _ (ih h1.2 (fun a ha => hz a (by simp [ha])) h2.2 (fun a ha => gz a (by simp [ha])) ?_)
        intro k
        have hk := h k
        simp only [lookupEntry] at hk
        by_cases hek : e.1 = k
        · rw [lookupEntry_of_not_mem (fun a ha => by have := h1.1 a ha; omega),
            lookupEntry_of_not_mem (fun a ha => by have := h2.1 a ha; omega)]
        · simpa [hek] using hk
      · rw [lookupEntry_cons_lt hs hlt] at hf
        simp only [lookupEntry, if_true] at hf
        exact absurd hf.symm (gz f (by simp))

/-- Two canonical arrays that read the same are equal. -/
theorem Table.ext_get [DecidableEq α] {size : Nat} {z : α} {t u : Table α} (ht : t.wf size z) (hu : u.wf size z)
    (h : ∀ k < size, t.get z k = u.get z k) : t = u := by
  have hall : ∀ k, lookupEntry z k t.entries = lookupEntry z k u.entries := by
    intro k
    by_cases hk : k < size
    · exact h k hk
    · have h1 := Table.get_of_size_le ht (Nat.not_lt.1 hk)
      have h2 := Table.get_of_size_le hu (Nat.not_lt.1 hk)
      exact h1.trans h2.symm
  cases t; cases u
  exact congrArg Table.mk (entries_ext ht.1 (fun e he => (ht.2 e he).2) hu.1 (fun e he => (hu.2 e he).2) hall)

end Sys2Proof.Machine
end

