-- ==== Sys2Proof/Laws/Ops.lean ====
section
/-! SUPPORT. What the shared operations can do: the phase check, the dispatch, completion, and the sum of a table. Each is
said once; the lemmas about commands cite these. -/

namespace Sys2Proof.Machine

/-! ## The phase check (rule R21) -/

theorem requirePhase_legal {legal : List Phase} {e : Phase → ErrCode} {b : Block} {rest : Effect} (h : b.phase ∈ legal) :
    requirePhase legal e b rest = rest := if_pos h

theorem requirePhase_illegal {legal : List Phase} {e : Phase → ErrCode} {b : Block} {rest : Effect}
    (h : b.phase ∉ legal) : requirePhase legal e b rest = .error (e b.phase) := if_neg h

theorem requirePhase_eq_ok {legal : List Phase} {e : Phase → ErrCode} {b : Block} {rest : Effect} {r : Block × List Byte} :
    requirePhase legal e b rest = .ok r ↔ b.phase ∈ legal ∧ rest = .ok r := by
  by_cases h : b.phase ∈ legal
  · simp [requirePhase_legal h, h]
  · simp [requirePhase_illegal h, h]

theorem requirePhase_eq_error {legal : List Phase} {e : Phase → ErrCode} {b : Block} {rest : Effect} {c : ErrCode} :
    requirePhase legal e b rest = .error c ↔
      (b.phase ∉ legal ∧ e b.phase = c) ∨ (b.phase ∈ legal ∧ rest = .error c) := by
  by_cases h : b.phase ∈ legal
  · simp [requirePhase_legal h, h]
  · simp [requirePhase_illegal h, h]

/-! ## Completion (rules R63, R233, R267) -/

theorem complete_error (w : Word) (c : ErrCode) (s : State) : complete w (.error c) s = .next (s.raise c w) := rfl

theorem complete_ok {w : Word} {b : Block} {bytes : List Byte} {s : State} (h : bytes = [] ∨ s.outReady = true) :
    complete w (.ok (b, bytes)) s = .next { s with toBlock := b, out := s.out ++ bytes } := if_pos h

theorem complete_silent (w : Word) (b : Block) (s : State) :
    complete w (.ok (b, [])) s = .next { s with toBlock := b } := by simp [complete]

theorem complete_waits {w : Word} {b : Block} {bytes : List Byte} {s : State} (hb : bytes ≠ [])
    (hr : s.outReady = false) : complete w (.ok (b, bytes)) s = .next { s with busy := some ⟨w, 0⟩ } := by
  simp [complete, hb, hr]

/-- Everything a command can do when it ends, or waits to. -/
theorem complete_next {w : Word} {e : Effect} {s t : State} (h : complete w e s = .next t) :
    (∃ c, e = .error c ∧ t = s.raise c w) ∨
    (∃ b bytes, e = .ok (b, bytes) ∧ (bytes = [] ∨ s.outReady = true) ∧
      t = { s with toBlock := b, out := s.out ++ bytes }) ∨
    (∃ b bytes, e = .ok (b, bytes) ∧ bytes ≠ [] ∧ s.outReady = false ∧ t = { s with busy := some ⟨w, 0⟩ }) := by
  match e, h with
  | .error c, h => exact .inl ⟨c, rfl, by simpa [complete] using h.symm⟩
  | .ok (b, bytes), h =>
    by_cases hb : bytes = [] ∨ s.outReady = true
    · rw [complete_ok hb] at h
      exact .inr (.inl ⟨b, bytes, rfl, hb, by simpa using h.symm⟩)
    · simp only [not_or, Bool.not_eq_true] at hb
      rw [complete_waits hb.1 hb.2] at h
      exact .inr (.inr ⟨b, bytes, rfl, hb.1, hb.2, by simpa using h.symm⟩)

/-- Ending a command always answers a next state. -/
theorem complete_answers (w : Word) (e : Effect) (s : State) : ∃ t, complete w e s = .next t := by
  match e with
  | .error c => exact ⟨_, rfl⟩
  | .ok (b, bytes) => simp only [complete]; split <;> exact ⟨_, rfl⟩

/-! ## Dispatch (rules R100, R234) -/

theorem issue_in_error {w : Word} {body : Block → Effect} {s : State} (h : s.phase = .error) :
    issue w body s = .next s := if_pos h

theorem issue_running {w : Word} {body : Block → Effect} {s : State} (h : s.phase ≠ .error) :
    issue w body s = complete w (body s.toBlock) s := if_neg h

/-- Everything a dispatched command can do. -/
theorem issue_next {w : Word} {body : Block → Effect} {s t : State} (h : issue w body s = .next t) :
    (s.phase = .error ∧ t = s) ∨
    (s.phase ≠ .error ∧ ∃ c, body s.toBlock = .error c ∧ t = s.raise c w) ∨
    (s.phase ≠ .error ∧ ∃ b bytes, body s.toBlock = .ok (b, bytes) ∧ (bytes = [] ∨ s.outReady = true) ∧
      t = { s with toBlock := b, out := s.out ++ bytes }) ∨
    (s.phase ≠ .error ∧ ∃ b bytes, body s.toBlock = .ok (b, bytes) ∧ bytes ≠ [] ∧ s.outReady = false ∧
      t = { s with busy := some ⟨w, 0⟩ }) := by
  by_cases hp : s.phase = .error
  · rw [issue_in_error hp] at h
    exact .inl ⟨hp, by simpa using h.symm⟩
  · rw [issue_running hp] at h
    rcases complete_next h with h | h | h
    · exact .inr (.inl ⟨hp, h⟩)
    · exact .inr (.inr (.inl ⟨hp, h⟩))
    · exact .inr (.inr (.inr ⟨hp, h⟩))

theorem issue_answers (w : Word) (body : Block → Effect) (s : State) : ∃ t, issue w body s = .next t := by
  by_cases hp : s.phase = .error
  · exact ⟨s, issue_in_error hp⟩
  · rw [issue_running hp]; exact complete_answers _ _ _

theorem issue_raises {w : Word} {body : Block → Effect} {s : State} {c : ErrCode} (hp : s.phase ≠ .error)
    (h : body s.toBlock = .error c) : issue w body s = .next (s.raise c w) := by
  rw [issue_running hp, h, complete_error]

theorem issue_completes {w : Word} {body : Block → Effect} {s : State} {b : Block} {bytes : List Byte}
    (hp : s.phase ≠ .error) (h : body s.toBlock = .ok (b, bytes)) (hr : bytes = [] ∨ s.outReady = true) :
    issue w body s = .next { s with toBlock := b, out := s.out ++ bytes } := by
  rw [issue_running hp, h, complete_ok hr]

/-! ## Sums over the symbols (rules R24, R193) -/

theorem sum_map_update (f g : Nat → Nat) (k n : Nat) (hk : k < n) (h : ∀ j, j ≠ k → g j = f j) :
    ((List.range n).map g).sum + f k = ((List.range n).map f).sum + g k := by
  induction n with
  | zero => omega
  | succ n ih =>
    simp only [List.range_succ, List.map_append, List.map_cons, List.map_nil, List.sum_append, List.sum_cons,
      List.sum_nil, Nat.add_zero]
    by_cases hn : k = n
    · subst hn
      have : (List.range k).map g = (List.range k).map f :=
        List.map_congr_left fun j hj => h j (by have := List.mem_range.1 hj; omega)
      rw [this]; omega
    · have := ih (by omega)
      rw [h n (by omega)]; omega

/-- Writing one entry changes the sum by that entry's change. -/
theorem freqSum_set (t : Table (BitVec 32)) {s : Nat} (hs : s < 256) (v : BitVec 32) :
    freqSum (t.set Config.nsym 0 s v) + (t.get 0 s).toNat = freqSum t + v.toNat := by
  have := sum_map_update (fun j => (t.get 0 j).toNat) (fun j => ((t.set Config.nsym 0 s v).get 0 j).toNat) s 256 hs
    (fun j hj => by simp only [Table.get_set_ne t hj])
  simpa only [freqSum, Table.get_set_same t hs] using this

theorem sum_map_le (f : Nat → Nat) (c n : Nat) (h : ∀ j, f j ≤ c) : ((List.range n).map f).sum ≤ n * c := by
  induction n with
  | zero => simp
  | succ n ih =>
    simp only [List.range_succ, List.map_append, List.map_cons, List.map_nil, List.sum_append, List.sum_cons,
      List.sum_nil, Nat.add_zero]
    have := h n
    rw [Nat.succ_mul]; omega

/-- The sum of 256 32-bit entries fits 40 bits (rule R136). -/
theorem freqSum_le (t : Table (BitVec 32)) : freqSum t ≤ 256 * (2 ^ 32 - 1) :=
  sum_map_le _ _ _ fun j => by have := (t.get 0 j).isLt; omega

theorem freqSum_lt (t : Table (BitVec 32)) : freqSum t < 2 ^ 40 := by have := freqSum_le t; omega

theorem freqSum_empty : freqSum Table.empty = 0 := by
  simp [freqSum]

theorem le_sum_map (f : Nat → Nat) {k n : Nat} (hk : k < n) : f k ≤ ((List.range n).map f).sum := by
  induction n with
  | zero => omega
  | succ n ih =>
    simp only [List.range_succ, List.map_append, List.map_cons, List.map_nil, List.sum_append, List.sum_cons,
      List.sum_nil, Nat.add_zero]
    by_cases hn : k = n
    · subst hn; omega
    · have := ih (by omega); omega

theorem get_le_freqSum (t : Table (BitVec 32)) {s : Nat} (hs : s < 256) : (t.get 0 s).toNat ≤ freqSum t :=
  le_sum_map (fun j => (t.get 0 j).toNat) hs

end Sys2Proof.Machine
end

