-- ==== Sys2Proof/Laws/TreeBuilder.lean ====
section
/-! SUPPORT. TreeBuild (rules R131 to R137): what PopMin gives, what one combination does, and the invariant of the loop, from
which the shape of the tree, its weights and its counts are read off. -/

namespace Sys2Proof.Machine

/-! ## The selection order (rule R133) -/

theorem keyBefore_iff {arena : Table Node} {m n : Nat} :
    keyBefore arena m n = true ↔ weightIn arena m < weightIn arena n ∨ (weightIn arena m = weightIn arena n ∧ m < n) := by
  simp [keyBefore]

theorem keyBefore_total (arena : Table Node) (m n : Nat) (h : m ≠ n) :
    keyBefore arena m n = true ∨ keyBefore arena n m = true := by
  simp only [keyBefore_iff]; omega

theorem keyBefore_trans {arena : Table Node} {l m n : Nat} (h1 : keyBefore arena l m = true)
    (h2 : keyBefore arena m n = true) : keyBefore arena l n = true := by
  simp only [keyBefore_iff] at *; omega

theorem keyBefore_irrefl (arena : Table Node) (n : Nat) : keyBefore arena n n = false := by
  rw [← Bool.not_eq_true, keyBefore_iff]; omega

theorem leastKey_spec (arena : Table Node) (rest : List Nat) (n : Nat) :
    leastKey arena n rest ∈ n :: rest ∧
      ∀ x ∈ n :: rest, x ≠ leastKey arena n rest → keyBefore arena (leastKey arena n rest) x = true := by
  induction rest generalizing n with
  | nil => simp [leastKey]
  | cons a rest ih =>
    have hfold : leastKey arena n (a :: rest) = leastKey arena (if keyBefore arena a n then a else n) rest := rfl
    rw [hfold]
    by_cases hk : keyBefore arena a n = true
    · rw [if_pos hk]
      obtain ⟨h1, h2⟩ := ih a
      refine ⟨by simp only [List.mem_cons] at h1 ⊢; tauto, fun x hx hne => ?_⟩
      rcases List.mem_cons.1 hx with rfl | hx
      · by_cases hm : a = leastKey arena a rest
        · rw [← hm]; exact hk
        · exact keyBefore_trans (h2 a (by simp) hm) hk
      · exact h2 x hx hne
    · rw [if_neg hk]
      obtain ⟨h1, h2⟩ := ih n
      refine ⟨by simp only [List.mem_cons] at h1 ⊢; tauto, fun x hx hne => ?_⟩
      rcases List.mem_cons.1 hx with rfl | hx
      · exact h2 x (by simp) hne
      · rcases List.mem_cons.1 hx with rfl | hx
        · by_cases hxn : x = n
          · subst hxn; exact h2 x (by simp) hne
          · have hnx := (keyBefore_total arena n x (Ne.symm hxn)).resolve_right hk
            by_cases hm : n = leastKey arena n rest
            · rw [← hm]; exact hnx
            · exact keyBefore_trans (h2 n (by simp) hm) hnx
        · exact h2 x (by simp [hx]) hne

/-- PopMin gives the one node of least key, and takes it out (rule R133). -/
theorem popMin_spec {arena : Table Node} {q q' : List Nat} {m : Nat} (h : popMin arena q = some (m, q')) :
    m ∈ q ∧ (∀ x ∈ q, x ≠ m → keyBefore arena m x = true) ∧ q' = q.erase m := by
  cases q with
  | nil => cases h
  | cons n rest =>
    simp only [popMin, Option.some.injEq, Prod.mk.injEq] at h
    obtain ⟨rfl, rfl⟩ := h
    exact ⟨(leastKey_spec arena rest n).1, (leastKey_spec arena rest n).2, rfl⟩

theorem popMin_isSome {arena : Table Node} {q : List Nat} (h : q ≠ []) : ∃ m q', popMin arena q = some (m, q') := by
  cases q with
  | nil => exact absurd rfl h
  | cons n rest => exact ⟨_, _, rfl⟩

/-- One turn of the loop, when Q holds two nodes or more (rule R134). -/
theorem Builder.combine_eq {t : Builder} (h : 2 ≤ t.q.length) :
    ∃ a b, a ∈ t.q ∧ b ∈ t.q.erase a ∧
      (∀ x ∈ t.q, x ≠ a → keyBefore t.arena a x = true) ∧
      (∀ x ∈ t.q.erase a, x ≠ b → keyBefore t.arena b x = true) ∧
      t.combine =
        { arena := t.arena.set Config.nnode Node.none t.next
            ⟨true, (t.arena.get Node.none a).weight + (t.arena.get Node.none b).weight,
              BitVec.ofNat 9 a, BitVec.ofNat 9 b⟩
          q := (t.q.erase a).erase b ++ [t.next]
          next := t.next + 1 } := by
  obtain ⟨a, q1, h1⟩ := popMin_isSome (arena := t.arena) (q := t.q) (by intro h0; simp [h0] at h)
  obtain ⟨ha, hmin, rfl⟩ := popMin_spec h1
  have hlen : (t.q.erase a).length = t.q.length - 1 := List.length_erase_of_mem ha
  obtain ⟨b, q2, h2⟩ := popMin_isSome (arena := t.arena) (q := t.q.erase a)
    (by intro h0; rw [h0] at hlen; simp at hlen; omega)
  obtain ⟨hb, hmin2, rfl⟩ := popMin_spec h2
  exact ⟨a, b, ha, hb, hmin, hmin2, by simp [Builder.combine, h1, h2]⟩

/-! ## The invariant of the loop -/

/-- The arena entry of node n in a tree under construction. -/
abbrev Builder.node (t : Builder) (n : Nat) : Node := t.arena.get Node.none n

/-- The weights of the nodes of Q, summed. -/
def Builder.qWeight (t : Builder) : Nat := (t.q.map (weightIn t.arena)).sum

/-- n has a parent among the nodes made so far. -/
abbrev Builder.parent (t : Builder) (p n : Nat) : Prop :=
  256 ≤ p ∧ (t.node p).alloc = true ∧ ((t.node p).left.toNat = n ∨ (t.node p).right.toNat = n)

/-- What holds before and after every turn of rule R134's loop. -/
structure Builder.Inv (freq : Table (BitVec 32)) (t : Builder) : Prop where
  canonical : t.arena.wf Config.nnode Node.none
  next_ge : 256 ≤ t.next
  /-- as many ids are used as nodes have left Q -/
  count : t.next + t.q.length = 256 + leafCount freq
  /-- a leaf's entry is its symbol's, whatever turn (rule R132) -/
  leaf : ∀ s < 256, t.node s = if freq.get 0 s ≠ 0 then leafNode (freq.get 0 s) else Node.none
  /-- the internal nodes are the ids from 256 up (rule R131) -/
  internal : ∀ n, 256 ≤ n → ((t.node n).alloc = true ↔ n < t.next)
  unused : ∀ n, t.next ≤ n → t.node n = Node.none
  q_nodup : t.q.Nodup
  q_alloc : ∀ n ∈ t.q, (t.node n).alloc = true
  /-- an internal node's children, order and weight (rules R134, R139 items 1, 3 and 4) -/
  children : ∀ n, 256 ≤ n → n < t.next →
    (t.node (t.node n).left.toNat).alloc = true ∧ (t.node (t.node n).right.toNat).alloc = true ∧
    (t.node n).left.toNat < n ∧ (t.node n).right.toNat < n ∧
    keyBefore t.arena (t.node n).left.toNat (t.node n).right.toNat = true ∧
    weightIn t.arena n = weightIn t.arena (t.node n).left.toNat + weightIn t.arena (t.node n).right.toNat
  /-- every node that stood in Q beside the two children when n was made comes after both (rule R134) -/
  least : ∀ n, 256 ≤ n → n < t.next → ∀ m < n, (t.node m).alloc = true → (∀ p < n, ¬ t.parent p m) →
    m ≠ (t.node n).left.toNat → m ≠ (t.node n).right.toNat → keyBefore t.arena (t.node n).right.toNat m = true
  /-- the nodes of Q have no parent, and every other node has exactly one -/
  top : ∀ n ∈ t.q, ∀ p, ¬ t.parent p n
  below : ∀ n, (t.node n).alloc = true → n ∉ t.q → ∃! p, t.parent p n
  /-- no weight is lost (rule R136) -/
  weight : t.qWeight = freqSum freq

theorem leafCount_le (freq : Table (BitVec 32)) : leafCount freq ≤ 256 := by
  have := List.length_filter_le (fun s => decide (freq.get 0 s ≠ 0)) (List.range 256)
  simpa [leafCount] using this

theorem leafNode_alloc (f : BitVec 32) : (leafNode f).alloc = true := rfl

theorem leafNode_weight (f : BitVec 32) : (leafNode f).weight.toNat = f.toNat := by
  have := f.isLt
  simp only [leafNode, BitVec.toNat_setWidth]; omega

theorem initialBuilder_node (freq : Table (BitVec 32)) (n : Nat) :
    (initialBuilder freq).node n =
      if n < 256 ∧ freq.get 0 n ≠ 0 then leafNode (freq.get 0 n) else Node.none := by
  simp only [Builder.node, initialBuilder, Table.get_ofFn]
  by_cases h : n < Config.nnode
  · rw [if_pos h]
  · rw [if_neg h, if_neg (by intro h'; exact h (by have := h'.1; simp only [Config.nnode]; omega))]

theorem sum_filter_nonzero (f : Nat → Nat) (l : List Nat) (p : Nat → Bool) (h : ∀ x ∈ l, p x = false → f x = 0) :
    ((l.filter p).map f).sum = (l.map f).sum := by
  induction l with
  | nil => rfl
  | cons a l ih =>
    have ih := ih (fun x hx => h x (by simp [hx]))
    by_cases hp : p a = true
    · simp [hp, ih]
    · have := h a (by simp) (by simpa using hp)
      simp [hp, ih, this]

theorem initialBuilder_inv (freq : Table (BitVec 32)) : (initialBuilder freq).Inv freq := by
  have hq : ∀ n, n ∈ (initialBuilder freq).q ↔ n < 256 ∧ freq.get 0 n ≠ 0 := by
    intro n; simp [initialBuilder]
  have hbig : ∀ n, 256 ≤ n → (initialBuilder freq).node n = Node.none := by
    intro n hn; rw [initialBuilder_node, if_neg (by omega)]
  have hnone : ∀ n, 256 ≤ n → ¬ ((initialBuilder freq).node n).alloc = true := by
    intro n hn; rw [hbig n hn]; simp [Node.none]
  refine
    { canonical := Table.wf_ofFn _ _ _, next_ge := Nat.le_refl _, count := rfl, leaf := ?_, internal := ?_,
      unused := fun n hn => hbig n hn, q_nodup := List.nodup_range.filter _, q_alloc := ?_, children := ?_,
      least := fun n hn hlt => absurd hlt (Nat.not_lt.2 hn), top := ?_, below := ?_, weight := ?_ }
  · intro s hs
    rw [initialBuilder_node]; simp [hs]
  · intro n hn
    have hne : (initialBuilder freq).next = 256 := rfl
    rw [hne]
    constructor
    · intro h; exact absurd h (hnone n hn)
    · omega
  · intro n hn
    rw [initialBuilder_node, if_pos ((hq n).1 hn)]; rfl
  · intro n hn h
    have hne : (initialBuilder freq).next = 256 := rfl
    omega
  · rintro n - p ⟨hp, ha, -⟩
    exact hnone p hp ha
  · intro n ha hn
    exfalso
    apply hn
    rw [hq]
    by_contra hcon
    rw [initialBuilder_node, if_neg hcon] at ha
    simp [Node.none] at ha
  · have hsum := sum_filter_nonzero (fun s => (freq.get 0 s).toNat) (List.range Config.nsym)
      (fun s => freq.get 0 s ≠ 0) (by intro x _ hx; simp at hx; simp [hx])
    refine Eq.trans (congrArg List.sum (List.map_congr_left ?_)) hsum
    intro n hn
    have hn := (hq n).1 hn
    have hnode := initialBuilder_node freq n
    rw [if_pos hn] at hnode
    simp only [weightIn, hnode, leafNode_weight]

theorem sum_map_erase {f : Nat → Nat} {l : List Nat} {a : Nat} (h : a ∈ l) :
    ((l.erase a).map f).sum + f a = (l.map f).sum := by
  induction l with
  | nil => cases h
  | cons b l ih =>
    by_cases hb : b = a
    · subst hb; simp; omega
    · rcases List.mem_cons.1 h with h | h
      · exact absurd h.symm hb
      · rw [List.erase_cons_tail (by simpa using hb)]
        simp only [List.map_cons, List.sum_cons]
        have := ih h; omega

theorem mem_le_sum {f : Nat → Nat} {l : List Nat} {a : Nat} (h : a ∈ l) : f a ≤ (l.map f).sum := by
  have := sum_map_erase (f := f) h; omega

theorem Builder.node_lt_next {freq : Table (BitVec 32)} {t : Builder} (hi : t.Inv freq) {n : Nat}
    (h : (t.node n).alloc = true) : n < t.next := by
  by_contra hn
  rw [hi.unused n (by omega)] at h
  simp [Node.none] at h

/-- A turn keeps the invariant. -/
theorem Builder.combine_inv {freq : Table (BitVec 32)} {t : Builder} (hi : t.Inv freq) (hq : 2 ≤ t.q.length) :
    t.combine.Inv freq ∧ t.combine.q.length + 1 = t.q.length := by
  obtain ⟨a, b, ha, hb, hmina, hminb, he⟩ := Builder.combine_eq hq
  have hlc := leafCount_le freq
  have hcount := hi.count
  have hnext : t.next < 511 := by omega
  have hbq : b ∈ t.q := List.mem_of_mem_erase hb
  have hba : b ≠ a := fun h => (List.Nodup.not_mem_erase hi.q_nodup) (h ▸ hb)
  have haal := hi.q_alloc a ha
  have hbal := hi.q_alloc b hbq
  have halt := Builder.node_lt_next hi haal
  have hblt := Builder.node_lt_next hi hbal
  have hlen1 : (t.q.erase a).length = t.q.length - 1 := List.length_erase_of_mem ha
  have hlen2 : ((t.q.erase a).erase b).length = (t.q.erase a).length - 1 := List.length_erase_of_mem hb
  have hqnext : t.next ∉ t.q := fun h => by
    have := Builder.node_lt_next hi (hi.q_alloc _ h); omega
  have hmemq2 : ∀ n, n ∈ (t.q.erase a).erase b ↔ n ∈ t.q ∧ n ≠ a ∧ n ≠ b := by
    intro n
    rw [List.Nodup.mem_erase_iff (hi.q_nodup.erase a), List.Nodup.mem_erase_iff hi.q_nodup]
    tauto
  -- weights
  have hwsum : weightIn t.arena a + weightIn t.arena b +
      (((t.q.erase a).erase b).map (weightIn t.arena)).sum = freqSum freq := by
    have h1 := sum_map_erase (f := weightIn t.arena) ha
    have h2 := sum_map_erase (f := weightIn t.arena) hb
    have h3 := hi.weight
    simp only [Builder.qWeight] at h3
    omega
  have hfl := freqSum_lt freq
  -- the new node
  obtain ⟨new, hnew⟩ : ∃ new : Node, new = ⟨true, (t.arena.get Node.none a).weight + (t.arena.get Node.none b).weight,
      BitVec.ofNat 9 a, BitVec.ofNat 9 b⟩ := ⟨_, rfl⟩
  have hnl : new.left.toNat = a := by rw [hnew]; simp only [BitVec.toNat_ofNat]; omega
  have hnr : new.right.toNat = b := by rw [hnew]; simp only [BitVec.toNat_ofNat]; omega
  have hnw : new.weight.toNat = weightIn t.arena a + weightIn t.arena b := by
    rw [hnew]; simp only [BitVec.toNat_add, weightIn]
    have : (t.arena.get Node.none a).weight.toNat + (t.arena.get Node.none b).weight.toNat < 2 ^ 40 := by
      simp only [weightIn] at hwsum; omega
    exact Nat.mod_eq_of_lt this
  have hna : new.alloc = true := by rw [hnew]
  rw [← hnew] at he
  have hnode : ∀ n, t.combine.node n = if n = t.next then new else t.node n := by
    intro n
    rw [he]
    exact Table.get_set t.arena (size := Config.nnode) (by simpa [Config.nnode] using hnext) new n
  have hold : ∀ n, n ≠ t.next → t.combine.node n = t.node n := fun n hn => by rw [hnode, if_neg hn]
  have hthis : t.combine.node t.next = new := by rw [hnode, if_pos rfl]
  have hw : ∀ n, n ≠ t.next → weightIn t.combine.arena n = weightIn t.arena n := fun n hn => by
    simp only [weightIn]; exact congrArg _ (congrArg _ (hold n hn))
  have hwthis : weightIn t.combine.arena t.next = weightIn t.arena a + weightIn t.arena b := by
    rw [← hnw]; simp only [weightIn]; exact congrArg _ (congrArg _ hthis)
  have hkey : ∀ m n, m ≠ t.next → n ≠ t.next → keyBefore t.combine.arena m n = keyBefore t.arena m n := by
    intro m n hm hn; simp only [keyBefore, hw m hm, hw n hn]
  have hqe : t.combine.q = (t.q.erase a).erase b ++ [t.next] := by rw [he]
  have hne : t.combine.next = t.next + 1 := by rw [he]
  have hq'len : t.combine.q.length = t.q.length - 1 := by
    rw [hqe, List.length_append, hlen2, hlen1]; simp only [List.length_cons, List.length_nil]; omega
  have hpar_old : ∀ p n, p ≠ t.next → (t.combine.parent p n ↔ t.parent p n) := by
    intro p n hp; simp only [Builder.parent, hold p hp]
  have hpar_new : ∀ n, t.combine.parent t.next n ↔ n = a ∨ n = b := by
    intro n
    simp only [Builder.parent, hthis, hna, hnl, hnr]
    have := hi.next_ge
    constructor
    · rintro ⟨-, -, h | h⟩ <;> simp [h]
    · rintro (h | h) <;> simp [h, this]
  have hpar_lt : ∀ p n, t.parent p n → p ≠ t.next := by
    rintro p n ⟨-, hp, -⟩ rfl
    have := Builder.node_lt_next hi hp; omega
  refine ⟨?_, by omega⟩
  refine
    { canonical := by rw [he]; exact Table.wf_set hi.canonical _ _
      next_ge := by rw [hne]; have := hi.next_ge; omega
      count := by rw [hne, hq'len]; omega
      leaf := ?_, internal := ?_, unused := ?_, q_nodup := ?_, q_alloc := ?_, children := ?_, least := ?_, top := ?_,
      below := ?_, weight := ?_ }
  · intro s hs
    rw [hold s (by have := hi.next_ge; omega)]
    exact hi.leaf s hs
  · intro n hn
    rw [hne]
    by_cases h : n = t.next
    · subst h; rw [hthis]; simp [hna]
    · rw [hold n h, hi.internal n hn]; omega
  · intro n hn
    rw [hne] at hn
    rw [hold n (by omega)]
    exact hi.unused n (by omega)
  · rw [hqe]
    refine List.nodup_append.2 ⟨(hi.q_nodup.erase a).erase b, by simp, ?_⟩
    intro x hx y hy
    simp only [List.mem_singleton] at hy
    subst hy
    rintro rfl
    exact hqnext ((hmemq2 _).1 hx).1
  · intro n hn
    rw [hqe, List.mem_append, List.mem_singleton] at hn
    rcases hn with hn | rfl
    · have := ((hmemq2 n).1 hn).1
      rw [hold n (by rintro rfl; exact hqnext this)]
      exact hi.q_alloc n this
    · rw [hthis, hna]
  · intro n hn hlt
    rw [hne] at hlt
    by_cases h : n = t.next
    · subst h
      rw [hthis, hnl, hnr, hold a (by omega), hold b (by omega), hwthis, hw a (by omega), hw b (by omega),
        hkey a b (by omega) (by omega)]
      exact ⟨haal, hbal, halt, hblt, hmina b hbq hba, rfl⟩
    · obtain ⟨h1, h2, h3, h4, h5, h6⟩ := hi.children n hn (by omega)
      rw [hold n h, hold _ (by omega), hold _ (by omega), hw n h, hw _ (by omega), hw _ (by omega),
        hkey _ _ (by omega) (by omega)]
      exact ⟨h1, h2, h3, h4, h5, h6⟩
  · intro n hn hlt m hm hal hnp
    rw [hne] at hlt
    have hfree : ∀ p < n, ¬ t.parent p m := fun p hp h => hnp p hp ((hpar_old p m (by omega)).2 h)
    rw [hold m (by omega)] at hal
    by_cases h : n = t.next
    · subst h
      rw [hthis, hnl, hnr, hkey b m (by omega) (by omega)]
      intro hma hmb
      have hmq : m ∈ t.q := by
        by_contra hcon
        obtain ⟨p, hp, -⟩ := hi.below m hal hcon
        exact hfree p (Builder.node_lt_next hi hp.2.1) hp
      exact hminb m ((List.Nodup.mem_erase_iff hi.q_nodup).2 ⟨hma, hmq⟩) hmb
    · obtain ⟨-, -, -, h4, -, -⟩ := hi.children n hn (by omega)
      rw [hold n h, hkey _ m (by omega) (by omega)]
      exact hi.least n hn (by omega) m hm hal hfree
  · intro n hn p hp
    rw [hqe, List.mem_append, List.mem_singleton] at hn
    by_cases hpn : p = t.next
    · subst hpn
      rw [hpar_new] at hp
      rcases hn with hn | rfl
      · obtain ⟨-, h1, h2⟩ := (hmemq2 n).1 hn
        exact hp.elim h1 h2
      · rcases hp with hp | hp <;> omega
    · rw [hpar_old p n hpn] at hp
      rcases hn with hn | rfl
      · exact hi.top n ((hmemq2 n).1 hn).1 p hp
      · obtain ⟨h1, h2, h3⟩ := hp
        have hplt := Builder.node_lt_next hi h2
        obtain ⟨-, -, hl, hr, -, -⟩ := hi.children p h1 hplt
        rcases h3 with h3 | h3 <;> omega
  · intro n hal hn
    rw [hqe, List.mem_append, List.mem_singleton, not_or] at hn
    obtain ⟨hn1, hn2⟩ := hn
    rw [hold n hn2] at hal
    by_cases hnq : n ∈ t.q
    · have hab : n = a ∨ n = b := by
        by_contra hcon
        rw [not_or] at hcon
        exact hn1 ((hmemq2 n).2 ⟨hnq, hcon.1, hcon.2⟩)
      refine ⟨t.next, (hpar_new n).2 hab, ?_⟩
      intro p hp
      by_contra hpn
      rw [hpar_old p n hpn] at hp
      exact hi.top n hnq p hp
    · obtain ⟨p, hp, huniq⟩ := hi.below n hal hnq
      refine ⟨p, (hpar_old p n (hpar_lt p n hp)).2 hp, ?_⟩
      intro p' hp'
      by_cases hpn : p' = t.next
      · subst hpn
        rw [hpar_new] at hp'
        rcases hp' with rfl | rfl
        · exact absurd ha hnq
        · exact absurd hbq hnq
      · exact huniq p' ((hpar_old p' n hpn).1 hp')
  · simp only [Builder.qWeight, hqe, List.map_append, List.map_cons, List.map_nil, List.sum_append, List.sum_cons,
      List.sum_nil, Nat.add_zero, hwthis]
    have : ((t.q.erase a).erase b).map (weightIn t.combine.arena) = ((t.q.erase a).erase b).map (weightIn t.arena) := by
      apply List.map_congr_left
      intro n hn
      exact hw n (by rintro rfl; exact hqnext ((hmemq2 _).1 hn).1)
    rw [this]; omega

/-- With as many turns as nodes, the loop ends with at most one node in Q. -/
theorem Builder.combineAll_inv {freq : Table (BitVec 32)} :
    ∀ (k : Nat) (t : Builder), t.Inv freq → t.q.length ≤ k →
      (Builder.combineAll k t).Inv freq ∧ (Builder.combineAll k t).q.length = min t.q.length 1
  | 0, t, hi, hk => ⟨hi, by simp only [Builder.combineAll]; omega⟩
  | k + 1, t, hi, hk => by
    by_cases h : 2 ≤ t.q.length
    · obtain ⟨h1, h2⟩ := Builder.combine_inv hi h
      simp only [Builder.combineAll, if_pos h]
      obtain ⟨h3, h4⟩ := Builder.combineAll_inv k t.combine h1 (by omega)
      exact ⟨h3, by omega⟩
    · simp only [Builder.combineAll, if_neg h]
      exact ⟨hi, by omega⟩

/-- The builder TreeBuild ends with. -/
def finalBuilder (freq : Table (BitVec 32)) : Builder :=
  Builder.combineAll (initialBuilder freq).q.length (initialBuilder freq)

theorem finalBuilder_inv (freq : Table (BitVec 32)) :
    (finalBuilder freq).Inv freq ∧ (finalBuilder freq).q.length = min (leafCount freq) 1 :=
  Builder.combineAll_inv _ _ (initialBuilder_inv freq) (Nat.le_refl _)

theorem treeBuild_arena (freq : Table (BitVec 32)) : (treeBuild freq).arena = (finalBuilder freq).arena := rfl

theorem treeBuild_nleaf (freq : Table (BitVec 32)) : (treeBuild freq).nleaf.toNat = leafCount freq := by
  have := leafCount_le freq
  have h : (treeBuild freq).nleaf = BitVec.ofNat 9 (leafCount freq) := rfl
  rw [h, BitVec.toNat_ofNat]; omega

/-- NINT = max(NLEAF − 1, 0) (rules R30, R139 item 2). -/
theorem treeBuild_nint (freq : Table (BitVec 32)) : (treeBuild freq).nint.toNat = leafCount freq - 1 := by
  have h1 := leafCount_le freq
  obtain ⟨hi, hl⟩ := finalBuilder_inv freq
  have hc := hi.count
  have h : (treeBuild freq).nint = BitVec.ofNat 8 ((finalBuilder freq).next - 256) := rfl
  rw [h, BitVec.toNat_ofNat]; omega

theorem finalBuilder_next (freq : Table (BitVec 32)) : (finalBuilder freq).next = 256 + (leafCount freq - 1) := by
  obtain ⟨hi, hl⟩ := finalBuilder_inv freq
  have hc := hi.count
  omega

theorem treeBuild_nodeAt (freq : Table (BitVec 32)) (n : Nat) : (treeBuild freq).nodeAt n = (finalBuilder freq).node n := by
  simp only [Tree.nodeAt, treeBuild_arena]
  by_cases h : n < Config.nnode
  · rw [if_pos h]
  · rw [if_neg h]
    exact (Table.get_of_size_le (finalBuilder_inv freq).1.canonical (Nat.not_lt.1 h)).symm

/-- ROOT and ROOT_V (rules R29, R135): with a nonzero symbol Q ends with the root alone. -/
theorem treeBuild_root (freq : Table (BitVec 32)) :
    (leafCount freq = 0 ∧ (finalBuilder freq).q = [] ∧ (treeBuild freq).rootV = false ∧ (treeBuild freq).root = 0) ∨
    (1 ≤ leafCount freq ∧ ∃ r, (finalBuilder freq).q = [r] ∧ (treeBuild freq).rootV = true ∧
      (treeBuild freq).root.toNat = r) := by
  obtain ⟨hi, hl⟩ := finalBuilder_inv freq
  have hr : ((treeBuild freq).root, (treeBuild freq).rootV) = rootOf (finalBuilder freq).q := rfl
  rcases hq : (finalBuilder freq).q with _ | ⟨r, _ | ⟨r2, rest⟩⟩
  · rw [hq] at hr hl
    simp only [rootOf, Prod.mk.injEq] at hr
    simp only [List.length_nil] at hl
    exact .inl ⟨by omega, rfl, hr.2, hr.1⟩
  · rw [hq] at hr hl
    simp only [rootOf, Prod.mk.injEq] at hr
    simp only [List.length_cons, List.length_nil] at hl
    have hlt := Builder.node_lt_next hi (hi.q_alloc r (by simp [hq]))
    have hn := finalBuilder_next freq
    have hle := leafCount_le freq
    refine .inr ⟨by omega, r, rfl, hr.2, ?_⟩
    rw [hr.1, BitVec.toNat_ofNat]; omega
  · rw [hq] at hl
    simp only [List.length_cons] at hl; omega

/-- A tree exists exactly when some symbol has nonzero frequency (rule R29). -/
theorem treeBuild_rootV (freq : Table (BitVec 32)) : (treeBuild freq).rootV = true ↔ 1 ≤ leafCount freq := by
  rcases treeBuild_root freq with ⟨h1, -, h2, -⟩ | ⟨h1, r, -, h2, -⟩
  · simp [h2, h1]
  · simp [h2, h1]

/-- With two symbols or more the root is the last internal node. -/
theorem treeBuild_root_internal (freq : Table (BitVec 32)) (h : 2 ≤ leafCount freq) :
    256 ≤ (treeBuild freq).root.toNat ∧ (treeBuild freq).has (treeBuild freq).root.toNat := by
  rcases treeBuild_root freq with ⟨h1, -⟩ | ⟨-, r, hq, -, hr⟩
  · omega
  · obtain ⟨hi, -⟩ := finalBuilder_inv freq
    have hal := hi.q_alloc r (by simp [hq])
    refine ⟨?_, by rw [hr, Tree.has, treeBuild_nodeAt]; exact hal⟩
    rw [hr]
    by_contra hlt
    have hn := finalBuilder_next freq
    -- the last node made has no parent, so it is in Q
    have hlast : ((finalBuilder freq).node ((finalBuilder freq).next - 1)).alloc = true :=
      (hi.internal _ (by omega)).2 (by omega)
    have hnp : ∀ p, ¬ (finalBuilder freq).parent p ((finalBuilder freq).next - 1) := by
      rintro p ⟨h1, h2, h3⟩
      have hp := Builder.node_lt_next hi h2
      obtain ⟨-, -, hl, hr', -, -⟩ := hi.children p h1 hp
      rcases h3 with h3 | h3 <;> omega
    have hmem : (finalBuilder freq).next - 1 ∈ (finalBuilder freq).q := by
      by_contra hcon
      obtain ⟨p, hp, -⟩ := hi.below _ hlast hcon
      exact hnp p hp
    rw [hq, List.mem_singleton] at hmem
    omega

/-- With one symbol the root is its leaf (rule R137). -/
theorem treeBuild_root_leaf (freq : Table (BitVec 32)) (h : leafCount freq = 1) :
    (treeBuild freq).root.toNat < 256 ∧ freq.get 0 (treeBuild freq).root.toNat ≠ 0 := by
  rcases treeBuild_root freq with ⟨h1, -⟩ | ⟨-, r, hq, -, hr⟩
  · omega
  · obtain ⟨hi, -⟩ := finalBuilder_inv freq
    have hal := hi.q_alloc r (by simp [hq])
    have hlt := Builder.node_lt_next hi hal
    have hn := finalBuilder_next freq
    rw [hr]
    have hr256 : r < 256 := by omega
    refine ⟨hr256, fun h0 => ?_⟩
    rw [hi.leaf r hr256, if_neg (by simpa using h0)] at hal
    simp [Node.none] at hal

end Sys2Proof.Machine
end

