-- ==== Sys2Proof/Laws/Codes.lean ====
section
/-! SUPPORT. Codes (rules R151 to R154): a LUT entry holds the bits it was given; a path found in a tree leads to its leaf through
internal nodes; in a tree of TreeBuild every leaf has a path of at most 255 edges; no code is a first part of another. -/

namespace Sys2Proof.Machine

/-! ## LUT entries (rules R12, R31) -/

theorem codeOfBits_getLsbD (bits : List Bool) (i : Nat) (hi : i < 255) :
    (codeOfBits bits).getLsbD i = bits.getD i false := by
  induction bits generalizing i with
  | nil => simp [codeOfBits]
  | cons c rest ih =>
    cases i with
    | zero => cases c <;> simp [codeOfBits]
    | succ i =>
      have hih := ih i (by omega)
      have hone : (1#255).getLsbD (i + 1) = false := by
        rw [BitVec.getLsbD_one]; simp
      have hc : (if c then (1 : BitVec 255) else 0).getLsbD (i + 1) = false := by
        cases c
        · simp
        · exact hone
      simp only [codeOfBits, BitVec.getLsbD_or, hc, Bool.or_false, BitVec.getLsbD_shiftLeft]
      simp [hi, hih]

/-- The code bits of an entry are the bits it was made of (rules R31, R153: at most 255 of them). -/
theorem codeEntry_bits {bits : List Bool} (h : bits.length ≤ 255) : (codeEntry bits).bits = bits := by
  have hlen : (BitVec.ofNat 8 bits.length).toNat = bits.length := by rw [BitVec.toNat_ofNat]; omega
  apply List.ext_getElem
  · simp [LutEntry.bits, codeEntry, hlen]
  · intro i h1 h2
    simp only [LutEntry.bits, codeEntry, List.getElem_map, List.getElem_range]
    rw [codeOfBits_getLsbD _ _ (by omega)]
    simp [h2]

theorem codeEntry_len {bits : List Bool} (h : bits.length ≤ 255) : (codeEntry bits).len.toNat = bits.length := by
  simp only [codeEntry, BitVec.toNat_ofNat]; omega

theorem LutEntry.none_bits : LutEntry.none.bits = [] := rfl

theorem LutEntry.bits_length (e : LutEntry) : e.bits.length = e.len.toNat := by simp [LutEntry.bits]

/-! ## Paths (rule R151) -/

/-- The child of n that the bit x picks. -/
abbrev Tree.child (t : Tree) (n : Nat) (x : Bool) : Nat :=
  if x then (t.nodeAt n).right.toNat else (t.nodeAt n).left.toNat

/-- Every node that the path leaves by an edge is internal. -/
def throughInternal (t : Tree) : Nat → List Bool → Prop
  | _, [] => True
  | n, x :: rest => 256 ≤ n ∧ throughInternal t (t.child n x) rest

theorem follow_append (t : Tree) (n : Nat) (p q : List Bool) : follow t n (p ++ q) = follow t (follow t n p) q := by
  induction p generalizing n with
  | nil => rfl
  | cons x p ih => exact ih _

theorem throughInternal_append {t : Tree} {n : Nat} {p q : List Bool} :
    throughInternal t n (p ++ q) ↔ throughInternal t n p ∧ throughInternal t (follow t n p) q := by
  induction p generalizing n with
  | nil => simp [throughInternal, follow]
  | cons x p ih =>
    simp only [List.cons_append, throughInternal, follow, ih]
    tauto

/-- A path that is found leads from n through internal nodes to the leaf. -/
theorem pathTo_some {t : Tree} {s fuel n : Nat} {p : List Bool} (h : pathTo t s fuel n = some p) :
    follow t n p = s ∧ throughInternal t n p ∧ s < 256 ∧ p.length < fuel := by
  induction fuel generalizing n p with
  | zero => cases h
  | succ fuel ih =>
    simp only [pathTo] at h
    split at h
    · rename_i hn
      split at h
      · rename_i hs
        cases h
        exact ⟨hs, trivial, hs ▸ hn, by simp⟩
      · cases h
    · rename_i hn
      have hn : 256 ≤ n := Nat.not_lt.1 hn
      split at h
      · rename_i p' hp
        cases h
        obtain ⟨h1, h2, h3, h4⟩ := ih hp
        exact ⟨h1, ⟨hn, h2⟩, h3, by simp; omega⟩
      · split at h
        · rename_i p' hp
          cases h
          obtain ⟨h1, h2, h3, h4⟩ := ih hp
          exact ⟨h1, ⟨hn, h2⟩, h3, by simp; omega⟩
        · cases h

/-- A path that exists is found. -/
theorem pathTo_complete {t : Tree} {s fuel n : Nat} {p : List Bool} (h1 : follow t n p = s)
    (h2 : throughInternal t n p) (h3 : s < 256) (h4 : p.length < fuel) : ∃ p', pathTo t s fuel n = some p' := by
  induction fuel generalizing n p with
  | zero => omega
  | succ fuel ih =>
    simp only [pathTo]
    cases p with
    | nil =>
      have : n = s := h1
      subst this
      exact ⟨[], by simp [h3]⟩
    | cons x p =>
      obtain ⟨hn, h2⟩ := h2
      rw [if_neg (Nat.not_lt.2 hn)]
      cases hl : pathTo t s fuel (t.nodeAt n).left.toNat with
      | some q => exact ⟨_, rfl⟩
      | none =>
        cases x with
        | false =>
          obtain ⟨q, hq⟩ := ih (n := (t.nodeAt n).left.toNat) h1 h2 (by simpa using h4)
          rw [hl] at hq; cases hq
        | true =>
          obtain ⟨q, hq⟩ := ih (n := (t.nodeAt n).right.toNat) h1 h2 (by simpa using h4)
          exact ⟨true :: q, by simp [hq]⟩

/-- No path to a leaf is a first part of a path to another leaf (rule R154). -/
theorem path_not_firstPart {t : Tree} {n s s' : Nat} {p q : List Bool} (h1 : follow t n p = s) (hs : s < 256)
    (h2 : follow t n q = s') (h3 : throughInternal t n q) (hpre : isFirstPart p q) : s = s' := by
  obtain ⟨rest, rfl⟩ := hpre
  rw [follow_append, h1] at h2
  rw [throughInternal_append, h1] at h3
  cases rest with
  | nil => exact h2
  | cons x rest => have := h3.2.1; omega

/-! ## Trees of TreeBuild -/

/-- TreeBuild makes one full binary tree over the symbols with nonzero frequency (rules R137, R139). -/
theorem treeBuild_facts (freq : Table (BitVec 32)) :
    (∀ s < 256, (treeBuild freq).has s ↔ freq.get 0 s ≠ 0) ∧
    (∀ n, 256 ≤ n → (treeBuild freq).has n →
      (treeBuild freq).has ((treeBuild freq).nodeAt n).left.toNat ∧
      (treeBuild freq).has ((treeBuild freq).nodeAt n).right.toNat ∧
      ((treeBuild freq).nodeAt n).left.toNat < n ∧ ((treeBuild freq).nodeAt n).right.toNat < n) ∧
    (∀ n, (treeBuild freq).has n → n ≠ (treeBuild freq).root.toNat → ∃ p, (treeBuild freq).parentOf p n) := by
  obtain ⟨hi, hl⟩ := finalBuilder_inv freq
  refine ⟨?_, ?_, ?_⟩
  · intro s hs
    rw [Tree.has, treeBuild_nodeAt, hi.leaf s hs]
    by_cases h : freq.get 0 s ≠ 0
    · rw [if_pos h]; simp only [leafNode_alloc, true_iff]; exact h
    · rw [if_neg h]; simp only [Node.none, Bool.false_eq_true, false_iff]; exact h
  · intro n hn hal
    rw [Tree.has, treeBuild_nodeAt] at hal
    have hlt := Builder.node_lt_next hi hal
    obtain ⟨h1, h2, h3, h4, -, -⟩ := hi.children n hn hlt
    simp only [Tree.has, treeBuild_nodeAt]
    exact ⟨h1, h2, h3, h4⟩
  · intro n hal hr
    rw [Tree.has, treeBuild_nodeAt] at hal
    have hnq : n ∉ (finalBuilder freq).q := by
      rcases treeBuild_root freq with ⟨-, hq, -⟩ | ⟨-, r, hq, -, hrr⟩
      · simp [hq]
      · rw [hq, List.mem_singleton, ← hrr]; exact hr
    obtain ⟨p, hp, -⟩ := hi.below n hal hnq
    refine ⟨p, ?_⟩
    simpa only [Tree.parentOf, Tree.has, treeBuild_nodeAt] using hp

/-- Every node of the tree is reached from the root, through internal nodes and with a path no longer than the ids it descends. -/
theorem treeBuild_reaches (freq : Table (BitVec 32)) (n : Nat) (h : (treeBuild freq).has n) :
    ∃ p, follow (treeBuild freq) (treeBuild freq).root.toNat p = n ∧
      throughInternal (treeBuild freq) (treeBuild freq).root.toNat p ∧
      p.length + max n 255 ≤ max (treeBuild freq).root.toNat 255 := by
  obtain ⟨hleaf, hchild, hpar⟩ := treeBuild_facts freq
  have key : ∀ k n, 511 - n ≤ k → (treeBuild freq).has n → ∃ p,
      follow (treeBuild freq) (treeBuild freq).root.toNat p = n ∧
      throughInternal (treeBuild freq) (treeBuild freq).root.toNat p ∧
      p.length + max n 255 ≤ max (treeBuild freq).root.toNat 255 := by
    intro k
    induction k with
    | zero =>
      intro n hk hn
      simp only [Tree.has, Tree.nodeAt] at hn
      rw [if_neg (by simp only [Config.nnode]; omega)] at hn
      simp [Node.none] at hn
    | succ k ih =>
      intro n hk hn
      by_cases hr : n = (treeBuild freq).root.toNat
      · exact ⟨[], hr.symm, trivial, by simp [← hr]⟩
      · obtain ⟨p, hp1, hp2, hp3⟩ := hpar n hn hr
        obtain ⟨-, -, hl, hrr⟩ := hchild p hp1 hp2
        have hlt : n < p := by rcases hp3 with h | h <;> omega
        obtain ⟨q, hq1, hq2, hq3⟩ := ih p (by omega) hp2
        rcases hp3 with hp3 | hp3
        · refine ⟨q ++ [false], ?_, ?_, ?_⟩
          · rw [follow_append, hq1]; exact hp3
          · rw [throughInternal_append, hq1]; exact ⟨hq2, hp1, trivial⟩
          · rw [List.length_append, List.length_singleton]; omega
        · refine ⟨q ++ [true], ?_, ?_, ?_⟩
          · rw [follow_append, hq1]; exact hp3
          · rw [throughInternal_append, hq1]; exact ⟨hq2, hp1, trivial⟩
          · rw [List.length_append, List.length_singleton]; omega
  exact key (511 - n) n (Nat.le_refl _) h

theorem treeBuild_root_lt (freq : Table (BitVec 32)) : (treeBuild freq).root.toNat < 511 := by
  rcases treeBuild_root freq with ⟨-, -, -, h⟩ | ⟨-, r, hq, -, h⟩
  · simp [h]
  · obtain ⟨hi, -⟩ := finalBuilder_inv freq
    have := Builder.node_lt_next hi (hi.q_alloc r (by simp [hq]))
    have := finalBuilder_next freq
    have := leafCount_le freq
    omega

theorem mem_leafCount {freq : Table (BitVec 32)} {s : Nat} (hs : s < 256) (hf : freq.get 0 s ≠ 0) : 1 ≤ leafCount freq := by
  have hm : s ∈ (List.range 256).filter (fun s => freq.get 0 s ≠ 0) := by simpa [hs] using hf
  have := List.length_pos_of_mem hm
  exact this

/-- What ASSIGN gives a symbol that occurs, when there are two or more of them: its path from the root, of 1 to 255 edges
(rules R151, R153). -/
theorem assignedEntry_path {freq : Table (BitVec 32)} {s : Nat} (h2 : 2 ≤ leafCount freq) (hs : s < 256)
    (hf : freq.get 0 s ≠ 0) :
    ∃ p, assignedEntry (treeBuild freq) s = codeEntry p ∧
      follow (treeBuild freq) (treeBuild freq).root.toNat p = s ∧
      throughInternal (treeBuild freq) (treeBuild freq).root.toNat p ∧ 1 ≤ p.length ∧ p.length ≤ 255 := by
  have hal := ((treeBuild_facts freq).1 s hs).2 hf
  obtain ⟨p, hp1, hp2, hp3⟩ := treeBuild_reaches freq s hal
  have hrl := treeBuild_root_lt freq
  obtain ⟨hr, -⟩ := treeBuild_root_internal freq h2
  obtain ⟨q, hq⟩ := pathTo_complete (fuel := 256) hp1 hp2 hs (by omega)
  obtain ⟨hq1, hq2, hq3, hq4⟩ := pathTo_some hq
  have hv := (treeBuild_rootV freq).2 (by omega)
  refine ⟨q, ?_, hq1, hq2, ?_, by omega⟩
  · rw [assignedEntry, if_neg (by simp [hv]), if_neg (by simpa [Config.nsym] using hr), if_pos hal]
    have hq' : pathTo (treeBuild freq) s (Config.maxLen + 1) (treeBuild freq).root.toNat = some q := hq
    rw [hq']
  · cases q with
    | nil => have : (treeBuild freq).root.toNat = s := hq1; omega
    | cons x q => simp

/-- The code of the only symbol that occurs is "0" (rule R152). -/
theorem assignedEntry_single {freq : Table (BitVec 32)} {s : Nat} (h1 : leafCount freq = 1) :
    assignedEntry (treeBuild freq) s =
      if s = (treeBuild freq).root.toNat then codeEntry [false] else LutEntry.none := by
  have hv := (treeBuild_rootV freq).2 (by omega)
  have hr := (treeBuild_root_leaf freq h1).1
  rw [assignedEntry, if_neg (by simp [hv]), if_pos (by simpa [Config.nsym] using hr)]

/-- Without a symbol there is no code (rule R150). -/
theorem assignedEntry_empty {freq : Table (BitVec 32)} (h0 : leafCount freq = 0) (s : Nat) :
    assignedEntry (treeBuild freq) s = LutEntry.none := by
  have hv : (treeBuild freq).rootV = false := by
    rw [← Bool.not_eq_true, treeBuild_rootV]; omega
  rw [assignedEntry, if_pos hv]

theorem codeLut_get (t : Tree) (s : Nat) :
    (codeLut t).get LutEntry.none s = if s < 256 then assignedEntry t s else LutEntry.none := Table.get_ofFn _ _ _ _

end Sys2Proof.Machine
end

