-- ==== Sys2Proof/Laws/Decode.lean ====
section
/-! SUPPORT. Decoding and encoding agree: what a word's fields are, how a word is made of them, and what each row of rule R82's
table says of the fields of the words that match it. -/

namespace Sys2Proof

theorem opcField_formatB (o : BitVec 8) (b : Byte) : opcField (formatB o b) = o := by
  apply BitVec.eq_of_getLsbD_eq
  intro i hi
  simp only [opcField, formatB, BitVec.getLsbD_extractLsb', BitVec.getLsbD_append]
  have h1 : ¬ (24 + i < 8) := by omega
  have h2 : ¬ (24 + i - 8 < 16) := by omega
  have h3 : 24 + i - 8 - 16 = i := by omega
  simp [hi, h1, h2, h3]

theorem opndField_formatB (o : BitVec 8) (b : Byte) : opndField (formatB o b) = b := by
  apply BitVec.eq_of_getLsbD_eq
  intro i hi
  simp only [opndField, formatB, BitVec.getLsbD_extractLsb', BitVec.getLsbD_append]
  simp [hi]

theorem rsvField_formatB (o : BitVec 8) (b : Byte) : rsvField (formatB o b) = 0 := by
  apply BitVec.eq_of_getLsbD_eq
  intro i hi
  have h1 : ¬ (8 + i < 8) := by omega
  have h2 : 8 + i - 8 < 16 := by omega
  simp only [rsvField, formatB, BitVec.getLsbD_extractLsb', BitVec.getLsbD_append, h1, h2]
  simp

/-- Every word is made of its three fields (rule R80). -/
theorem word_eq_fields (w : Word) : w = opcField w ++ rsvField w ++ opndField w := by
  apply BitVec.eq_of_getLsbD_eq
  intro i hi
  simp only [opcField, rsvField, opndField, BitVec.getLsbD_extractLsb', BitVec.getLsbD_append]
  by_cases h1 : i < 8
  · simp [h1]
  · by_cases h2 : i - 8 < 16
    · have : 8 + (i - 8) = i := by omega
      simp [h1, h2, this]
    · have h3 : i - 8 - 16 < 8 := by omega
      have h4 : 24 + (i - 8 - 16) = i := by omega
      simp [h1, h2, h3, h4]

/-- The three fields of a masked word are the masked fields. -/
theorem fields_and (w m : Word) :
    opcField (w &&& m) = opcField w &&& opcField m ∧ rsvField (w &&& m) = rsvField w &&& rsvField m ∧
      opndField (w &&& m) = opndField w &&& opndField m := by
  refine ⟨?_, ?_, ?_⟩ <;>
  · apply BitVec.eq_of_getLsbD_eq
    intro i hi
    simp [opcField, rsvField, opndField, hi]

/-- A word that a format-B row matches is that row's opcode with its own operand byte. -/
theorem formatB_of_masked {w : Word} {o : BitVec 8} (h : w &&& 0xFFFFFF00 = formatB o 0) :
    w = formatB o (opndField w) := by
  have hf := fields_and w 0xFFFFFF00
  rw [h, opcField_formatB] at hf
  have hm : opcField 0xFFFFFF00 = BitVec.allOnes 8 := by decide
  have hr : rsvField 0xFFFFFF00 = BitVec.allOnes 16 := by decide
  have hz : rsvField (formatB o 0) = 0 := rsvField_formatB o 0
  rw [hm, hr, hz, BitVec.and_allOnes, BitVec.and_allOnes] at hf
  conv_lhs => rw [word_eq_fields w, ← hf.1, ← hf.2.1]
  rfl

/-- A word that a format-N row matches is that row's word. -/
theorem eq_of_masked {w v : Word} (h : w &&& 0xFFFFFFFF = v) : w = v := by
  have : (0xFFFFFFFF : Word) = BitVec.allOnes 32 := by decide
  rwa [this, BitVec.and_allOnes] at h

/-- The row a decoded word was found in. -/
theorem decodeWord_ok {w : Word} {i : Instr} (h : decodeWord w = .ok i) :
    ∃ r ∈ opcodeTable, w &&& r.mask = r.matchWord ∧ r.command (opndField w) = i := by
  simp only [decodeWord] at h
  split at h
  · rename_i r hr
    refine ⟨r, List.mem_of_find?_eq_some hr, ?_, by simpa using h⟩
    simpa [OpcodeRow.matches] using List.find?_some hr
  · simp at h

/-- A word that a row matches is that row's command, encoded (rules R81, R82). -/
theorem encode_of_row {r : OpcodeRow} (hr : r ∈ opcodeTable) {w : Word} (h : w &&& r.mask = r.matchWord) :
    encode (r.command (opndField w)) = w := by
  simp only [opcodeTable, List.mem_cons, List.not_mem_nil, or_false] at hr
  rcases hr with rfl | rfl | rfl | rfl | rfl | rfl | rfl | rfl | rfl | rfl | rfl | rfl | rfl <;>
  first
  | exact (eq_of_masked h).symm
  | exact (formatB_of_masked h).symm

/-- The words of the 13 commands decode to them. -/
theorem decodeWord_formatB :
    ∀ b : Byte, decodeWord (formatB 0x10 b) = .ok (.cnt b) ∧ decodeWord (formatB 0x14 b) = .ok (.enc b) ∧
      decodeWord (formatB 0x20 b) = .ok (.hdrin b) ∧ decodeWord (formatB 0x21 b) = .ok (.dec b) := by
  decide +kernel

end Sys2Proof
end

