-- ==== Sys2Proof/Laws/Commands.lean ====
section
/-! SUPPORT. Every command except INIT as one dispatch of its body, and, for each body, everything it can do: when it
completes and with what, and when it raises which error. Proofs about commands cite these instead of unfolding `exec`. -/

namespace Sys2Proof.Machine

/-- The body of each command. INIT's is run in every phase (rule R102), the others' by the dispatch of rule R100. -/
def bodyOf : Instr → Block → Effect
  | .nop, b => .ok (b, [])
  | .init, _ => .ok (Block.reset, [])
  | .abortsrc, _ => .error .sourceRead
  | .abortsnk, _ => .error .sinkWrite
  | .cnt x, b => cntBody x b
  | .build, b => buildBody b
  | .assign, b => assignBody b
  | .hdrout, b => hdroutBody b
  | .enc x, b => encBody x b
  | .encend, b => encendBody b
  | .hdrin x, b => hdrinBody x b
  | .dec x, b => decBody x b
  | .decend, b => decendBody b

theorem exec_eq_issue {i : Instr} (h : i ≠ .init) (s : State) : exec i s = issue (encode i) (bodyOf i) s := by
  cases i <;> first | rfl | exact absurd rfl h

theorem exec_init (s : State) : exec .init s = .next (hostReset s) := by
  simp [exec, execInit, complete_silent, hostReset]

theorem exec_in_error {i : Instr} (h : i ≠ .init) {s : State} (hp : s.phase = .error) : exec i s = .next s := by
  rw [exec_eq_issue h, issue_in_error hp]

/-- Outside ERROR every command, INIT too, ends as its body says. -/
theorem exec_running {i : Instr} {s : State} (hp : s.phase ≠ .error) :
    exec i s = complete (encode i) (bodyOf i s.toBlock) s := by
  by_cases h : i = .init
  · subst h; rfl
  · rw [exec_eq_issue h, issue_running hp]

/-- Everything a command can do. -/
theorem exec_next {i : Instr} {s t : State} (h : exec i s = .next t) :
    (i = .init ∧ t = hostReset s) ∨
    (i ≠ .init ∧ s.phase = .error ∧ t = s) ∨
    (i ≠ .init ∧ s.phase ≠ .error ∧ ∃ c, bodyOf i s.toBlock = .error c ∧ t = s.raise c (encode i)) ∨
    (i ≠ .init ∧ s.phase ≠ .error ∧ ∃ b bytes, bodyOf i s.toBlock = .ok (b, bytes) ∧
      (bytes = [] ∨ s.outReady = true) ∧ t = { s with toBlock := b, out := s.out ++ bytes }) ∨
    (i ≠ .init ∧ s.phase ≠ .error ∧ ∃ b bytes, bodyOf i s.toBlock = .ok (b, bytes) ∧ bytes ≠ [] ∧
      s.outReady = false ∧ t = { s with busy := some ⟨encode i, 0⟩ }) := by
  by_cases hi : i = .init
  · subst hi
    rw [exec_init] at h
    exact .inl ⟨rfl, by simpa using h.symm⟩
  · rw [exec_eq_issue hi] at h
    rcases issue_next h with ⟨hp, ht⟩ | ⟨hp, h⟩ | ⟨hp, h⟩ | ⟨hp, h⟩
    · exact .inr (.inl ⟨hi, hp, ht⟩)
    · exact .inr (.inr (.inl ⟨hi, hp, h⟩))
    · exact .inr (.inr (.inr (.inl ⟨hi, hp, h⟩)))
    · exact .inr (.inr (.inr (.inr ⟨hi, hp, h⟩)))

/-- A command whose body completes, with a host that takes its bytes, completes so. -/
theorem exec_completes {i : Instr} {s : State} {b : Block} {bytes : List Byte} (hp : s.phase ≠ .error)
    (h : bodyOf i s.toBlock = .ok (b, bytes)) (hr : bytes = [] ∨ s.outReady = true) :
    exec i s = .next { s with toBlock := b, out := s.out ++ bytes } := by
  rw [exec_running hp, h, complete_ok hr]

/-- A command whose body raises enters the error. -/
theorem exec_raises {i : Instr} {s : State} {c : ErrCode} (hp : s.phase ≠ .error)
    (h : bodyOf i s.toBlock = .error c) : exec i s = .next (s.raise c (encode i)) := by
  rw [exec_running hp, h, complete_error]

/-- A command whose body completes with bytes, and a host that takes none: it waits (rule R267). -/
theorem exec_waits {i : Instr} {s : State} {b : Block} {bytes : List Byte} (hp : s.phase ≠ .error)
    (h : bodyOf i s.toBlock = .ok (b, bytes)) (hb : bytes ≠ []) (hr : s.outReady = false) :
    exec i s = .next { s with busy := some ⟨encode i, 0⟩ } := by
  rw [exec_running hp, h, complete_waits hb hr]

/-- Every command answers a next state in every state. -/
theorem exec_answers (i : Instr) (s : State) : ∃ t, exec i s = .next t := by
  by_cases hi : i = .init
  · subst hi; exact ⟨_, exec_init s⟩
  · rw [exec_eq_issue hi]; exact issue_answers _ _ _

/-! ## Each body, once -/

theorem cntBody_ok {x : Byte} {b b' : Block} {o : List Byte} (h : cntBody x b = .ok (b', o)) :
    b.phase ∈ [.idle, .count] ∧ b.freqAt x.toNat ≠ 0xFFFFFFFF ∧ o = [] ∧
      b' = { b with freq := setFreq b.freq x.toNat (b.freqAt x.toNat + 1), total := b.total + 1, phase := .count } := by
  obtain ⟨hp, h⟩ := requirePhase_eq_ok.1 h
  split at h
  · cases h
  · rename_i hf
    cases h
    exact ⟨hp, hf, rfl, rfl⟩

theorem cntBody_completes {x : Byte} {b : Block} (hp : b.phase ∈ [.idle, .count]) (hf : b.freqAt x.toNat ≠ 0xFFFFFFFF) :
    cntBody x b = .ok ({ b with
      freq := setFreq b.freq x.toNat (b.freqAt x.toNat + 1)
      total := b.total + 1
      phase := .count }, []) := by rw [cntBody, requirePhase_legal hp, if_neg hf]

theorem cntBody_error {x : Byte} {b : Block} {c : ErrCode} (h : cntBody x b = .error c) :
    (b.phase ∉ [.idle, .count] ∧ c = .sequence) ∨
      (b.phase ∈ [.idle, .count] ∧ b.freqAt x.toNat = 0xFFFFFFFF ∧ c = .freqOverflow) := by
  rcases requirePhase_eq_error.1 h with ⟨hp, h⟩ | ⟨hp, h⟩
  · exact .inl ⟨hp, h.symm⟩
  · split at h
    · cases h; exact .inr ⟨hp, ‹_›, rfl⟩
    · cases h

theorem buildBody_ok {b b' : Block} {o : List Byte} (h : buildBody b = .ok (b', o)) :
    b.phase ∈ [.idle, .count, .hdone] ∧ o = [] ∧
      b' = { b with
        tree := treeBuild b.freq
        walk := if (treeBuild b.freq).rootV then (treeBuild b.freq).root else 0
        symcnt := 0
        bitcnt := 0
        phase := if b.phase = .hdone then .dec else .cbuilt } := by
  obtain ⟨hp, h⟩ := requirePhase_eq_ok.1 h
  cases h
  exact ⟨hp, rfl, rfl⟩

theorem buildBody_error {b : Block} {c : ErrCode} (h : buildBody b = .error c) :
    b.phase ∉ [.idle, .count, .hdone] ∧ c = buildPhaseError b.phase := by
  rcases requirePhase_eq_error.1 h with ⟨hp, h⟩ | ⟨hp, h⟩
  · exact ⟨hp, h.symm⟩
  · cases h

theorem assignBody_ok {b b' : Block} {o : List Byte} (h : assignBody b = .ok (b', o)) :
    b.phase = .cbuilt ∧ o = [] ∧
      b' = { b with lut := codeLut b.tree, rem := b.freq, acc := 0, fill := 0, phase := .coded } := by
  obtain ⟨hp, h⟩ := requirePhase_eq_ok.1 h
  cases h
  exact ⟨by simpa using hp, rfl, rfl⟩

theorem assignBody_error {b : Block} {c : ErrCode} (h : assignBody b = .error c) :
    b.phase ≠ .cbuilt ∧ c = .sequence := by
  rcases requirePhase_eq_error.1 h with ⟨hp, h⟩ | ⟨hp, h⟩
  · exact ⟨by simpa using hp, h.symm⟩
  · cases h

theorem hdroutBody_ok {b b' : Block} {o : List Byte} (h : hdroutBody b = .ok (b', o)) :
    b.phase = .coded ∧ o = headerBytes b.freq ∧ b' = { b with phase := .enc } := by
  obtain ⟨hp, h⟩ := requirePhase_eq_ok.1 h
  cases h
  exact ⟨by simpa using hp, rfl, rfl⟩

theorem hdroutBody_error {b : Block} {c : ErrCode} (h : hdroutBody b = .error c) :
    b.phase ≠ .coded ∧ c = .sequence := by
  rcases requirePhase_eq_error.1 h with ⟨hp, h⟩ | ⟨hp, h⟩
  · exact ⟨by simpa using hp, h.symm⟩
  · cases h

theorem encBody_ok {x : Byte} {b b' : Block} {o : List Byte} (h : encBody x b = .ok (b', o)) :
    b.phase = .enc ∧ b.remAt x.toNat ≠ 0 ∧
      o = (packBits ⟨b.acc, b.fill, []⟩ (b.lutAt x.toNat).bits).outs ∧
      b' = { b with
        acc := (packBits ⟨b.acc, b.fill, []⟩ (b.lutAt x.toNat).bits).acc
        fill := (packBits ⟨b.acc, b.fill, []⟩ (b.lutAt x.toNat).bits).fill
        rem := setRem b.rem x.toNat (b.remAt x.toNat - 1)
        symcnt := b.symcnt + 1
        bitcnt := b.bitcnt + (b.lutAt x.toNat).len.setWidth 48 } := by
  obtain ⟨hp, h⟩ := requirePhase_eq_ok.1 h
  split at h
  · cases h
  · rename_i hr
    cases h
    exact ⟨by simpa using hp, hr, rfl, rfl⟩

theorem encBody_completes {x : Byte} {b : Block} {p : Packer} (hp : b.phase = .enc) (hr : b.remAt x.toNat ≠ 0)
    (h : packBits ⟨b.acc, b.fill, []⟩ (b.lutAt x.toNat).bits = p) :
    encBody x b = .ok ({ b with
      acc := p.acc
      fill := p.fill
      rem := setRem b.rem x.toNat (b.remAt x.toNat - 1)
      symcnt := b.symcnt + 1
      bitcnt := b.bitcnt + (b.lutAt x.toNat).len.setWidth 48 }, p.outs) := by
  subst h; rw [encBody, requirePhase_legal (by simp [hp]), if_neg hr]

theorem encBody_error {x : Byte} {b : Block} {c : ErrCode} (h : encBody x b = .error c) :
    (b.phase ≠ .enc ∧ c = .sequence) ∨ (b.phase = .enc ∧ b.remAt x.toNat = 0 ∧ c = .sourceMismatch) := by
  rcases requirePhase_eq_error.1 h with ⟨hp, h⟩ | ⟨hp, h⟩
  · exact .inl ⟨by simpa using hp, h.symm⟩
  · split at h
    · cases h; exact .inr ⟨by simpa using hp, ‹_›, rfl⟩
    · cases h

theorem encendBody_ok {b b' : Block} {o : List Byte} (h : encendBody b = .ok (b', o)) :
    b.phase = .enc ∧ b.symcnt = b.total ∧ o = flushBytes b.acc b.fill ∧
      b' = { b with acc := if b.fill = 0 then b.acc else 0, fill := 0, phase := .edone } := by
  obtain ⟨hp, h⟩ := requirePhase_eq_ok.1 h
  split at h
  · cases h
  · rename_i hs
    cases h
    exact ⟨by simpa using hp, by simpa using hs, rfl, rfl⟩

theorem encendBody_error {b : Block} {c : ErrCode} (h : encendBody b = .error c) :
    (b.phase ≠ .enc ∧ c = .sequence) ∨ (b.phase = .enc ∧ b.symcnt ≠ b.total ∧ c = .sourceMismatch) := by
  rcases requirePhase_eq_error.1 h with ⟨hp, h⟩ | ⟨hp, h⟩
  · exact .inl ⟨by simpa using hp, h.symm⟩
  · split at h
    · cases h; exact .inr ⟨by simpa using hp, ‹_›, rfl⟩
    · cases h

/-- The block after one more header byte that does not complete the header. -/
theorem hdrinBody_ok {x : Byte} {b b' : Block} {o : List Byte} (h : hdrinBody x b = .ok (b', o)) :
    b.phase ∈ [.idle, .hload] ∧ o = [] ∧
      ((b.hdrpos + 1 = 1024 ∧
        b' = { b with
          freq := putHeaderByte b.freq b.hdrpos.toNat x
          hdrpos := b.hdrpos + 1
          total := BitVec.ofNat 40 (freqSum (putHeaderByte b.freq b.hdrpos.toNat x))
          phase := .hdone }) ∨
       (b.hdrpos + 1 ≠ 1024 ∧
        b' = { b with
          freq := putHeaderByte b.freq b.hdrpos.toNat x
          hdrpos := b.hdrpos + 1
          phase := .hload })) := by
  obtain ⟨hp, h⟩ := requirePhase_eq_ok.1 h
  simp only at h
  split at h
  · cases h; exact ⟨hp, rfl, .inl ⟨‹_›, rfl⟩⟩
  · cases h; exact ⟨hp, rfl, .inr ⟨‹_›, rfl⟩⟩

theorem hdrinBody_error {x : Byte} {b : Block} {c : ErrCode} (h : hdrinBody x b = .error c) :
    b.phase ∉ [.idle, .hload] ∧ c = .sequence := by
  rcases requirePhase_eq_error.1 h with ⟨hp, h⟩ | ⟨hp, h⟩
  · exact ⟨hp, h.symm⟩
  · simp only at h
    split at h <;> cases h

theorem decBody_ok {x : Byte} {b b' : Block} {o : List Byte} (h : decBody x b = .ok (b', o)) :
    b.phase = .dec ∧ b.symcnt ≠ b.total ∧
      ∃ l, decBits b ⟨b.walk, b.symcnt, b.bitcnt, []⟩ (bitsOfByte x) = .ok l ∧ o = l.outs ∧
        b' = { b with walk := l.walk, symcnt := l.symcnt, bitcnt := l.bitcnt } := by
  obtain ⟨hp, h⟩ := requirePhase_eq_ok.1 h
  split at h
  · cases h
  · rename_i hs
    split at h
    · cases h
    · rename_i l hl
      cases h
      exact ⟨by simpa using hp, hs, l, hl, rfl, rfl⟩

theorem decBody_error {x : Byte} {b : Block} {c : ErrCode} (h : decBody x b = .error c) :
    (b.phase ≠ .dec ∧ c = .sequence) ∨
      (b.phase = .dec ∧ b.symcnt = b.total ∧ c = .malformedContainer) ∨
      (b.phase = .dec ∧ b.symcnt ≠ b.total ∧
        decBits b ⟨b.walk, b.symcnt, b.bitcnt, []⟩ (bitsOfByte x) = .error c) := by
  rcases requirePhase_eq_error.1 h with ⟨hp, h⟩ | ⟨hp, h⟩
  · exact .inl ⟨by simpa using hp, h.symm⟩
  · have hp : b.phase = .dec := by simpa using hp
    split at h
    · cases h; exact .inr (.inl ⟨hp, ‹_›, rfl⟩)
    · rename_i hs
      split at h
      · rename_i c' hc
        cases h; exact .inr (.inr ⟨hp, hs, hc⟩)
      · cases h

theorem decBody_completes {x : Byte} {b : Block} {l : Walker} (hp : b.phase = .dec) (hs : b.symcnt ≠ b.total)
    (hl : decBits b ⟨b.walk, b.symcnt, b.bitcnt, []⟩ (bitsOfByte x) = .ok l) :
    decBody x b = .ok ({ b with walk := l.walk, symcnt := l.symcnt, bitcnt := l.bitcnt }, l.outs) := by
  rw [decBody, requirePhase_legal (by simp [hp]), if_neg hs, hl]

theorem decendBody_ok {b b' : Block} {o : List Byte} (h : decendBody b = .ok (b', o)) :
    b.phase = .dec ∧ b.symcnt = b.total ∧ o = [] ∧ b' = { b with phase := .ddone } := by
  obtain ⟨hp, h⟩ := requirePhase_eq_ok.1 h
  split at h
  · cases h
  · rename_i hs
    cases h
    exact ⟨by simpa using hp, by simpa using hs, rfl, rfl⟩

theorem decendBody_error {b : Block} {c : ErrCode} (h : decendBody b = .error c) :
    (b.phase ≠ .dec ∧ c = decendPhaseError b.phase) ∨
      (b.phase = .dec ∧ b.symcnt ≠ b.total ∧ c = .malformedContainer) := by
  rcases requirePhase_eq_error.1 h with ⟨hp, h⟩ | ⟨hp, h⟩
  · exact .inl ⟨by simpa using hp, h.symm⟩
  · split at h
    · cases h; exact .inr ⟨by simpa using hp, ‹_›, rfl⟩
    · cases h

/-- One bit of a decode: everything it can do when it raises nothing (rules R211, R213, R214). -/
theorem decBit_ok {b : Block} {l l' : Walker} {x : Bool} (h : decBit b l x = .ok l') :
    (l.symcnt = b.total ∧ x = false ∧ l' = l) ∨
    (l.symcnt ≠ b.total ∧ b.tree.nleaf = 1 ∧
      l' = { l with symcnt := l.symcnt + 1, bitcnt := l.bitcnt + 1, outs := l.outs ++ [b.tree.root.setWidth 8] }) ∨
    (l.symcnt ≠ b.total ∧ b.tree.nleaf ≠ 1 ∧ 256 ≤ l.walk.toNat ∧ b.tree.has l.walk.toNat ∧
      ∃ child, child = (if x then (b.tree.nodeAt l.walk.toNat).right else (b.tree.nodeAt l.walk.toNat).left) ∧
        ((child.toNat < 256 ∧
          l' = ⟨b.tree.root, l.symcnt + 1, l.bitcnt + 1, l.outs ++ [child.setWidth 8]⟩) ∨
         (256 ≤ child.toNat ∧ l' = { l with walk := child, bitcnt := l.bitcnt + 1 }))) := by
  unfold decBit at h
  split at h
  · split at h
    · cases h
    · cases h; exact .inl ⟨‹_›, by simp_all, rfl⟩
  · rename_i hs
    split at h
    · cases h; exact .inr (.inl ⟨hs, ‹_›, rfl⟩)
    · rename_i hn
      split at h
      · rename_i hw
        refine .inr (.inr ⟨hs, hn, hw.1, hw.2, _, rfl, ?_⟩)
        simp only at h
        split at h <;> split at h <;> (cases h; simp_all)
      · cases h

/-- The only errors of a bit: a 1 among the padding, or a walk from a node with no child. -/
theorem decBit_error {b : Block} {l : Walker} {x : Bool} {c : ErrCode} (h : decBit b l x = .error c) :
    (l.symcnt = b.total ∧ x = true ∧ c = .malformedContainer) ∨
    (l.symcnt ≠ b.total ∧ b.tree.nleaf ≠ 1 ∧ ¬ (256 ≤ l.walk.toNat ∧ b.tree.has l.walk.toNat) ∧
      c = .decodeTraversal) := by
  unfold decBit at h
  split at h
  · split at h
    · cases h; exact .inl ⟨‹_›, ‹_›, rfl⟩
    · cases h
  · rename_i hs
    split at h
    · cases h
    · rename_i hn
      split at h
      · simp only at h
        split at h <;> split at h <;> cases h
      · rename_i hw
        cases h; exact .inr ⟨hs, hn, hw, rfl⟩

theorem decBits_cons (b : Block) (l : Walker) (x : Bool) (rest : List Bool) :
    decBits b l (x :: rest) = match decBit b l x with | .error c => .error c | .ok l' => decBits b l' rest := rfl

/-- A property that one bit keeps is kept by a byte. -/
theorem decBits_keeps {b : Block} {P : Walker → Prop} (hstep : ∀ l x l', P l → decBit b l x = .ok l' → P l')
    {bits : List Bool} {l l' : Walker} (hl : P l) (h : decBits b l bits = .ok l') : P l' := by
  induction bits generalizing l with
  | nil => cases h; exact hl
  | cons x rest ih =>
    rw [decBits_cons] at h
    split at h
    · cases h
    · rename_i l1 h1
      exact ih (hstep l x l1 hl h1) h

/-- The error of a byte is the error of one of its bits, met in a state that the bits before it kept. -/
theorem decBits_error {b : Block} {P : Walker → Prop} (hstep : ∀ l x l', P l → decBit b l x = .ok l' → P l')
    {bits : List Bool} {l : Walker} {c : ErrCode} (hl : P l) (h : decBits b l bits = .error c) :
    ∃ l1 x, P l1 ∧ decBit b l1 x = .error c := by
  induction bits generalizing l with
  | nil => cases h
  | cons x rest ih =>
    rw [decBits_cons] at h
    split at h
    · cases h; exact ⟨l, x, hl, ‹_›⟩
    · rename_i l1 h1
      exact ih (hstep l x l1 hl h1) h

theorem decBits_append (b : Block) (l : Walker) (xs ys : List Bool) :
    decBits b l (xs ++ ys) = match decBits b l xs with | .error c => .error c | .ok l' => decBits b l' ys := by
  induction xs generalizing l with
  | nil => rfl
  | cons x rest ih =>
    simp only [List.cons_append, decBits_cons]
    cases decBit b l x with
    | error c => rfl
    | ok l1 => exact ih l1

end Sys2Proof.Machine
end

