-- ==== Sys2Proof/Laws/Container.lean ====
section
/-! SUPPORT. Header bytes (rules R190 to R192): a byte of an entry read after one is written, an entry as its four bytes, and the
header as the bytes of the entries in order. -/

namespace Sys2Proof.Machine

/-- A byte lane read after a byte lane is written (rule R192). -/
theorem entryByte_setEntryByte (v : BitVec 32) (x : Byte) {j k : Nat} (hj : j < 4) (hk : k < 4) :
    entryByte (setEntryByte v j x) k = if k = j then x else entryByte v k := by
  apply BitVec.eq_of_getLsbD_eq
  intro i hi
  have hmask : ∀ m, (255#32).getLsbD m = decide (m < 8) := by
    intro m
    have : (255#32) = (BitVec.allOnes 8).setWidth 32 := by decide
    rw [this]
    simp only [BitVec.getLsbD_setWidth, BitVec.getLsbD_allOnes]
    by_cases h : m < 8 <;> simp [h]; omega
  simp only [entryByte, setEntryByte, BitVec.getLsbD_extractLsb', BitVec.getLsbD_or, BitVec.getLsbD_and,
    BitVec.getLsbD_not, BitVec.getLsbD_shiftLeft, BitVec.getLsbD_setWidth, hi, decide_true, Bool.true_and]
  have hb : 24 - 8 * k + i < 32 := by omega
  by_cases h : k = j
  · subst h
    rw [if_pos rfl]
    have h1 : ¬ (24 - 8 * k + i < 24 - 8 * k) := by omega
    have h2 : 24 - 8 * k + i - (24 - 8 * k) = i := by omega
    have h3 : i < 32 := by omega
    simp [hb, h1, h2, h3, hmask, hi]
  · rw [if_neg h]
    simp only [BitVec.getLsbD_extractLsb', hi, decide_true, Bool.true_and]
    rcases Nat.lt_or_gt_of_ne h with h | h
    · -- lane k lies above lane j
      have h1 : ¬ (24 - 8 * k + i < 24 - 8 * j) := by omega
      have h2 : ¬ (24 - 8 * k + i - (24 - 8 * j) < 8) := by omega
      have h3 : x.getLsbD (24 - 8 * k + i - (24 - 8 * j)) = false := BitVec.getLsbD_of_ge _ _ (by omega)
      simp [hb, h1, h2, h3, hmask]
    · have h1 : 24 - 8 * k + i < 24 - 8 * j := by omega
      simp [hb, h1]

/-- An entry is its four bytes. -/
theorem entry_ext {v w : BitVec 32} (h : ∀ j < 4, entryByte v j = entryByte w j) : v = w := by
  apply BitVec.eq_of_getLsbD_eq
  intro i hi
  have hj := congrArg (fun b => b.getLsbD (i % 8)) (h (3 - i / 8) (by omega))
  simp only [entryByte, BitVec.getLsbD_extractLsb'] at hj
  have h1 : i % 8 < 8 := by omega
  have h2 : 24 - 8 * (3 - i / 8) + i % 8 = i := by omega
  simpa [h1, h2] using hj

theorem entryByte_zero (j : Nat) : entryByte 0 j = 0 := by
  apply BitVec.eq_of_getLsbD_eq
  intro i hi
  simp [entryByte]

theorem entryBytes_length (v : BitVec 32) : (entryBytes v).length = 4 := by simp [entryBytes, Config.hdrEntryBytes]

theorem headerBytes_take (freq : Table (BitVec 32)) (n : Nat) :
    (((List.range n).flatMap fun i => entryBytes (freq.get 0 i))).length = 4 * n := by
  induction n with
  | zero => rfl
  | succ n ih =>
    simp only [List.range_succ, List.flatMap_append, List.flatMap_cons, List.flatMap_nil, List.append_nil,
      List.length_append, ih, entryBytes_length]
    omega

/-- The header has 1024 bytes (rule R190). -/
theorem headerBytes_length (freq : Table (BitVec 32)) : (headerBytes freq).length = 1024 := headerBytes_take freq 256

theorem flatMap_range_getElem? (freq : Table (BitVec 32)) (n k : Nat) (hk : k < 4 * n) :
    ((List.range n).flatMap fun i => entryBytes (freq.get 0 i))[k]? = some (entryByte (freq.get 0 (k / 4)) (k % 4)) := by
  induction n with
  | zero => omega
  | succ n ih =>
    simp only [List.range_succ, List.flatMap_append, List.flatMap_cons, List.flatMap_nil, List.append_nil]
    by_cases h : k < 4 * n
    · rw [List.getElem?_append_left (by rw [headerBytes_take]; exact h)]; exact ih h
    · rw [List.getElem?_append_right (by rw [headerBytes_take]; omega), headerBytes_take]
      have h1 : k / 4 = n := by omega
      have h2 : k - 4 * n = k % 4 := by omega
      have h3 : k % 4 < 4 := by omega
      rw [h1, h2]
      simp [entryBytes, Config.hdrEntryBytes, h3]

/-- Header byte number k is byte `k mod 4` of entry `k / 4` (rule R190). -/
theorem headerBytes_getElem? (freq : Table (BitVec 32)) (k : Nat) (hk : k < 1024) :
    (headerBytes freq)[k]? = some (entryByte (freq.get 0 (k / 4)) (k % 4)) := flatMap_range_getElem? freq 256 k hk

/-- What one header byte writes (rule R192). -/
theorem putHeaderByte_get (freq : Table (BitVec 32)) {pos : Nat} (hpos : pos < 1024) (x : Byte) (i : Nat) :
    (putHeaderByte freq pos x).get 0 i =
      if i = pos / 4 then setEntryByte (freq.get 0 (pos / 4)) (pos % 4) x else freq.get 0 i :=
  Table.get_set freq (size := Config.nsym) (by simp only [Config.nsym]; omega) _ _

end Sys2Proof.Machine
end

