-- ==== Sys2Proof/Laws/Packer.lean ====
section
/-! SUPPORT. The packer (rules R170, R173, R174): the bits of the bytes emitted, followed by the bits that wait, are the bits put
in, in order. -/

namespace Sys2Proof.Machine

/-- The `f` low bits of ACC, the earliest first. -/
def lowBits (acc : BitVec 8) (f : Nat) : List Bool := (List.range f).map fun i => acc.getLsbD (f - 1 - i)

theorem pendingBits_eq (acc : BitVec 8) (fill : BitVec 3) : pendingBits acc fill = lowBits acc fill.toNat := rfl

theorem bitsOfByte_eq (b : Byte) : bitsOfByte b = lowBits b 8 := rfl

theorem bitsOfByte_length (b : Byte) : (bitsOfByte b).length = 8 := rfl

theorem lowBits_length (acc : BitVec 8) (f : Nat) : (lowBits acc f).length = f := by simp [lowBits]

theorem lowBits_shift (acc : BitVec 8) (x : Bool) (f : Nat) (hf : f ≤ 7) :
    lowBits ((acc <<< 1) ||| (if x then 1 else 0)) (f + 1) = lowBits acc f ++ [x] := by
  simp only [lowBits, List.range_succ, List.map_append, List.map_cons, List.map_nil]
  congr 1
  · apply List.map_congr_left
    intro i hi
    have hi := List.mem_range.1 hi
    have h1 : f + 1 - 1 - i = (f - 1 - i) + 1 := by omega
    rw [h1]
    have hone : (if x then (1 : BitVec 8) else 0).getLsbD (f - 1 - i + 1) = false := by
      cases x
      · simp
      · show (1#8).getLsbD _ = false
        rw [BitVec.getLsbD_one]; simp
    rw [BitVec.getLsbD_or, hone, Bool.or_false, BitVec.getLsbD_shiftLeft]
    have h2 : f - 1 - i + 1 < 8 := by omega
    simp [h2]
  · cases x <;> simp

theorem unpackBytes_append (xs ys : List Byte) : unpackBytes (xs ++ ys) = unpackBytes xs ++ unpackBytes ys := by
  simp [unpackBytes]

theorem unpackBytes_length (xs : List Byte) : (unpackBytes xs).length = 8 * xs.length := by
  induction xs with
  | nil => rfl
  | cons x xs ih =>
    have : unpackBytes (x :: xs) = bitsOfByte x ++ unpackBytes xs := rfl
    rw [this, List.length_append, ih, bitsOfByte_length, List.length_cons]; omega

/-- The eighth bit of a byte emits it (rule R170). -/
theorem packBit_full {p : Packer} (h : p.fill.toNat = 7) (x : Bool) :
    packBit p x = ⟨0, 0, p.outs ++ [(p.acc <<< 1) ||| (if x then 1 else 0)]⟩ := by
  rw [packBit, if_pos (by omega)]

/-- Any other bit waits (rule R170). -/
theorem packBit_more {p : Packer} (h : p.fill.toNat ≠ 7) (x : Bool) :
    packBit p x = ⟨(p.acc <<< 1) ||| (if x then 1 else 0), p.fill + 1, p.outs⟩ := by
  rw [packBit, if_neg (by omega)]

theorem fill_succ {f : BitVec 3} (h : f.toNat ≠ 7) : (f + 1).toNat = f.toNat + 1 := by
  have hf := f.isLt
  rw [BitVec.toNat_add]
  have : (1 : BitVec 3).toNat = 1 := rfl
  omega

theorem packBit_bits (p : Packer) (x : Bool) :
    unpackBytes (packBit p x).outs ++ pendingBits (packBit p x).acc (packBit p x).fill =
      unpackBytes p.outs ++ pendingBits p.acc p.fill ++ [x] := by
  have hf := p.fill.isLt
  by_cases h : p.fill.toNat = 7
  · have hone : ∀ b, unpackBytes [b] = lowBits b 8 := fun b => by simp [unpackBytes, bitsOfByte_eq]
    have hnil : ∀ b, lowBits b 0 = [] := fun _ => rfl
    rw [packBit_full h, unpackBytes_append, hone, lowBits_shift p.acc x 7 (by omega), pendingBits_eq, pendingBits_eq, h]
    simp [hnil]
  · rw [packBit_more h, pendingBits_eq, pendingBits_eq, fill_succ h, lowBits_shift p.acc x _ (by omega),
      List.append_assoc]

/-- The packing law: nothing is lost, and the order is kept (rule R174). -/
theorem packBits_bits (p : Packer) (bits : List Bool) :
    unpackBytes (packBits p bits).outs ++ pendingBits (packBits p bits).acc (packBits p bits).fill =
      unpackBytes p.outs ++ pendingBits p.acc p.fill ++ bits := by
  induction bits generalizing p with
  | nil => simp [packBits]
  | cons x rest ih =>
    have h := ih (packBit p x)
    have hstep : packBits p (x :: rest) = packBits (packBit p x) rest := rfl
    rw [hstep, h, packBit_bits]; simp

theorem packBits_append (p : Packer) (xs ys : List Bool) : packBits p (xs ++ ys) = packBits (packBits p xs) ys := by
  simp [packBits]

/-- What was emitted before does not touch the packer: it only comes first. -/
theorem packBits_outs (acc : BitVec 8) (fill : BitVec 3) (outs : List Byte) (bits : List Bool) :
    packBits ⟨acc, fill, outs⟩ bits =
      ⟨(packBits ⟨acc, fill, []⟩ bits).acc, (packBits ⟨acc, fill, []⟩ bits).fill,
        outs ++ (packBits ⟨acc, fill, []⟩ bits).outs⟩ := by
  induction bits generalizing acc fill outs with
  | nil => simp [packBits]
  | cons x rest ih =>
    have hstep : ∀ q, packBits q (x :: rest) = packBits (packBit q x) rest := fun _ => rfl
    rw [hstep, hstep]
    by_cases h : fill.toNat = 7
    · rw [packBit_full h, packBit_full h, ih, ih (outs := [] ++ [_])]; simp
    · rw [packBit_more h, packBit_more h]
      exact ih _ _ _

/-- Rule R170's bound: the waiting bits fit below FILL, whatever is packed. -/
theorem packBit_fits {p : Packer} (h : p.acc.toNat < 2 ^ p.fill.toNat) (x : Bool) :
    (packBit p x).acc.toNat < 2 ^ (packBit p x).fill.toNat := by
  by_cases h7 : p.fill.toNat = 7
  · rw [packBit_full h7]; simp
  · rw [packBit_more h7]
    simp only [fill_succ h7, BitVec.toNat_or, BitVec.toNat_shiftLeft]
    refine Nat.or_lt_two_pow ?_ ?_
    · refine Nat.lt_of_le_of_lt (Nat.mod_le _ _) ?_
      rw [Nat.shiftLeft_eq, pow_succ]; omega
    · cases x
      · simp
      · have h1 : (if true then (1 : BitVec 8) else 0).toNat = 1 := rfl
        rw [h1, pow_succ]
        have := Nat.one_le_two_pow (n := p.fill.toNat)
        omega

theorem packBits_fits {p : Packer} (h : p.acc.toNat < 2 ^ p.fill.toNat) (bits : List Bool) :
    (packBits p bits).acc.toNat < 2 ^ (packBits p bits).fill.toNat := by
  induction bits generalizing p with
  | nil => exact h
  | cons x rest ih => exact ih (packBit_fits h x)

/-- The last byte of a bitstream holds the waiting bits, then zeros (rule R173). -/
theorem flushBytes_bits (acc : BitVec 8) (fill : BitVec 3) :
    unpackBytes (flushBytes acc fill) =
      if fill = 0 then [] else pendingBits acc fill ++ List.replicate (8 - fill.toNat) false := by
  have hf := fill.isLt
  by_cases h : fill = 0
  · simp [flushBytes, h, unpackBytes]
  · have hpos : fill.toNat ≠ 0 := fun h0 => h (by apply BitVec.eq_of_toNat_eq; simpa using h0)
    have hone : unpackBytes [acc <<< (8 - fill.toNat)] = lowBits (acc <<< (8 - fill.toNat)) 8 := by
      simp [unpackBytes, bitsOfByte_eq]
    rw [flushBytes, if_neg h, if_neg h, hone, pendingBits_eq]
    apply List.ext_getElem
    · simp [lowBits_length]; omega
    · intro i h1 h2
      have hi : i < 8 := by simpa [lowBits_length] using h1
      by_cases hlt : i < fill.toNat
      · rw [List.getElem_append_left (by simpa [lowBits_length] using hlt)]
        simp only [lowBits, List.getElem_map, List.getElem_range, BitVec.getLsbD_shiftLeft]
        have h3 : 8 - 1 - i < 8 := by omega
        have h4 : ¬ (8 - 1 - i < 8 - fill.toNat) := by omega
        have h5 : 8 - 1 - i - (8 - fill.toNat) = fill.toNat - 1 - i := by omega
        simp [h3, h4, h5]
      · rw [List.getElem_append_right (by simpa [lowBits_length] using hlt)]
        simp only [lowBits, List.getElem_map, List.getElem_range, BitVec.getLsbD_shiftLeft, List.getElem_replicate]
        have h4 : 8 - 1 - i < 8 - fill.toNat := by omega
        simp [h4]

end Sys2Proof.Machine
end

