-- ==== Sys2Proof/Laws/Invariant.lean ====
section
/-! SUPPORT. The invariant of rule R40, command by command: each body that completes keeps it, and so does the error entry. -/

namespace Sys2Proof.Machine

theorem Block.heldPhase_running {b : Block} (h : b.phase ≠ .error) : b.heldPhase = b.phase := if_neg h

theorem Block.Inv.freqSum_total {b : Block} (hi : b.Inv) (h : b.heldPhase ≠ .hload) : b.total.toNat = freqSum b.freq := by
  have := hi.total; rwa [if_neg h] at this

theorem bv_succ {n : Nat} {v : BitVec n} (h : v.toNat + 1 < 2 ^ n) : (v + 1).toNat = v.toNat + 1 := by
  have hn : n ≠ 0 := by rintro rfl; simp at h
  rw [BitVec.toNat_add]
  have : (1 : BitVec n).toNat = 1 := by
    show (BitVec.ofNat n 1).toNat = 1
    rw [BitVec.toNat_ofNat]
    exact Nat.mod_eq_of_lt (Nat.one_lt_two_pow hn)
  rw [this, Nat.mod_eq_of_lt h]

/-- CNT keeps the invariant (rule R120). -/
theorem cntBody_inv {x : Byte} {b b' : Block} {o : List Byte} (hi : b.Inv) (h : cntBody x b = .ok (b', o)) : b'.Inv := by
  obtain ⟨hp, hf, -, rfl⟩ := cntBody_ok h
  have hne : b.phase ≠ .error := by rintro h0; simp [h0] at hp
  have hheld := Block.heldPhase_running hne
  have hmem : b.heldPhase = .idle ∨ b.heldPhase = .count := by rw [hheld]; simpa using hp
  have hx : x.toNat < 256 := x.isLt
  have hfr : (b.freqAt x.toNat + 1).toNat = (b.freqAt x.toNat).toNat + 1 := by
    refine bv_succ ?_
    have := (b.freqAt x.toNat).isLt
    have : (b.freqAt x.toNat).toNat ≠ 2 ^ 32 - 1 := fun h0 => hf (by apply BitVec.eq_of_toNat_eq; rw [h0]; rfl)
    omega
  have hsum : freqSum (setFreq b.freq x.toNat (b.freqAt x.toNat + 1)) = freqSum b.freq + 1 := by
    have h1 := freqSum_set b.freq hx (b.freqAt x.toNat + 1)
    rw [hfr] at h1
    simp only [Block.freqAt] at h1
    simp only [setFreq, Block.freqAt]; omega
  have htot := hi.freqSum_total (by rcases hmem with h | h <;> rw [h] <;> decide)
  have hlt := freqSum_lt (setFreq b.freq x.toNat (b.freqAt x.toNat + 1))
  have htot' : (b.total + 1).toNat = b.total.toNat + 1 := bv_succ (by omega)
  have htree := hi.tree
  have hlut := hi.lut
  have hzero := hi.symcntZero (by rcases hmem with h | h <;> simp [h])
  refine
    { canonical := ⟨Table.wf_set hi.canonical.freq _ _, hi.canonical.rem, hi.canonical.arena, hi.canonical.lut⟩
      idle := by simp
      record := by simpa [hne] using hi.record
      errPhase := hi.errPhase
      clearRecord := fun _ => hi.clearRecord hne
      total := ?_, hdrpos := ?_, tree := ?_, lut := ?_
      budget := by simp [Block.heldPhase]
      noBudget := fun _ => hi.noBudget (by rcases hmem with h | h <;> simp [h])
      finished := by simp [Block.heldPhase]
      packer := hi.packer
      noPending := fun _ => hi.noPending (by rcases hmem with h | h <;> simp [h])
      symcnt := ?_
      symcntZero := fun _ => hzero
      bitcnt := hi.bitcnt
      walk := by simp [Block.heldPhase]
      walkLeaf := by simp [Block.heldPhase]
      walkNode := by simp [Block.heldPhase] }
  · simp only [Block.heldPhase, htot', htot, hsum]; simp
  · have := hi.hdrpos
    rcases hmem with h | h <;> rw [h] at this <;> simpa [Block.heldPhase] using this
  · rcases hmem with h | h <;> rw [h] at htree <;> simpa [Block.heldPhase] using htree
  · rcases hmem with h | h <;> rw [h] at hlut <;> simpa [Block.heldPhase] using hlut
  · show b.symcnt.toNat ≤ (b.total + 1).toNat
    rw [hzero]; simp

theorem treeBuild_wf (freq : Table (BitVec 32)) : (treeBuild freq).arena.wf Config.nnode Node.none :=
  (finalBuilder_inv freq).1.canonical

/-- BUILD keeps the invariant (rule R130). -/
theorem buildBody_inv {b b' : Block} {o : List Byte} (hi : b.Inv) (h : buildBody b = .ok (b', o)) : b'.Inv := by
  obtain ⟨hp, -, rfl⟩ := buildBody_ok h
  have hne : b.phase ≠ .error := by rintro h0; simp [h0] at hp
  have hheld := Block.heldPhase_running hne
  have hmem : b.heldPhase = .idle ∨ b.heldPhase = .count ∨ b.heldPhase = .hdone := by rw [hheld]; simpa using hp
  have htot := hi.freqSum_total (by rcases hmem with h | h | h <;> rw [h] <;> decide)
  have hlut := hi.lut
  have hwalk : (if (treeBuild b.freq).rootV then (treeBuild b.freq).root else 0) = (treeBuild b.freq).root := by
    rcases treeBuild_root b.freq with ⟨-, -, h1, h2⟩ | ⟨-, r, -, h1, -⟩
    · simp [h1, h2]
    · simp [h1]
  obtain ⟨ph, hph⟩ : ∃ ph, ph = if b.phase = .hdone then Phase.dec else Phase.cbuilt := ⟨_, rfl⟩
  have hph2 : (ph = .dec ∧ b.heldPhase = .hdone) ∨ (ph = .cbuilt ∧ b.heldPhase ≠ .hdone) := by
    by_cases h0 : b.phase = .hdone
    · exact .inl ⟨by simp [hph, h0], by rw [hheld, h0]⟩
    · exact .inr ⟨by simp [hph, h0], by rw [hheld]; exact h0⟩
  rw [hwalk, ← hph]
  have hphe : ph ≠ .error := by rcases hph2 with h | h <;> simp [h.1]
  refine
    { canonical := ⟨hi.canonical.freq, hi.canonical.rem, treeBuild_wf _, hi.canonical.lut⟩
      idle := by rcases hph2 with h | h <;> simp [h.1]
      record := by have := hi.record; simp only [hne, false_iff] at this; simpa [hphe] using this
      errPhase := hi.errPhase
      clearRecord := fun _ => hi.clearRecord hne
      total := ?_, hdrpos := ?_, tree := ?_, lut := ?_
      budget := by rcases hph2 with h | h <;> simp [Block.heldPhase, h.1]
      noBudget := fun _ => hi.noBudget (by rcases hmem with h | h | h <;> simp [h])
      finished := by rcases hph2 with h | h <;> simp [Block.heldPhase, h.1]
      packer := hi.packer
      noPending := fun _ => hi.noPending (by rcases hmem with h | h | h <;> simp [h])
      symcnt := by simp
      symcntZero := fun _ => rfl
      bitcnt := by simp
      walk := fun _ _ => rfl
      walkLeaf := fun _ _ => rfl
      walkNode := ?_ }
  · rcases hph2 with h | h <;> simp [Block.heldPhase, h.1, htot]
  · have := hi.hdrpos
    rcases hph2 with ⟨h1, h2⟩ | ⟨h1, h2⟩
    · rw [h2] at this; simpa [Block.heldPhase, h1] using this
    · rcases hmem with h | h | h
      · rw [h] at this; simpa [Block.heldPhase, h1] using this
      · rw [h] at this; simpa [Block.heldPhase, h1] using this
      · exact absurd h h2
  · rcases hph2 with h | h <;> simp [Block.heldPhase, h.1]
  · rcases hmem with h | h | h <;> rw [h] at hlut <;>
      rcases hph2 with h' | h' <;> simpa [Block.heldPhase, h'.1] using hlut
  · intro _ h2
    exact treeBuild_root_internal b.freq (by rwa [treeBuild_nleaf] at h2)

/-- ASSIGN keeps the invariant (rule R150). -/
theorem assignBody_inv {b b' : Block} {o : List Byte} (hi : b.Inv) (h : assignBody b = .ok (b', o)) : b'.Inv := by
  obtain ⟨hp, -, rfl⟩ := assignBody_ok h
  have hne : b.phase ≠ .error := by simp [hp]
  have hheld : b.heldPhase = .cbuilt := by rw [Block.heldPhase_running hne, hp]
  have htot := hi.freqSum_total (by rw [hheld]; decide)
  have hzero := hi.symcntZero (by simp [hheld])
  refine
    { canonical := ⟨hi.canonical.freq, hi.canonical.freq, hi.canonical.arena, Table.wf_ofFn _ _ _⟩
      idle := by simp
      record := by simpa [hne] using hi.record
      errPhase := hi.errPhase
      clearRecord := fun _ => hi.clearRecord hne
      total := by simpa [Block.heldPhase] using htot
      hdrpos := by have := hi.hdrpos; rw [hheld] at this; simpa [Block.heldPhase] using this
      tree := by have := hi.tree; rw [hheld] at this; simpa [Block.heldPhase] using this
      lut := by simp [Block.heldPhase]
      budget := fun _ => ⟨?_, fun s => BitVec.le_refl _⟩
      noBudget := by simp [Block.heldPhase]
      finished := by simp [Block.heldPhase]
      packer := by simp
      noPending := by simp
      symcnt := hi.symcnt
      symcntZero := fun _ => hzero
      bitcnt := hi.bitcnt
      walk := by simp [Block.heldPhase]
      walkLeaf := by simp [Block.heldPhase]
      walkNode := by simp [Block.heldPhase] }
  show freqSum b.freq + b.symcnt.toNat = b.total.toNat
  rw [hzero, htot]; simp

/-- HDROUT keeps the invariant (rule R191). -/
theorem hdroutBody_inv {b b' : Block} {o : List Byte} (hi : b.Inv) (h : hdroutBody b = .ok (b', o)) : b'.Inv := by
  obtain ⟨hp, -, rfl⟩ := hdroutBody_ok h
  have hne : b.phase ≠ .error := by simp [hp]
  have hheld : b.heldPhase = .coded := by rw [Block.heldPhase_running hne, hp]
  exact
    { canonical := ⟨hi.canonical.freq, hi.canonical.rem, hi.canonical.arena, hi.canonical.lut⟩
      idle := by simp
      record := by simpa [hne] using hi.record
      errPhase := hi.errPhase
      clearRecord := fun _ => hi.clearRecord hne
      total := by have := hi.total; rw [hheld] at this; simpa [Block.heldPhase] using this
      hdrpos := by have := hi.hdrpos; rw [hheld] at this; simpa [Block.heldPhase] using this
      tree := by have := hi.tree; rw [hheld] at this; simpa [Block.heldPhase] using this
      lut := by have := hi.lut; rw [hheld] at this; simpa [Block.heldPhase] using this
      budget := fun _ => hi.budget (by simp [hheld])
      noBudget := by simp [Block.heldPhase]
      finished := by simp [Block.heldPhase]
      packer := hi.packer
      noPending := by simp [Block.heldPhase]
      symcnt := hi.symcnt
      symcntZero := by simp [Block.heldPhase]
      bitcnt := hi.bitcnt
      walk := by simp [Block.heldPhase]
      walkLeaf := by simp [Block.heldPhase]
      walkNode := by simp [Block.heldPhase] }

/-- ENC keeps the invariant (rule R171). -/
theorem encBody_inv {x : Byte} {b b' : Block} {o : List Byte} (hi : b.Inv) (h : encBody x b = .ok (b', o)) : b'.Inv := by
  obtain ⟨hp, hr, -, rfl⟩ := encBody_ok h
  have hne : b.phase ≠ .error := by simp [hp]
  have hheld : b.heldPhase = .enc := by rw [Block.heldPhase_running hne, hp]
  have hx : x.toNat < 256 := x.isLt
  obtain ⟨hbud, hle⟩ := hi.budget (by simp [hheld])
  have hpos : 1 ≤ (b.remAt x.toNat).toNat := by
    rcases Nat.eq_zero_or_pos (b.remAt x.toNat).toNat with h0 | h0
    · exact absurd (BitVec.eq_of_toNat_eq (by simpa using h0)) hr
    · exact h0
  have hsub : (b.remAt x.toNat - 1).toNat = (b.remAt x.toNat).toNat - 1 := by
    rw [BitVec.toNat_sub]
    have := (b.remAt x.toNat).isLt
    have h1 : (1 : BitVec 32).toNat = 1 := rfl
    rw [h1]; omega
  have hsum : freqSum (setRem b.rem x.toNat (b.remAt x.toNat - 1)) + 1 = freqSum b.rem := by
    have h1 := freqSum_set b.rem hx (b.remAt x.toNat - 1)
    rw [hsub] at h1
    simp only [Block.remAt] at h1 hpos
    simp only [setRem, Block.remAt]; omega
  have htl := b.total.isLt
  have hsc : (b.symcnt + 1).toNat = b.symcnt.toNat + 1 := bv_succ (by omega)
  have hlen : ((b.lutAt x.toNat).len.setWidth 48).toNat = (b.lutAt x.toNat).len.toNat := by
    rw [BitVec.toNat_setWidth]
    have := (b.lutAt x.toNat).len.isLt; omega
  have hbitle := hi.bitcnt
  have hrl : b.tree.root.toNat < 512 := b.tree.root.isLt
  have hbc : (b.bitcnt + (b.lutAt x.toNat).len.setWidth 48).toNat =
      b.bitcnt.toNat + (b.lutAt x.toNat).len.toNat := by
    rw [BitVec.toNat_add, hlen]
    have := (b.lutAt x.toNat).len.isLt
    refine Nat.mod_eq_of_lt ?_
    omega
  have hll := (b.lutAt x.toNat).len.isLt
  refine
    { canonical := ⟨hi.canonical.freq, Table.wf_set hi.canonical.rem _ _, hi.canonical.arena, hi.canonical.lut⟩
      idle := by simp [hp]
      record := by have := hi.record; exact this
      errPhase := hi.errPhase
      clearRecord := fun _ => hi.clearRecord hne
      total := by have := hi.total; rw [hheld] at this; simpa [Block.heldPhase, hp] using this
      hdrpos := by have := hi.hdrpos; rw [hheld] at this; simpa [Block.heldPhase, hp] using this
      tree := by have := hi.tree; rw [hheld] at this; simpa [Block.heldPhase, hp] using this
      lut := by have := hi.lut; rw [hheld] at this; simpa [Block.heldPhase, hp] using this
      budget := fun _ => ⟨?_, ?_⟩
      noBudget := by simp [Block.heldPhase, hp]
      finished := by simp [Block.heldPhase, hp]
      packer := packBits_fits (p := ⟨b.acc, b.fill, []⟩) hi.packer _
      noPending := by simp [Block.heldPhase, hp]
      symcnt := ?_
      symcntZero := by simp [Block.heldPhase, hp]
      bitcnt := ?_
      walk := by simp [Block.heldPhase, hp]
      walkLeaf := by simp [Block.heldPhase, hp]
      walkNode := by simp [Block.heldPhase, hp] }
  · show freqSum (setRem b.rem x.toNat (b.remAt x.toNat - 1)) + (b.symcnt + 1).toNat = b.total.toNat
    omega
  · intro s
    show (setRem b.rem x.toNat (b.remAt x.toNat - 1)).get 0 s ≤ b.freqAt s
    rw [setRem, Table.get_set _ (by simpa [Config.nsym] using hx)]
    split
    · rename_i hs
      subst hs
      have := hle x.toNat
      rw [BitVec.le_def] at this ⊢; omega
    · exact hle s
  · show (b.symcnt + 1).toNat ≤ b.total.toNat
    omega
  · show (b.bitcnt + (b.lutAt x.toNat).len.setWidth 48).toNat + b.walk.toNat ≤
      (b.symcnt + 1).toNat * 255 + b.tree.root.toNat
    omega

/-- ENCEND keeps the invariant (rule R173). -/
theorem encendBody_inv {b b' : Block} {o : List Byte} (hi : b.Inv) (h : encendBody b = .ok (b', o)) : b'.Inv := by
  obtain ⟨hp, hs, -, rfl⟩ := encendBody_ok h
  have hne : b.phase ≠ .error := by simp [hp]
  have hheld : b.heldPhase = .enc := by rw [Block.heldPhase_running hne, hp]
  have hacc : (if b.fill = 0 then b.acc else 0) = 0 := by
    by_cases h0 : b.fill = 0
    · rw [if_pos h0]
      have := hi.packer
      rw [h0] at this
      exact BitVec.eq_of_toNat_eq (by simpa using this)
    · rw [if_neg h0]
  rw [hacc]
  exact
    { canonical := ⟨hi.canonical.freq, hi.canonical.rem, hi.canonical.arena, hi.canonical.lut⟩
      idle := by simp
      record := by simpa [hne] using hi.record
      errPhase := hi.errPhase
      clearRecord := fun _ => hi.clearRecord hne
      total := by have := hi.total; rw [hheld] at this; simpa [Block.heldPhase] using this
      hdrpos := by have := hi.hdrpos; rw [hheld] at this; simpa [Block.heldPhase] using this
      tree := by have := hi.tree; rw [hheld] at this; simpa [Block.heldPhase] using this
      lut := by have := hi.lut; rw [hheld] at this; simpa [Block.heldPhase] using this
      budget := fun _ => hi.budget (by simp [hheld])
      noBudget := by simp [Block.heldPhase]
      finished := fun _ => hs
      packer := by simp
      noPending := by simp
      symcnt := hi.symcnt
      symcntZero := by simp [Block.heldPhase]
      bitcnt := hi.bitcnt
      walk := by simp [Block.heldPhase]
      walkLeaf := by simp [Block.heldPhase]
      walkNode := by simp [Block.heldPhase] }

/-- HDRIN keeps the invariant (rules R192, R193). -/
theorem hdrinBody_inv {x : Byte} {b b' : Block} {o : List Byte} (hi : b.Inv) (h : hdrinBody x b = .ok (b', o)) :
    b'.Inv := by
  obtain ⟨hp, -, h⟩ := hdrinBody_ok h
  have hne : b.phase ≠ .error := by rintro h0; simp [h0] at hp
  have hheld := Block.heldPhase_running hne
  have hmem : b.heldPhase = .idle ∨ b.heldPhase = .hload := by rw [hheld]; simpa using hp
  have hpos : b.hdrpos.toNat ≤ 1023 := by
    have := hi.hdrpos
    rcases hmem with h | h <;> rw [h] at this
    · have : b.hdrpos.toNat = 0 := this; omega
    · exact this.2
  have hpos' : (b.hdrpos + 1).toNat = b.hdrpos.toNat + 1 := bv_succ (by omega)
  have htot : b.total = 0 := by
    rcases hmem with h | h
    · have h0 := hi.idle (by rw [← hheld, h]); rw [h0]; rfl
    · have := hi.total; rw [h] at this
      exact BitVec.eq_of_toNat_eq (by simpa using this)
  have htree := hi.tree
  have hlut := hi.lut
  have hzero := hi.symcntZero (by rcases hmem with h | h <;> simp [h])
  have hwf : (putHeaderByte b.freq b.hdrpos.toNat x).wf Config.nsym 0 := Table.wf_set hi.canonical.freq _ _
  have hrec := hi.record
  simp only [hne, false_iff] at hrec
  rcases h with ⟨hlast, rfl⟩ | ⟨hlast, rfl⟩
  · have hsum := freqSum_lt (putHeaderByte b.freq b.hdrpos.toNat x)
    exact
      { canonical := ⟨hwf, hi.canonical.rem, hi.canonical.arena, hi.canonical.lut⟩
        idle := by simp
        record := by simpa using hrec
        errPhase := hi.errPhase
        clearRecord := fun _ => hi.clearRecord hne
        total := by
          show (BitVec.ofNat 40 _).toNat = _
          rw [BitVec.toNat_ofNat, Nat.mod_eq_of_lt hsum]; simp [Block.heldPhase]
        hdrpos := by show (b.hdrpos + 1).toNat = 1024; rw [hlast]; rfl
        tree := by rcases hmem with h | h <;> rw [h] at htree <;> simpa [Block.heldPhase] using htree
        lut := by rcases hmem with h | h <;> rw [h] at hlut <;> simpa [Block.heldPhase] using hlut
        budget := by simp [Block.heldPhase]
        noBudget := fun _ => hi.noBudget (by rcases hmem with h | h <;> simp [h])
        finished := by simp [Block.heldPhase]
        packer := hi.packer
        noPending := fun _ => hi.noPending (by rcases hmem with h | h <;> simp [h])
        symcnt := by rw [hzero]; simp
        symcntZero := fun _ => hzero
        bitcnt := hi.bitcnt
        walk := by simp [Block.heldPhase]
        walkLeaf := by simp [Block.heldPhase]
        walkNode := by simp [Block.heldPhase] }
  · have hlt : b.hdrpos.toNat + 1 ≠ 1024 := fun h0 => hlast (BitVec.eq_of_toNat_eq (by rw [hpos', h0]; rfl))
    exact
      { canonical := ⟨hwf, hi.canonical.rem, hi.canonical.arena, hi.canonical.lut⟩
        idle := by simp
        record := by simpa using hrec
        errPhase := hi.errPhase
        clearRecord := fun _ => hi.clearRecord hne
        total := by simp [Block.heldPhase, htot]
        hdrpos := by
          show _ ∧ _
          rw [hpos']; omega
        tree := by rcases hmem with h | h <;> rw [h] at htree <;> simpa [Block.heldPhase] using htree
        lut := by rcases hmem with h | h <;> rw [h] at hlut <;> simpa [Block.heldPhase] using hlut
        budget := by simp [Block.heldPhase]
        noBudget := fun _ => hi.noBudget (by rcases hmem with h | h <;> simp [h])
        finished := by simp [Block.heldPhase]
        packer := hi.packer
        noPending := fun _ => hi.noPending (by rcases hmem with h | h <;> simp [h])
        symcnt := hi.symcnt
        symcntZero := fun _ => hzero
        bitcnt := hi.bitcnt
        walk := by simp [Block.heldPhase]
        walkLeaf := by simp [Block.heldPhase]
        walkNode := by simp [Block.heldPhase] }

/-- What a decode walk keeps, bit by bit (rules R33, R34, R40 item 8, R213, R215). -/
structure Walker.Good (b : Block) (l : Walker) : Prop where
  symcnt : l.symcnt.toNat ≤ b.total.toNat
  bitcnt : l.bitcnt.toNat + l.walk.toNat ≤ l.symcnt.toNat * 255 + b.tree.root.toNat
  atRoot : l.symcnt = b.total → l.walk = b.tree.root
  leaf : b.tree.nleaf.toNat ≤ 1 → l.walk = b.tree.root
  node : 2 ≤ b.tree.nleaf.toNat → 256 ≤ l.walk.toNat ∧ b.tree.has l.walk.toNat

/-- A bit keeps it, in a tree of TreeBuild. -/
theorem decBit_good {b : Block} (ht : b.tree = treeBuild b.freq) {l l' : Walker} {x : Bool} (hg : l.Good b)
    (h : decBit b l x = .ok l') : l'.Good b := by
  have hscl := l.symcnt.isLt
  have htl := b.total.isLt
  have hrl := treeBuild_root_lt b.freq
  rw [← ht] at hrl
  have hs1 := hg.symcnt
  have hs2 := hg.bitcnt
  have hnext : l.symcnt ≠ b.total → l.symcnt.toNat + 1 ≤ b.total.toNat := by
    intro hne
    have : l.symcnt.toNat ≠ b.total.toNat := fun h0 => hne (BitVec.eq_of_toNat_eq h0)
    omega
  have hscne : l.symcnt ≠ b.total → (l.symcnt + 1).toNat = l.symcnt.toNat + 1 := by
    intro hne
    have := hnext hne
    exact bv_succ (by omega)
  have hbc : l.symcnt ≠ b.total → (l.bitcnt + 1).toNat = l.bitcnt.toNat + 1 := by
    intro hne
    have := hnext hne
    exact bv_succ (by omega)
  rcases decBit_ok h with ⟨-, -, rfl⟩ | ⟨hne, hn, rfl⟩ | ⟨hne, hn, hw, hal, child, hc, h⟩
  · exact hg
  · have h1 : b.tree.nleaf.toNat = 1 := by rw [hn]; rfl
    have hwr := hg.leaf (by omega)
    refine ⟨?_, ?_, fun _ => hwr, fun _ => hwr, fun h2 => absurd h2 (by omega)⟩
    · show (l.symcnt + 1).toNat ≤ _
      rw [hscne hne]; exact hnext hne
    · show (l.bitcnt + 1).toNat + l.walk.toNat ≤ (l.symcnt + 1).toNat * 255 + _
      rw [hscne hne, hbc hne]; omega
  · have h2 : 2 ≤ b.tree.nleaf.toNat := by
      by_contra hcon
      have hwr := hg.leaf (by omega)
      have hlc : (treeBuild b.freq).nleaf.toNat = leafCount b.freq := treeBuild_nleaf _
      rw [ht] at hcon hwr
      rw [hwr] at hw
      rw [hlc] at hcon
      rcases Nat.eq_zero_or_pos (leafCount b.freq) with h0 | h0
      · rcases treeBuild_root b.freq with ⟨-, -, -, hr⟩ | ⟨hge, -⟩
        · rw [hr] at hw; simp at hw
        · omega
      · have := (treeBuild_root_leaf b.freq (by omega)).1
        omega
    have hr2 : 256 ≤ b.tree.root.toNat ∧ b.tree.has b.tree.root.toNat := by
      rw [ht]
      exact treeBuild_root_internal b.freq (by rw [ht, treeBuild_nleaf] at h2; exact h2)
    have hch := (treeBuild_facts b.freq).2.1 l.walk.toNat hw (ht ▸ hal)
    rw [← ht] at hch
    have hcl : child.toNat < l.walk.toNat ∧ b.tree.has child.toNat := by
      cases x
      · simp only [Bool.false_eq_true, if_false] at hc
        subst hc; exact ⟨hch.2.2.1, hch.1⟩
      · simp only [if_true] at hc
        subst hc; exact ⟨hch.2.2.2, hch.2.1⟩
    rcases h with ⟨hlt, rfl⟩ | ⟨hge, rfl⟩
    · refine ⟨?_, ?_, fun _ => rfl, fun _ => rfl, fun _ => hr2⟩
      · show (l.symcnt + 1).toNat ≤ _
        rw [hscne hne]; exact hnext hne
      · show (l.bitcnt + 1).toNat + b.tree.root.toNat ≤ (l.symcnt + 1).toNat * 255 + _
        rw [hscne hne, hbc hne]; omega
    · refine ⟨hg.symcnt, ?_, fun h0 => absurd h0 hne, fun h0 => absurd h2 (by omega), fun _ => ⟨hge, hcl.2⟩⟩
      show (l.bitcnt + 1).toNat + child.toNat ≤ l.symcnt.toNat * 255 + _
      rw [hbc hne]; omega

theorem Block.Inv.walker {b : Block} (hi : b.Inv) (hp : b.phase = .dec) :
    b.tree = treeBuild b.freq ∧ (Walker.mk b.walk b.symcnt b.bitcnt []).Good b := by
  have hheld : b.heldPhase = .dec := by rw [Block.heldPhase_running (by simp [hp]), hp]
  refine ⟨by have := hi.tree; rw [hheld] at this; simpa using this, ?_⟩
  exact ⟨hi.symcnt, hi.bitcnt, hi.walk (by simp [hheld]), hi.walkLeaf hheld, hi.walkNode hheld⟩

/-- DEC keeps the invariant (rule R211). -/
theorem decBody_inv {x : Byte} {b b' : Block} {o : List Byte} (hi : b.Inv) (h : decBody x b = .ok (b', o)) : b'.Inv := by
  obtain ⟨hp, hs, l, hl, -, rfl⟩ := decBody_ok h
  have hne : b.phase ≠ .error := by simp [hp]
  have hheld : b.heldPhase = .dec := by rw [Block.heldPhase_running hne, hp]
  obtain ⟨ht, hg0⟩ := hi.walker hp
  have hg : l.Good b := decBits_keeps (fun l x l' h1 h2 => decBit_good ht h1 h2) hg0 hl
  exact
    { canonical := ⟨hi.canonical.freq, hi.canonical.rem, hi.canonical.arena, hi.canonical.lut⟩
      idle := by simp [hp]
      record := hi.record
      errPhase := hi.errPhase
      clearRecord := fun _ => hi.clearRecord hne
      total := by have := hi.total; rw [hheld] at this; simpa [Block.heldPhase, hp] using this
      hdrpos := by have := hi.hdrpos; rw [hheld] at this; simpa [Block.heldPhase, hp] using this
      tree := by have := hi.tree; rw [hheld] at this; simpa [Block.heldPhase, hp] using this
      lut := by have := hi.lut; rw [hheld] at this; simpa [Block.heldPhase, hp] using this
      budget := by simp [Block.heldPhase, hp]
      noBudget := fun _ => hi.noBudget (by simp [hheld])
      finished := by simp [Block.heldPhase, hp]
      packer := hi.packer
      noPending := fun _ => hi.noPending (by simp [hheld])
      symcnt := hg.symcnt
      symcntZero := by simp [Block.heldPhase, hp]
      bitcnt := hg.bitcnt
      walk := fun _ h0 => hg.atRoot h0
      walkLeaf := fun _ h0 => hg.leaf h0
      walkNode := fun _ h0 => hg.node h0 }

/-- DECEND keeps the invariant (rule R212). -/
theorem decendBody_inv {b b' : Block} {o : List Byte} (hi : b.Inv) (h : decendBody b = .ok (b', o)) : b'.Inv := by
  obtain ⟨hp, hs, -, rfl⟩ := decendBody_ok h
  have hne : b.phase ≠ .error := by simp [hp]
  have hheld : b.heldPhase = .dec := by rw [Block.heldPhase_running hne, hp]
  exact
    { canonical := ⟨hi.canonical.freq, hi.canonical.rem, hi.canonical.arena, hi.canonical.lut⟩
      idle := by simp
      record := by simpa [hne] using hi.record
      errPhase := hi.errPhase
      clearRecord := fun _ => hi.clearRecord hne
      total := by have := hi.total; rw [hheld] at this; simpa [Block.heldPhase] using this
      hdrpos := by have := hi.hdrpos; rw [hheld] at this; simpa [Block.heldPhase] using this
      tree := by have := hi.tree; rw [hheld] at this; simpa [Block.heldPhase] using this
      lut := by have := hi.lut; rw [hheld] at this; simpa [Block.heldPhase] using this
      budget := by simp [Block.heldPhase]
      noBudget := fun _ => hi.noBudget (by simp [hheld])
      finished := fun _ => hs
      packer := hi.packer
      noPending := fun _ => hi.noPending (by simp [hheld])
      symcnt := hi.symcnt
      symcntZero := by simp [Block.heldPhase]
      bitcnt := hi.bitcnt
      walk := fun _ _ => hi.walk (by simp [hheld]) hs
      walkLeaf := by simp [Block.heldPhase]
      walkNode := by simp [Block.heldPhase] }

/-- The error entry keeps the invariant (rules R37, R233). -/
theorem State.raise_inv {s : State} {c : ErrCode} {w : Word} (hi : s.toBlock.Inv) (hp : s.phase ≠ .error)
    (hc : c ≠ .none) : (s.raise c w).toBlock.Inv := by
  have hh : (s.raise c w).toBlock.heldPhase = s.toBlock.heldPhase := by
    rw [Block.heldPhase_running hp]; exact if_pos rfl
  exact
    { canonical := ⟨hi.canonical.freq, hi.canonical.rem, hi.canonical.arena, hi.canonical.lut⟩
      idle := by intro h; cases h
      record := ⟨fun _ => hc, fun _ => rfl⟩
      errPhase := hp
      clearRecord := fun h => absurd rfl h
      total := by rw [hh]; exact hi.total
      hdrpos := by rw [hh]; exact hi.hdrpos
      tree := by rw [hh]; exact hi.tree
      lut := by rw [hh]; exact hi.lut
      budget := by rw [hh]; exact hi.budget
      noBudget := by rw [hh]; exact hi.noBudget
      finished := by rw [hh]; exact hi.finished
      packer := hi.packer
      noPending := by rw [hh]; exact hi.noPending
      symcnt := hi.symcnt
      symcntZero := by rw [hh]; exact hi.symcntZero
      bitcnt := hi.bitcnt
      walk := by rw [hh]; exact hi.walk
      walkLeaf := by rw [hh]; exact hi.walkLeaf
      walkNode := by rw [hh]; exact hi.walkNode }

/-- No body raises the code that says there is no error (rule R231). -/
theorem bodyOf_error_ne_none {i : Instr} {b : Block} {c : ErrCode} (h : bodyOf i b = .error c) : c ≠ .none := by
  cases i with
  | nop => cases h
  | init => cases h
  | abortsrc => cases h; decide
  | abortsnk => cases h; decide
  | cnt x => rcases cntBody_error h with ⟨-, rfl⟩ | ⟨-, -, rfl⟩ <;> decide
  | build =>
    obtain ⟨-, rfl⟩ := buildBody_error h
    cases b.phase <;> decide
  | assign => obtain ⟨-, rfl⟩ := assignBody_error h; decide
  | hdrout => obtain ⟨-, rfl⟩ := hdroutBody_error h; decide
  | enc x => rcases encBody_error h with ⟨-, rfl⟩ | ⟨-, -, rfl⟩ <;> decide
  | encend => rcases encendBody_error h with ⟨-, rfl⟩ | ⟨-, -, rfl⟩ <;> decide
  | hdrin x => obtain ⟨-, rfl⟩ := hdrinBody_error h; decide
  | dec x =>
    rcases decBody_error h with ⟨-, rfl⟩ | ⟨-, -, rfl⟩ | ⟨-, -, h⟩
    · decide
    · decide
    · obtain ⟨l, y, -, h⟩ := decBits_error (P := fun _ => True) (fun _ _ _ _ _ => trivial) trivial h
      rcases decBit_error h with ⟨-, -, rfl⟩ | ⟨-, -, -, rfl⟩ <;> decide
  | decend =>
    rcases decendBody_error h with ⟨-, rfl⟩ | ⟨-, -, rfl⟩
    · cases b.phase <;> decide
    · decide

end Sys2Proof.Machine
end

