-- ==== Sys2Proof/Laws/PerInstr.lean ====
section
/-! SUPPORT. The statements made of every instruction as syntax, one lemma per constructor. Family RoundTrip: the word of the
instruction decodes to it, with every operand byte (rules R81 to R83). -/

namespace Sys2Proof.Laws.RoundTrip

/-- Decoding the instruction's own word gives the instruction. -/
def Statement (i : Instr) : Prop := decodeWord (encode i) = .ok i

theorem nop : Statement .nop := rfl
theorem init : Statement .init := rfl
theorem abortsrc : Statement .abortsrc := rfl
theorem abortsnk : Statement .abortsnk := rfl
theorem cnt (b : Byte) : Statement (.cnt b) := (decodeWord_formatB b).1
theorem build : Statement .build := rfl
theorem assign : Statement .assign := rfl
theorem hdrout : Statement .hdrout := rfl
theorem enc (b : Byte) : Statement (.enc b) := (decodeWord_formatB b).2.1
theorem encend : Statement .encend := rfl
theorem hdrin (b : Byte) : Statement (.hdrin b) := (decodeWord_formatB b).2.2.1
theorem dec (b : Byte) : Statement (.dec b) := (decodeWord_formatB b).2.2.2
theorem decend : Statement .decend := rfl

end Sys2Proof.Laws.RoundTrip
end

