-- ==== Sys2Proof/Laws/Runs.lean ====
section
/-! SUPPORT. Runs of one command over a byte sequence (rules R87, R121, R171, R192, R211): what CNT, HDRIN, ENC and DEC leave after
all of it, and how the decoder walks one code. -/

namespace Sys2Proof.Machine

theorem runAll_append (xs ys : List Instr) (s : State) :
    runAll (xs ++ ys) s =
      match runAll xs s with
      | .next t => runAll ys t
      | .fault f => .fault f
      | .refused r => .refused r := by
  induction xs generalizing s with
  | nil => rfl
  | cons i xs ih =>
    simp only [List.cons_append, runAll]
    cases exec i s with
    | next t => exact ih t
    | fault f => rfl
    | refused r => rfl

/-! ## CNT -/

/-- A run of CNT whose counts and whose length have room adds each value's count to its FREQ entry and the length to TOTAL. -/
theorem runAll_cnt (bytes : List Byte) (s : State) (hp : s.phase ∈ [.idle, .count])
    (hroom : ∀ v : Byte, (s.toBlock.freqAt v.toNat).toNat + bytes.count v < 2 ^ 32)
    (htot : s.total.toNat + bytes.length < 2 ^ 40) :
    ∃ freq total phase, runAll (bytes.map Instr.cnt) s = .next { s with freq := freq, total := total, phase := phase } ∧
      (bytes ≠ [] → phase = .count) ∧ (bytes = [] → freq = s.freq ∧ phase = s.phase) ∧
      (∀ v : Byte, (freq.get 0 v.toNat).toNat = (s.toBlock.freqAt v.toNat).toNat + bytes.count v) ∧
      total.toNat = s.total.toNat + bytes.length := by
  induction bytes generalizing s with
  | nil => exact ⟨s.freq, s.total, s.phase, rfl, by simp, fun _ => ⟨rfl, rfl⟩, fun v => rfl, by simp⟩
  | cons x rest ih =>
    have hx := hroom x
    have hf : s.toBlock.freqAt x.toNat ≠ 0xFFFFFFFF := by
      intro h; rw [h] at hx; simp at hx; omega
    have hne : s.phase ≠ .error := by rintro h; rw [h] at hp; revert hp; decide
    have he := exec_completes (i := .cnt x) hne (cntBody_completes hp hf) (.inl rfl)
    have hfv : ∀ v : Byte, ((setFreq s.freq x.toNat (s.toBlock.freqAt x.toNat + 1)).get 0 v.toNat).toNat =
        (s.toBlock.freqAt v.toNat).toNat + if v = x then 1 else 0 := by
      intro v
      rw [setFreq, Table.get_set _ (by have := x.isLt; simp only [Config.nsym]; omega)]
      by_cases hv : v = x
      · subst hv
        rw [if_pos rfl, if_pos rfl, bv_succ]
        simp at hx; omega
      · rw [if_neg (fun h => hv (BitVec.eq_of_toNat_eq h)), if_neg hv]; rfl
    generalize setFreq s.freq x.toNat (s.toBlock.freqAt x.toNat + 1) = f at he hfv
    have ht : (s.total + 1).toNat = s.total.toNat + 1 := bv_succ (by simp at htot; omega)
    obtain ⟨f', tot, ph, h2, h3, h4, h5, h6⟩ := ih { s with freq := f, total := s.total + 1, phase := .count } (by simp)
      (by
        intro v
        show (f.get 0 v.toNat).toNat + _ < _
        have := hroom v
        rw [hfv, List.count_cons] at *
        by_cases hv : v = x
        · subst hv; simp at *; omega
        · have hv' : ¬ x = v := fun h => hv h.symm
          simp [hv, hv'] at *; omega)
      (by show (s.total + 1).toNat + _ < _; rw [ht]; simp at htot; omega)
    refine ⟨f', tot, ph, ?_, ?_, by simp, ?_, ?_⟩
    · simp only [List.map_cons, runAll, he, List.append_nil]; exact h2
    · intro _
      by_cases hr : rest = []
      · rw [(h4 hr).2]
      · exact h3 hr
    · intro v
      rw [h5 v]
      show (f.get 0 v.toNat).toNat + _ = _
      rw [hfv, List.count_cons]
      by_cases hv : v = x
      · subst hv; simp; omega
      · have hv' : ¬ x = v := fun h => hv h.symm
        simp [hv, hv']
    · rw [h6]
      show (s.total + 1).toNat + _ = _
      rw [ht]; simp; omega

theorem card_byte : Fintype.card Byte = 256 := by
  have : Fintype.card (BitVec 8) = Fintype.card (Fin (2 ^ 8)) :=
    Fintype.card_congr ⟨BitVec.toFin, BitVec.ofFin, fun _ => rfl, fun _ => rfl⟩
  rw [this]; simp

/-- A sequence whose counts all fit 32 bits has a length that fits 40. -/
theorem length_lt_of_counts (bytes : List Byte) (h : ∀ v : Byte, bytes.count v < 2 ^ 32) : bytes.length < 2 ^ 40 := by
  have h1 : bytes.length = ∑ v : Byte, bytes.count v := by
    have := Multiset.toFinset_sum_count_eq (bytes : Multiset Byte)
    simp only [Multiset.coe_card] at this
    rw [← this]
    refine Finset.sum_subset (Finset.subset_univ _) ?_ |>.trans ?_
    · intro x _ hx; rw [Multiset.coe_count]; exact List.count_eq_zero.2 (by simpa using hx)
    · simp
  have h2 : ∑ v : Byte, bytes.count v ≤ ∑ v : Byte, (2 ^ 32 - 1) :=
    Finset.sum_le_sum fun v _ => by have := h v; omega
  rw [h1]
  refine Nat.lt_of_le_of_lt h2 ?_
  simp [card_byte]

/-! ## HDRIN -/

/-- A byte lane of FREQ after one header byte (rule R192). -/
theorem entryByte_putHeaderByte (freq : Table (BitVec 32)) {pos : Nat} (hpos : pos < 1024) (x : Byte) (i j : Nat)
    (hj : j < 4) :
    entryByte ((putHeaderByte freq pos x).get 0 i) j = if 4 * i + j = pos then x else entryByte (freq.get 0 i) j := by
  rw [putHeaderByte_get freq hpos]
  by_cases h : i = pos / 4
  · rw [if_pos h, entryByte_setEntryByte _ _ (by omega) hj, ← h]
    by_cases h2 : j = pos % 4
    · rw [if_pos h2, if_pos (by omega)]
    · rw [if_neg h2, if_neg (by omega)]
  · rw [if_neg h, if_neg (by omega)]

/-- After the first n of a header's bytes, n below 1024, FREQ holds those byte lanes and zeros. -/
theorem runAll_hdrin_part (freq : Table (BitVec 32)) (s : State) (hb : s.toBlock = Block.reset) :
    ∀ n, n ≤ 1023 → ∃ f ph,
      runAll (((headerBytes freq).take n).map Instr.hdrin) s =
        .next { s with freq := f, hdrpos := BitVec.ofNat 11 n, phase := ph } ∧
      f.wf 256 0 ∧ (ph = .idle ∨ ph = .hload) ∧
      ∀ i < 256, ∀ j < 4, entryByte (f.get 0 i) j = if 4 * i + j < n then entryByte (freq.get 0 i) j else 0 := by
  have hpos : s.hdrpos = 0 := by rw [hb]; rfl
  have hf : s.freq = Table.empty := by rw [hb]; rfl
  have hi : s.phase = .idle := by rw [hb]; rfl
  intro n hn
  induction n with
  | zero =>
    refine ⟨Table.empty, .idle, ?_, Table.wf_empty _ _, .inl rfl, ?_⟩
    · simp only [List.take_zero, List.map_nil, runAll]
      show _ = Host.Outcome.next { s with freq := Table.empty, hdrpos := 0, phase := .idle }
      rw [← hf, ← hpos, ← hi]
    · intro i _ j _; rw [if_neg (by omega)]; exact entryByte_zero j
  | succ n ih =>
    obtain ⟨f, ph, h1, h2, h3, h4⟩ := ih (by omega)
    have hget := headerBytes_getElem? freq n (by omega)
    have htk : (headerBytes freq).take (n + 1) =
        (headerBytes freq).take n ++ [entryByte (freq.get 0 (n / 4)) (n % 4)] := by
      rw [List.take_add_one, hget]; rfl
    rw [htk, List.map_append, runAll_append, h1]
    simp only [List.map_cons, List.map_nil, runAll]
    have hN : (BitVec.ofNat 11 n).toNat = n := by rw [BitVec.toNat_ofNat]; omega
    have hne : ph ≠ .error := by rcases h3 with rfl | rfl <;> decide
    have hleg : ph ∈ [Phase.idle, .hload] := by rcases h3 with rfl | rfl <;> decide
    generalize hx : entryByte (freq.get 0 (n / 4)) (n % 4) = x
    have hex : exec (.hdrin x) { s with freq := f, hdrpos := BitVec.ofNat 11 n, phase := ph } =
        .next { s with freq := putHeaderByte f n x, hdrpos := BitVec.ofNat 11 (n + 1), phase := .hload } := by
      rw [exec_running (by exact hne)]
      show complete _ (hdrinBody x _) _ = _
      have hsucc : BitVec.ofNat 11 n + 1 = BitVec.ofNat 11 (n + 1) := by
        apply BitVec.eq_of_toNat_eq; rw [BitVec.toNat_add, hN, BitVec.toNat_ofNat]; rfl
      have hne : BitVec.ofNat 11 (n + 1) ≠ 1024 := by
        intro h; have := congrArg BitVec.toNat h; rw [BitVec.toNat_ofNat] at this
        have h3 : (1024 : BitVec 11).toNat = 1024 := rfl
        omega
      rw [hdrinBody, requirePhase_legal (by exact hleg)]
      simp only [hsucc, if_neg hne, hN]
      rw [complete_silent]
    rw [hex]
    refine ⟨putHeaderByte f n x, .hload, rfl, Table.wf_set h2 _ _, .inr rfl, ?_⟩
    intro i hi j hj
    rw [entryByte_putHeaderByte _ (by omega) _ _ _ hj, h4 i hi j hj]
    by_cases h : 4 * i + j = n
    · rw [if_pos h, if_pos (by omega), ← hx, show n / 4 = i by omega, show n % 4 = j by omega]
    · rw [if_neg h]
      by_cases h' : 4 * i + j < n
      · rw [if_pos h', if_pos (by omega)]
      · rw [if_neg h', if_neg (by omega)]

/-! ## ENC -/

/-- A run of ENC over bytes that REM still allows packs their codes one after another. -/
theorem runAll_enc (syms : List Byte) : ∀ s : State, s.phase = .enc → s.outReady = true →
    (∀ v : Byte, syms.count v ≤ (s.toBlock.remAt v.toNat).toNat) →
    ∃ r bc, runAll (syms.map Instr.enc) s = .next { s with
      acc := (packBits ⟨s.acc, s.fill, []⟩ (syms.flatMap fun x => (s.toBlock.lutAt x.toNat).bits)).acc
      fill := (packBits ⟨s.acc, s.fill, []⟩ (syms.flatMap fun x => (s.toBlock.lutAt x.toNat).bits)).fill
      rem := r
      symcnt := s.symcnt + BitVec.ofNat 40 syms.length
      bitcnt := bc
      out := s.out ++ (packBits ⟨s.acc, s.fill, []⟩ (syms.flatMap fun x => (s.toBlock.lutAt x.toNat).bits)).outs } := by
  induction syms with
  | nil => intro s _ _ _; exact ⟨s.rem, s.bitcnt, by simp [runAll, packBits]⟩
  | cons x rest ih =>
    intro s hp hr hrem
    have hx := hrem x
    have hnz : s.toBlock.remAt x.toNat ≠ 0 := by intro h; rw [h] at hx; simp at hx
    generalize hP : packBits ⟨s.acc, s.fill, []⟩ (s.toBlock.lutAt x.toNat).bits = P
    have he := exec_completes (i := .enc x) (by simp [hp]) (encBody_completes hp hnz hP) (.inr hr)
    have hremv : ∀ v : Byte, (setRem s.rem x.toNat (s.toBlock.remAt x.toNat - 1)).get 0 v.toNat =
        if v = x then s.toBlock.remAt x.toNat - 1 else s.toBlock.remAt v.toNat := by
      intro v
      rw [setRem, Table.get_set _ (by have := x.isLt; simp only [Config.nsym]; omega)]
      by_cases hv : v = x
      · subst hv; simp
      · rw [if_neg (fun h => hv (BitVec.eq_of_toNat_eq h)), if_neg hv]; rfl
    generalize setRem s.rem x.toNat (s.toBlock.remAt x.toNat - 1) = rem at he hremv
    obtain ⟨r, bc, h2⟩ := ih { s with
          acc := P.acc
          fill := P.fill
          rem := rem
          symcnt := s.symcnt + 1
          bitcnt := s.bitcnt + (s.toBlock.lutAt x.toNat).len.setWidth 48
          out := s.out ++ P.outs } hp hr (by
        intro v
        show _ ≤ (rem.get 0 v.toNat).toNat
        have hv := hrem v
        rw [hremv]
        by_cases h : v = x
        · subst h
          rw [if_pos rfl]
          simp only [List.count_cons_self] at hv
          have h1 : (1 : BitVec 32).toNat = 1 := rfl
          have := (s.toBlock.remAt v.toNat).isLt
          rw [BitVec.toNat_sub, h1]; omega
        · rw [if_neg h]
          rw [List.count_cons_of_ne (by simpa using fun h2 : x = v => h h2.symm)] at hv
          exact hv)
    refine ⟨r, bc, ?_⟩
    simp only [List.map_cons, runAll, he]
    rw [h2]
    simp only [List.flatMap_cons, packBits_append, hP]
    have hpo := packBits_outs P.acc P.fill P.outs (rest.flatMap fun x => (s.toBlock.lutAt x.toNat).bits)
    have hPe : (⟨P.acc, P.fill, P.outs⟩ : Packer) = P := rfl
    rw [hPe] at hpo
    have hl : ∀ y : Byte, ({ s.toBlock with
        acc := P.acc
        fill := P.fill
        rem := rem
        symcnt := s.symcnt + 1
        bitcnt := s.bitcnt + (s.toBlock.lutAt x.toNat).len.setWidth 48 } : Block).lutAt y.toNat =
          s.toBlock.lutAt y.toNat := fun _ => rfl
    simp only [hl]
    rw [hpo]
    simp only [List.append_assoc]
    congr 3
    rw [BitVec.add_assoc]; congr 1; apply BitVec.eq_of_toNat_eq
    simp only [BitVec.toNat_add, BitVec.toNat_ofNat, List.length_cons]
    have : (1 : BitVec 40).toNat = 1 := rfl
    omega

/-! ## DEC -/

theorem decBit_outs (b : Block) (l : Walker) (o : List Byte) (x : Bool) :
    decBit b { l with outs := o ++ l.outs } x = (decBit b l x).map fun l' => { l' with outs := o ++ l'.outs } := by
  unfold decBit
  split
  · split <;> rfl
  · split
    · simp [Except.map]
    · split
      · simp only; split <;> split <;> simp [Except.map]
      · rfl

/-- What was decoded before does not touch the walk: it only comes first. -/
theorem decBits_outs (b : Block) (o : List Byte) (bits : List Bool) : ∀ l : Walker,
    decBits b { l with outs := o ++ l.outs } bits =
      (decBits b l bits).map fun l' => { l' with outs := o ++ l'.outs } := by
  induction bits with
  | nil => intro l; rfl
  | cons x rest ih =>
    intro l
    rw [decBits_cons, decBits_cons, decBit_outs]
    cases decBit b l x with
    | error c => rfl
    | ok l1 => exact ih l1

/-- A walk reads TOTAL and the tree alone. -/
theorem decBits_congr {b b2 : Block} (h1 : b2.total = b.total) (h2 : b2.tree = b.tree) (bits : List Bool) :
    ∀ l : Walker, decBits b2 l bits = decBits b l bits := by
  have hbit : ∀ l x, decBit b2 l x = decBit b l x := by intro l x; unfold decBit; rw [h1, h2]
  induction bits with
  | nil => intro l; rfl
  | cons x rest ih =>
    intro l
    rw [decBits_cons, decBits_cons, hbit]
    cases decBit b l x with
    | error c => rfl
    | ok l1 => exact ih l1

/-- A bit adds at most 1 to BITCNT. -/
theorem decBits_bitcnt_le {b : Block} {bits : List Bool} :
    ∀ {l l' : Walker}, decBits b l bits = .ok l' → l'.bitcnt.toNat ≤ l.bitcnt.toNat + bits.length := by
  induction bits with
  | nil => intro l l' h; cases h; simp
  | cons x rest ih =>
    intro l l' h
    rw [decBits_cons] at h
    split at h
    · cases h
    · rename_i l1 h1
      have := ih h
      have h2 : l1.bitcnt.toNat ≤ l.bitcnt.toNat + 1 := by
        have hadd : (l.bitcnt + 1).toNat ≤ l.bitcnt.toNat + 1 := by
          rw [BitVec.toNat_add]; exact Nat.mod_le _ _
        rcases decBit_ok h1 with ⟨-, -, rfl⟩ | ⟨-, -, rfl⟩ | ⟨-, -, -, -, c, -, ⟨-, rfl⟩ | ⟨-, rfl⟩⟩
        · omega
        all_goals exact hadd
      simp only [List.length_cons]; omega

/-- Once the last symbol is decoded, bits that raise nothing change nothing (rule R214). -/
theorem decBits_after_last {b : Block} {bits : List Bool} {l l' : Walker} (hs : l.symcnt = b.total)
    (h : decBits b l bits = .ok l') : l' = l := by
  refine decBits_keeps (P := fun m => m = l) ?_ rfl h
  rintro m x m' rfl hm
  rcases decBit_ok hm with ⟨-, -, h⟩ | ⟨h, -⟩ | ⟨h, -⟩
  · exact h
  · exact absurd hs h
  · exact absurd hs h

/-- A run of DEC decodes the bits of all its bytes, as long as fewer than 8 of them are padding. -/
theorem runAll_dec (bytes : List Byte) : ∀ (s : State) (l : Walker), s.phase = .dec → s.outReady = true →
    decBits s.toBlock ⟨s.walk, s.symcnt, s.bitcnt, []⟩ (unpackBytes bytes) = .ok l →
    s.bitcnt.toNat + 8 * bytes.length < l.bitcnt.toNat + 8 →
    runAll (bytes.map Instr.dec) s =
      .next { s with walk := l.walk, symcnt := l.symcnt, bitcnt := l.bitcnt, out := s.out ++ l.outs } := by
  induction bytes with
  | nil =>
    intro s l _ _ h _; cases h; simp [runAll]
  | cons x rest ih =>
    intro s l hp hr h hb
    have hu : unpackBytes (x :: rest) = bitsOfByte x ++ unpackBytes rest := rfl
    have hs : s.symcnt ≠ s.total := by
      intro hs
      have := decBits_after_last (l := ⟨s.walk, s.symcnt, s.bitcnt, []⟩) hs h
      subst this
      simp only [List.length_cons] at hb; omega
    rw [hu, decBits_append] at h
    cases h1 : decBits s.toBlock ⟨s.walk, s.symcnt, s.bitcnt, []⟩ (bitsOfByte x) with
    | error c => rw [h1] at h; cases h
    | ok l1 =>
      rw [h1] at h
      simp only at h
      have he := exec_completes (i := .dec x) (s := s) (by simp [hp]) (decBody_completes hp hs h1) (.inr hr)
      have hle := decBits_bitcnt_le h1
      simp only [bitsOfByte_length] at hle
      have hxx := decBits_outs s.toBlock l1.outs (unpackBytes rest) { l1 with outs := [] }
      simp only [List.append_nil] at hxx
      have hl1 : (⟨l1.walk, l1.symcnt, l1.bitcnt, l1.outs⟩ : Walker) = l1 := rfl
      rw [hl1, h] at hxx
      cases h3 : decBits s.toBlock ⟨l1.walk, l1.symcnt, l1.bitcnt, []⟩ (unpackBytes rest) with
      | error c => rw [h3] at hxx; cases hxx
      | ok l2 =>
        rw [h3] at hxx
        have hl : l = { l2 with outs := l1.outs ++ l2.outs } := by simpa [Except.map] using hxx
        have := ih { s with walk := l1.walk, symcnt := l1.symcnt, bitcnt := l1.bitcnt, out := s.out ++ l1.outs } l2 hp hr
          (by
            rw [← h3]
            exact decBits_congr (b := s.toBlock)
              (b2 := { s.toBlock with walk := l1.walk, symcnt := l1.symcnt, bitcnt := l1.bitcnt }) rfl rfl _ _)
          (by
            show l1.bitcnt.toNat + _ < _
            rw [hl] at hb; simp only [List.length_cons] at hb; omega)
        simp only [List.map_cons, runAll, he]
        rw [this, hl]
        simp

/-! ## Paths and walks -/

/-- In a full tree a path through internal nodes stays in the tree (rule R29). -/
theorem follow_has {t : Tree} {freq : Table (BitVec 32)} (hF : t.Full freq) {n : Nat} (hn : t.has n) :
    ∀ p, throughInternal t n p → t.has (follow t n p) := by
  intro p
  induction p generalizing n with
  | nil => intro _; exact hn
  | cons x p ih =>
    rintro ⟨h1, h2⟩
    obtain ⟨hl, hr, -⟩ := hF.children n h1 hn
    cases x
    · exact ih hl h2
    · exact ih hr h2

/-- In a full tree two paths from the root to the same node are the same (rule R151). -/
theorem path_unique {t : Tree} {freq : Table (BitVec 32)} (hF : t.Full freq) (hv : t.rootV = true) :
    ∀ p q : List Bool, throughInternal t t.root.toNat p → throughInternal t t.root.toNat q →
      follow t t.root.toNat p = follow t t.root.toNat q → p = q := by
  have hroot := hF.rootIn hv
  have par : ∀ p x, throughInternal t t.root.toNat (p ++ [x]) →
      t.parentOf (follow t t.root.toNat p) (follow t t.root.toNat (p ++ [x])) := by
    intro p x h
    rw [throughInternal_append] at h
    refine ⟨h.2.1, follow_has hF hroot p h.1, ?_⟩
    rw [follow_append]
    cases x
    · left; rfl
    · right; rfl
  intro p
  induction p using List.reverseRecOn with
  | nil =>
    intro q _ hq he
    rcases List.eq_nil_or_concat q with rfl | ⟨q, y, rfl⟩
    · rfl
    · exfalso
      rw [List.concat_eq_append] at hq he
      have := par q y hq
      rw [← he] at this
      exact hF.rootTop _ ⟨hv, this⟩
  | append_singleton p x ih =>
    intro q hp hq he
    have h1 := par p x hp
    rcases List.eq_nil_or_concat q with rfl | ⟨q, y, rfl⟩
    · exfalso
      rw [he] at h1
      exact hF.rootTop _ ⟨hv, h1⟩
    · rw [List.concat_eq_append] at hq he ⊢
      have h2 := par q y hq
      rw [← he] at h2
      have hne : follow t t.root.toNat (p ++ [x]) ≠ t.root.toNat := by
        intro h; rw [h] at h1; exact hF.rootTop _ ⟨hv, h1⟩
      have hpq := (hF.parent _ (follow_has hF hroot _ hp) hne).unique h1 h2
      have hpq' := ih q (throughInternal_append.1 hp).1 (throughInternal_append.1 hq).1 hpq
      subst hpq'
      rw [follow_append, follow_append] at he
      have hint := (throughInternal_append.1 hp).2.1
      have hal := follow_has hF hroot _ (throughInternal_append.1 hp).1
      have hd := (hF.children _ hint hal).2.2.2.2
      cases x <;> cases y
      · rfl
      · exact absurd (BitVec.eq_of_toNat_eq he) hd
      · exact absurd (BitVec.eq_of_toNat_eq he).symm hd
      · rfl

/-- In a tree with an internal root, the bits of a path to a leaf decode to that leaf's symbol and put the walk back at the root
(rules R151, R211). -/
theorem decBits_path {b : Block} (ht : b.tree = treeBuild b.freq) (hn : b.tree.nleaf ≠ 1) (k : Nat) :
    ∀ (p : List Bool) (l : Walker), p ≠ [] → b.tree.has l.walk.toNat → follow b.tree l.walk.toNat p = k →
      throughInternal b.tree l.walk.toNat p → k < 256 → l.symcnt ≠ b.total →
      decBits b l p =
        .ok ⟨b.tree.root, l.symcnt + 1, l.bitcnt + BitVec.ofNat 48 p.length, l.outs ++ [BitVec.ofNat 8 k]⟩ := by
  intro p
  induction p with
  | nil => intro l h; exact absurd rfl h
  | cons x rest ih =>
    intro l _ hal hf ht1 hk hs
    obtain ⟨h256, ht2⟩ := ht1
    have hch := (treeBuild_facts b.freq).2.1 l.walk.toNat h256 (ht ▸ hal)
    rw [← ht] at hch
    generalize hcd : (if x then (b.tree.nodeAt l.walk.toNat).right else (b.tree.nodeAt l.walk.toNat).left) = child
    have hc1 : b.tree.child l.walk.toNat x = child.toNat := by rw [← hcd]; cases x <;> rfl
    have hbit : decBit b l x = .ok (
        if child.toNat < 256 then
          ⟨b.tree.root, l.symcnt + 1, l.bitcnt + 1, l.outs ++ [child.setWidth 8]⟩
        else { l with walk := child, bitcnt := l.bitcnt + 1 }) := by
      rw [decBit, if_neg hs, if_neg hn, if_pos ⟨h256, hal⟩]
      simp only [hcd]
      split <;> rfl
    rw [decBits_cons, hbit]
    have hf' : follow b.tree child.toNat rest = k := by rw [← hc1]; exact hf
    rw [hc1] at ht2
    by_cases hlt : child.toNat < 256
    · have hrest : rest = [] := by
        cases rest with
        | nil => rfl
        | cons y r => have := ht2.1; omega
      subst hrest
      have hk' : child.toNat = k := hf'
      simp only [if_pos hlt, decBits]
      have : child.setWidth 8 = BitVec.ofNat 8 k := by
        apply BitVec.eq_of_toNat_eq; rw [BitVec.toNat_setWidth, BitVec.toNat_ofNat, hk']
      rw [this]; rfl
    · have hrest : rest ≠ [] := by
        rintro rfl
        have hk' : child.toNat = k := hf'
        omega
      have halc : b.tree.has child.toNat := by
        rw [← hc1]; cases x
        · exact hch.1
        · exact hch.2.1
      simp only [if_neg hlt]
      rw [ih { l with walk := child, bitcnt := l.bitcnt + 1 } hrest halc hf' ht2 hk hs]
      simp only
      congr 2
      rw [BitVec.add_assoc]; congr 1
      apply BitVec.eq_of_toNat_eq
      simp only [BitVec.toNat_add, BitVec.toNat_ofNat, List.length_cons]
      have : (1 : BitVec 48).toNat = 1 := rfl
      omega

end Sys2Proof.Machine
end

