-- ==== Sys2Proof/Laws/Step.lean ====
section
/-! SUPPORT. Everything a command word can do and everything a step can do, each said once, and what the bytes of a command depend
on. Proofs about steps cite these instead of unfolding `step`. -/

namespace Sys2Proof.Machine

/-! ## A command word (rules R100, R267) -/

theorem executeWord_ok {w : Word} {i : Instr} (h : decodeWord w = .ok i) (s : State) : executeWord w s = exec i s := by
  simp only [executeWord, h]

theorem executeWord_illegal {w : Word} {e : IllegalWord} (h : decodeWord w = .error e) (s : State) :
    executeWord w s = issue w illegalBody s := by simp only [executeWord, h]

/-- Every word, decoded or not, answers a next state in every state. -/
theorem executeWord_answers (w : Word) (s : State) : ∃ t, executeWord w s = .next t := by
  cases h : decodeWord w with
  | ok i => rw [executeWord_ok h]; exact exec_answers i s
  | error e => rw [executeWord_illegal h]; exact issue_answers _ _ _

/-- Everything a command word can do. -/
theorem executeWord_next {w : Word} {s t : State} (h : executeWord w s = .next t) :
    (decodeWord w = .ok .init ∧ t = hostReset s) ∨
    (decodeWord w ≠ .ok .init ∧ s.phase = .error ∧ t = s) ∨
    (∃ e, decodeWord w = .error e ∧ s.phase ≠ .error ∧ t = s.raise .illegalCommand w) ∨
    (∃ i c, decodeWord w = .ok i ∧ i ≠ .init ∧ s.phase ≠ .error ∧ bodyOf i s.toBlock = .error c ∧
      t = s.raise c (encode i)) ∨
    (∃ i b bytes, decodeWord w = .ok i ∧ i ≠ .init ∧ s.phase ≠ .error ∧ bodyOf i s.toBlock = .ok (b, bytes) ∧
      (bytes = [] ∨ s.outReady = true) ∧ t = { s with toBlock := b, out := s.out ++ bytes }) ∨
    (∃ i b bytes, decodeWord w = .ok i ∧ i ≠ .init ∧ s.phase ≠ .error ∧ bodyOf i s.toBlock = .ok (b, bytes) ∧
      bytes ≠ [] ∧ s.outReady = false ∧ t = { s with busy := some ⟨encode i, 0⟩ }) := by
  cases hd : decodeWord w with
  | ok i =>
    rw [executeWord_ok hd] at h
    rcases exec_next h with ⟨rfl, rfl⟩ | ⟨hi, hp, rfl⟩ | ⟨hi, hp, c, hc, rfl⟩ | ⟨hi, hp, b, o, hb, ho, rfl⟩ |
      ⟨hi, hp, b, o, hb, ho, hr, rfl⟩
    · exact .inl ⟨rfl, rfl⟩
    · exact .inr (.inl ⟨by simpa using hi, hp, rfl⟩)
    · exact .inr (.inr (.inr (.inl ⟨i, c, rfl, hi, hp, hc, rfl⟩)))
    · exact .inr (.inr (.inr (.inr (.inl ⟨i, b, o, rfl, hi, hp, hb, ho, rfl⟩))))
    · exact .inr (.inr (.inr (.inr (.inr ⟨i, b, o, rfl, hi, hp, hb, ho, hr, rfl⟩))))
  | error e =>
    rw [executeWord_illegal hd] at h
    by_cases hp : s.phase = .error
    · rw [issue_in_error hp] at h
      exact .inr (.inl ⟨by simp, hp, by simpa using h.symm⟩)
    · rw [issue_raises hp (c := .illegalCommand) rfl] at h
      exact .inr (.inr (.inl ⟨e, rfl, hp, by simpa using h.symm⟩))

/-- With a host that takes bytes, no word waits (rule R267). -/
theorem executeWord_busy_of_ready {w : Word} {s t : State} (hr : s.outReady = true) (h : executeWord w s = .next t) :
    t.busy = s.busy := by
  rcases executeWord_next h with ⟨-, rfl⟩ | ⟨-, -, rfl⟩ | ⟨_, -, -, rfl⟩ | ⟨_, _, -, -, -, -, rfl⟩ |
    ⟨_, _, _, -, -, -, -, -, rfl⟩ | ⟨_, _, _, -, -, -, -, -, h, -⟩
  all_goals first | rfl | simp [hr] at h

/-! ## What a command does when its bytes are taken (rules R18, R63) -/

/-- With a host that takes bytes, a word does its effect on the block and puts its bytes in OUT, and nothing else. -/
theorem executeWord_ready (w : Word) {s : State} (hr : s.outReady = true) :
    executeWord w s =
      .next { s with toBlock := afterWord w s.toBlock, out := s.out ++ bytesOfWord w s.toBlock } := by
  have key : ∀ u : State, u.outReady = true → ∃ b bytes, ∀ v : State, v.outReady = true → v.toBlock = u.toBlock →
      executeWord w v = .next { v with toBlock := b, out := v.out ++ bytes } := by
    intro u hu
    cases hd : decodeWord w with
    | error e =>
      by_cases hp : u.phase = .error
      · refine ⟨u.toBlock, [], fun v hv hb => ?_⟩
        rw [executeWord_illegal hd, issue_in_error (hb ▸ hp), ← hb]; simp
      · refine ⟨(u.raise .illegalCommand w).toBlock, [], fun v hv hb => ?_⟩
        rw [executeWord_illegal hd, issue_raises (hb ▸ hp) (c := .illegalCommand) rfl]; simp [State.raise, ← hb]
    | ok i =>
      by_cases hi : i = .init
      · subst hi
        refine ⟨Block.reset, [], fun v hv hb => ?_⟩
        rw [executeWord_ok hd, exec_init]; simp [hostReset]
      by_cases hp : u.phase = .error
      · refine ⟨u.toBlock, [], fun v hv hb => ?_⟩
        rw [executeWord_ok hd, exec_in_error hi (hb ▸ hp), ← hb]; simp
      cases hx : bodyOf i u.toBlock with
      | error c =>
        refine ⟨(u.raise c (encode i)).toBlock, [], fun v hv hb => ?_⟩
        rw [executeWord_ok hd, exec_raises (hb ▸ hp) (hb ▸ hx)]; simp [State.raise, ← hb]
      | ok x =>
        refine ⟨x.1, x.2, fun v hv hb => ?_⟩
        rw [executeWord_ok hd, exec_completes (hb ▸ hp) (hb ▸ hx) (.inr hv)]
  obtain ⟨b, bytes, h⟩ := key s hr
  have he : wordEffect w s.toBlock = (b, bytes) := by
    simp only [wordEffect, h { State.reset with toBlock := s.toBlock } rfl rfl]; rfl
  rw [h s hr rfl, afterWord, bytesOfWord, he]

/-- The block and the bytes of a word, from what it does with a host that takes bytes. -/
theorem wordEffect_of_ready {w : Word} {s t : State} {bytes : List Byte} (hr : s.outReady = true)
    (h : executeWord w s = .next t) (ho : t.out = s.out ++ bytes) :
    bytesOfWord w s.toBlock = bytes ∧ t = { s with toBlock := afterWord w s.toBlock, out := s.out ++ bytes } := by
  rw [executeWord_ready w hr, Host.Outcome.next.injEq] at h
  subst h
  have hb : bytesOfWord w s.toBlock = bytes := List.append_cancel_left ho
  exact ⟨hb, by rw [hb]⟩

/-- The bytes of a command that completes. -/
theorem bytesOfWord_eq {w : Word} {i : Instr} {b b' : Block} {bytes : List Byte} (hd : decodeWord w = .ok i)
    (hp : b.phase ≠ .error) (h : bodyOf i b = .ok (b', bytes)) : bytesOfWord w b = bytes := by
  refine (wordEffect_of_ready (s := { State.reset with toBlock := b }) rfl
    ((executeWord_ok hd _).trans (exec_completes hp h (.inr rfl))) ?_).1
  simp

/-- What taking one byte does: it puts the next byte in OUT, and the command goes on waiting if it has another, or completes. -/
theorem takeOne_cases (r : Running) (s : State) :
    (∃ x rest, bytesLeft r s = x :: rest ∧ rest ≠ [] ∧
      takeOne r s = { s with busy := some { r with taken := r.taken + 1 }, out := s.out ++ [x] }) ∨
    ((bytesLeft r s).length ≤ 1 ∧ takeOne r s = finish r s) := by
  unfold takeOne
  split
  · exact .inl ⟨_, _, ‹_›, by simp, rfl⟩
  · exact .inr ⟨by simp [*], rfl⟩
  · exact .inr ⟨by simp [*], rfl⟩

/-- The bytes left after one more has been taken. -/
theorem bytesLeft_next {r : Running} {s : State} {x : Byte} {rest : List Byte} (h : bytesLeft r s = x :: rest) :
    (bytesOfWord r.word s.toBlock).drop (r.taken + 1) = rest := by
  have : (bytesOfWord r.word s.toBlock).drop r.taken = x :: rest := h
  rw [← List.drop_drop, this]; rfl

/-! ## A step (rules R16, R69, R267) -/

/-- Everything a step can do when it answers a next state. -/
theorem step_next {s t : State} (h : step s = .next t) :
    (s.busy = none ∧ s.inputs = [] ∧ t = s) ∨
    (∃ w rest, s.busy = none ∧ s.inputs = .command w :: rest ∧ executeWord w { s with inputs := rest } = .next t) ∨
    (∃ a rest, s.busy = none ∧ s.inputs = .read a :: rest ∧ t = readPort a { s with inputs := rest }) ∨
    (∃ rest, s.busy = none ∧ s.inputs = .reset :: rest ∧ t = hostReset { s with inputs := rest }) ∨
    (∃ r rest,
      ((s.busy = none ∧ r.taken = 0 ∧ s.inputs = .resetDuring r.word :: rest) ∨
        (s.busy = some r ∧ s.inputs = .reset :: rest)) ∧
      t = abandon r { s with inputs := rest }) ∨
    (∃ rest, s.busy = none ∧ s.inputs = .takeByte :: rest ∧ t = { s with inputs := rest }) ∨
    (∃ r rest, s.busy = some r ∧ s.inputs = .takeByte :: rest ∧ t = takeOne r { s with inputs := rest }) ∨
    (∃ r rest, s.busy = some r ∧ s.inputs = .sink true :: rest ∧
      t = finish r { s with inputs := rest, outReady := true }) ∨
    (∃ v rest, (s.busy = none ∨ v = false) ∧ s.inputs = .sink v :: rest ∧
      t = { s with inputs := rest, outReady := v }) := by
  simp only [step, nextEvent] at h
  cases hb : s.busy with
  | none =>
    cases he : s.inputs with
    | nil =>
      simp only [hb, he] at h
      exact .inl ⟨rfl, rfl, by simpa using h.symm⟩
    | cons e rest =>
      simp only [hb, he] at h
      refine .inr ?_
      cases e with
      | command w => exact .inl ⟨w, rest, rfl, rfl, h⟩
      | read a => exact .inr (.inl ⟨a, rest, rfl, rfl, by simpa [hostEvent, eq_comm] using h⟩)
      | reset => exact .inr (.inr (.inl ⟨rest, rfl, rfl, by simpa [hostEvent, eq_comm] using h⟩))
      | resetDuring w =>
        exact .inr (.inr (.inr (.inl ⟨⟨w, 0⟩, rest, .inl ⟨rfl, rfl, rfl⟩, by simpa [hostEvent, eq_comm] using h⟩)))
      | takeByte =>
        refine .inr (.inr (.inr (.inr (.inl ⟨rest, rfl, rfl, ?_⟩))))
        rw [hostEvent, Host.Outcome.next.injEq] at h
        rw [← h, ← hb]
      | sink v =>
        refine .inr (.inr (.inr (.inr (.inr (.inr (.inr ⟨v, rest, .inl rfl, rfl, ?_⟩))))))
        rw [hostEvent, Host.Outcome.next.injEq] at h
        rw [← h, ← hb]
  | some r =>
    simp only [hb, waitFor] at h
    refine .inr (.inr (.inr (.inr ?_)))
    split at h
    · rw [Host.Outcome.next.injEq] at h
      exact .inr (.inr (.inl ⟨r, _, rfl, ‹_›, h.symm.trans (by rw [← hb])⟩))
    · rw [Host.Outcome.next.injEq] at h
      exact .inr (.inr (.inr (.inl ⟨r, _, rfl, ‹_›, h.symm.trans (by rw [← hb])⟩)))
    · rw [Host.Outcome.next.injEq] at h
      exact .inr (.inr (.inr (.inr ⟨false, _, .inr rfl, ‹_›, h.symm.trans (by rw [← hb])⟩)))
    · rw [Host.Outcome.next.injEq] at h
      exact .inl ⟨r, _, .inr ⟨rfl, ‹_›⟩, h.symm.trans (by rw [← hb])⟩
    all_goals cases h

/-- The one way a step stops: a command waits, and the host never comes to take its next byte (rule R267). -/
theorem step_fault {s : State} {f : Fault} (h : step s = .fault f) : f = .outputStalled ∧ ∃ r, s.busy = some r := by
  refine ⟨by cases f; rfl, ?_⟩
  cases hb : s.busy with
  | some w => exact ⟨w, rfl⟩
  | none =>
    simp only [step, nextEvent, hb] at h
    split at h
    · cases h
    · rename_i e rest _
      cases e with
      | command w =>
        obtain ⟨t, ht⟩ := executeWord_answers w { s with inputs := rest, busy := none }
        rw [hostEvent, ht] at h; cases h
      | read a => cases h
      | reset => cases h
      | resetDuring w => cases h
      | takeByte => cases h
      | sink v => cases h

end Sys2Proof.Machine
end

