-- ==== Sys2Proof/Tests/Slice0.lean ====
section
/-! SUPPORT. The model's own tests. Every expected value is one of 95_test_vectors.md, named at the test, or is written out from a
rule of the spec; witness_X gives a state and operands that meet the hypotheses of the obligation X, a witness for each clause. -/

namespace Sys2Proof.Tests

open Sys2Proof.Machine

-- One after another: side by side, each kernel evaluation would hold a thread.
set_option Elab.async false

/-! ## Checks of a command's form -/

theorem test_source_format_b_without_operand : (SourceCommand.mk .cnt none).problem = some .operandMissing := by decide
theorem test_source_format_n_with_operand : (SourceCommand.mk .build (some 0)).problem = some .operandNotAllowed := by decide
theorem test_source_operand_256 : (SourceCommand.mk .dec (some 256)).problem = some .operandTooLarge := by decide
theorem test_source_well_formed :
    (SourceCommand.mk .dec (some 255)).instr = some (.dec 0xFF) ∧ (SourceCommand.mk .decend none).instr = some .decend := by
  decide
/-- V-CTL-8: a reserved opcode. -/
theorem test_word_reserved_opcode : wordProblem 0x04000000 = some .reservedOpcode ∧ wordWellFormed 0x04000000 = false := by
  decide
/-- V-CTL-9: RSV bit 8 set, in a format-B and in a format-N word. -/
theorem test_word_reserved_bits :
    wordProblem 0x10000100 = some .reservedBits ∧ wordProblem 0x11000100 = some .reservedBits := by decide
/-- V-CTL-2: a format-N word with bit 0 set. -/
theorem test_word_operand_bits : wordProblem 0x00000001 = some .operandBits := by decide

/-! ## Words written out from rules R80 to R82, field by field -/

theorem test_decode_nop : decodeWord ((0b00000000 : BitVec 8) ++ (0 : BitVec 16) ++ (0 : BitVec 8)) = .ok .nop := by rfl
theorem test_decode_init : decodeWord ((0b00000001 : BitVec 8) ++ (0 : BitVec 16) ++ (0 : BitVec 8)) = .ok .init := by rfl
theorem test_decode_abortsrc :
    decodeWord ((0b00000010 : BitVec 8) ++ (0 : BitVec 16) ++ (0 : BitVec 8)) = .ok .abortsrc := by rfl
theorem test_decode_abortsnk :
    decodeWord ((0b00000011 : BitVec 8) ++ (0 : BitVec 16) ++ (0 : BitVec 8)) = .ok .abortsnk := by rfl
theorem test_decode_cnt :
    decodeWord ((0b00010000 : BitVec 8) ++ (0 : BitVec 16) ++ (0b01000001 : BitVec 8)) = .ok (.cnt 0x41) := by rfl
theorem test_decode_build : decodeWord ((0b00010001 : BitVec 8) ++ (0 : BitVec 16) ++ (0 : BitVec 8)) = .ok .build := by rfl
theorem test_decode_assign : decodeWord ((0b00010010 : BitVec 8) ++ (0 : BitVec 16) ++ (0 : BitVec 8)) = .ok .assign := by rfl
theorem test_decode_hdrout : decodeWord ((0b00010011 : BitVec 8) ++ (0 : BitVec 16) ++ (0 : BitVec 8)) = .ok .hdrout := by rfl
theorem test_decode_enc :
    decodeWord ((0b00010100 : BitVec 8) ++ (0 : BitVec 16) ++ (0b10000001 : BitVec 8)) = .ok (.enc 0x81) := by rfl
theorem test_decode_encend : decodeWord ((0b00010101 : BitVec 8) ++ (0 : BitVec 16) ++ (0 : BitVec 8)) = .ok .encend := by rfl
theorem test_decode_hdrin :
    decodeWord ((0b00100000 : BitVec 8) ++ (0 : BitVec 16) ++ (0b11110000 : BitVec 8)) = .ok (.hdrin 0xF0) := by rfl
theorem test_decode_dec :
    decodeWord ((0b00100001 : BitVec 8) ++ (0 : BitVec 16) ++ (0b00011111 : BitVec 8)) = .ok (.dec 0x1F) := by rfl
theorem test_decode_decend : decodeWord ((0b00100010 : BitVec 8) ++ (0 : BitVec 16) ++ (0 : BitVec 8)) = .ok .decend := by rfl
/-- Rule R84: the first and last opcode of each reserved range. -/
theorem test_decode_reserved_opcodes :
    (∀ opc ∈ [0x04#8, 0x0F#8, 0x16#8, 0x1F#8, 0x23#8, 0xFF#8], (decodeWord (formatN opc)).toOption = none) := by decide
theorem test_decode_table_word :
    decodeTableWord 32 0x1400005A = some (.enc 0x5A) ∧ decodeTableWord 32 0x11000001 = none ∧
      decodeTableWord 32 0x111000000 = none := by decide

/-! ## Command text (rules R86, R87) -/

theorem test_assemble_character : (lineWords "cnt 'A' ; count it".toList).toOption = some [0x10000041] := by decide +kernel
/-- Assumption 10: white space must separate a mnemonic from its operand. -/
theorem test_assemble_needs_white_space :
    (lineWords "CNT\t'A'".toList).toOption = some [0x10000041] ∧ (lineWords "CNT'A'".toList).toOption = none := by
  decide +kernel
theorem test_assemble_compress :
    (lineWords "COMPRESS 1, 0x2".toList).toOption =
      some [0x01000000, 0x10000001, 0x10000002, 0x11000000, 0x12000000, 0x13000000, 0x14000001, 0x14000002,
        0x15000000] := by decide +kernel

/-! ## Small states: those of the scenario of V-SRC-1, with OUT cut to nothing -/

/-- The next state of an outcome, if it is one. -/
def nextOf : Host.Outcome State Fault Refusal → Option State
  | .next t => some t
  | .fault _ => none
  | .refused _ => none

/-- V-SRC-1's table. -/
def freqS : Table (BitVec 32) := ⟨[(0x41, 3), (0x42, 2), (0x43, 1)]⟩

/-- V-BLD-1's tree. -/
def treeS : Tree :=
  ⟨⟨[(0x41, ⟨true, 3, 0, 0⟩), (0x42, ⟨true, 2, 0, 0⟩), (0x43, ⟨true, 1, 0, 0⟩), (256, ⟨true, 3, 0x43, 0x42⟩),
    (257, ⟨true, 6, 0x41, 256⟩)]⟩, 257, true, 3, 2⟩

/-- V-ASN-1's LUT: "0", "11" and "10", where bit 0 of CODE is c_0. -/
def lutS : Table LutEntry := ⟨[(0x41, ⟨true, 1, 0b0⟩), (0x42, ⟨true, 2, 0b11⟩), (0x43, ⟨true, 2, 0b01⟩)]⟩

def countedS : State := { State.reset with phase := .count, freq := freqS, total := 6 }
def builtS : State := { countedS with tree := treeS, walk := 257, phase := .cbuilt }
def codedS : State := { builtS with lut := lutS, rem := freqS, phase := .coded }
def encS : State := { codedS with phase := .enc }
/-- After ENC 0x41 three times and ENC 0x42 twice. -/
def enc5S : State := { encS with rem := ⟨[(0x43, 1)]⟩, acc := 0x0F, fill := 7, symcnt := 5, bitcnt := 7 }
/-- After all six. -/
def enc6S : State := { encS with rem := Table.empty, acc := 0, fill := 1, symcnt := 6, bitcnt := 9 }
/-- Before ENCEND's byte is taken (rule R267). -/
def waitS : State := { enc6S with busy := some ⟨0x15000000, 0⟩, outReady := false }
def hdoneS : State := { State.reset with freq := freqS, total := 6, hdrpos := 1024, phase := .hdone }
def decS : State := { hdoneS with tree := treeS, walk := 257, phase := .dec }
/-- After DEC 0x1F. -/
def dec1S : State := { decS with walk := 256, symcnt := 5, bitcnt := 8 }
/-- After DEC 0x00. -/
def dec2S : State := { decS with symcnt := 6, bitcnt := 9 }
/-- V-DEC-1's DEC 0x1F, with k of its five bytes taken (rules R60, R66, R267). -/
def partS (k : Nat) : State :=
  { decS with busy := some ⟨0x2100001F, k⟩, outReady := false, out := [0x41, 0x41, 0x41, 0x42, 0x42].take k }
def hloadS : State := { State.reset with hdrpos := 100, phase := .hload }
/-- V-CTL-2's end. -/
def errorS : State := { State.reset with phase := .error, err := .illegalCommand, errCmd := 1 }
/-- The single-leaf tree of V-BLD-6, on the decompress path. -/
def singleS : State :=
  { hdoneS with
    freq := ⟨[(0x42, 10)]⟩
    total := 10
    tree := ⟨⟨[(0x42, ⟨true, 10, 0, 0⟩)]⟩, 0x42, true, 1, 0⟩
    walk := 0x42
    phase := .dec }

/-! ## One step of each command -/

/-- V-CTL-1. -/
theorem test_nop : nextOf (exec .nop countedS) = some countedS := by decide +kernel
/-- V-CTL-5. -/
theorem test_init_leaves_error : nextOf (exec .init errorS) = some State.reset := by decide +kernel
/-- V-CTL-2, through the command port: 0x00000001 is not NOP. -/
theorem test_illegal_word : nextOf (executeWord 0x00000001 State.reset) = some errorS := by decide +kernel
/-- V-CTL-2's register view. -/
theorem test_error_registers : errorS.toBlock.status = 0x01F ∧ errorS.toBlock.errInfo = 0x07 := by decide
/-- V-CTL-6. -/
theorem test_abortsrc :
    (nextOf (exec .abortsrc { State.reset with phase := .count, freq := ⟨[(1, 1)]⟩, total := 1 })).map
      (fun t => (t.toBlock.errInfo, t.errCmd, t.toBlock.status, t.freq, t.total)) =
    some (0x11, 0x02000000, 0x01F, ⟨[(1, 1)]⟩, 1) := by decide +kernel
/-- V-CTL-7. -/
theorem test_abortsnk :
    (nextOf (exec .abortsnk encS)).map (fun t => (t.toBlock.errInfo, t.errCmd, t.toBlock.status)) =
      some (0x42, 0x03000000, 0x03F) := by decide +kernel
/-- V-CNT-1, as the first command after reset. -/
theorem test_cnt :
    nextOf (step (State.reset.withFetchWord 32 0x10000041)) =
      some { State.reset with freq := ⟨[(0x41, 1)]⟩, total := 1, phase := .count } := by decide +kernel
/-- V-CNT-3. -/
theorem test_cnt_overflow :
    let s := { State.reset with phase := .count, freq := ⟨[(7, 0xFFFFFFFF)]⟩, total := 0xFFFFFFFF }
    nextOf (exec (.cnt 7) s) =
      some { s with phase := .error, err := .freqOverflow, errPhase := .count, errCmd := 0x10000007 } := by decide +kernel
/-- V-BLD-1. -/
theorem test_build : nextOf (exec .build countedS) = some builtS := by decide +kernel
/-- V-BLD-4: a leaf is removed before an internal node of equal weight. -/
theorem test_build_tie :
    treeBuild ⟨[(0x61, 1), (0x62, 1), (0x63, 2)]⟩ =
      ⟨⟨[(0x61, ⟨true, 1, 0, 0⟩), (0x62, ⟨true, 1, 0, 0⟩), (0x63, ⟨true, 2, 0, 0⟩), (256, ⟨true, 2, 0x61, 0x62⟩),
        (257, ⟨true, 4, 0x63, 256⟩)]⟩, 257, true, 3, 2⟩ := by decide +kernel
/-- V-ASN-1. -/
theorem test_assign : nextOf (exec .assign builtS) = some codedS := by decide +kernel
/-- V-ASN-8. -/
theorem test_assign_from_idle :
    (nextOf (exec .assign State.reset)).map (fun t => (t.phase, t.err, t.errPhase)) = some (.error, .sequence, .idle) := by
  decide +kernel
/-- V-HDR-1. -/
theorem test_hdrout :
    nextOf (exec .hdrout codedS) = some { encS with
      out := List.replicate 263 0 ++ [3] ++ List.replicate 3 0 ++ [2] ++ List.replicate 3 0 ++ [1] ++
        List.replicate 752 0 } := by decide +kernel
/-- The sixth ENC of 95_test_vectors.md's table. -/
theorem test_enc_emits : nextOf (exec (.enc 0x43) enc5S) = some { enc6S with out := [0x1F] } := by decide +kernel
/-- V-ENC-1. -/
theorem test_enc_absent_symbol :
    nextOf (exec (.enc 0x44) encS) = some { encS with
      phase := .error
      err := .sourceMismatch
      errPhase := .enc
      errCmd := 0x14000044 } := by decide +kernel
/-- The ENCEND of the same table. -/
theorem test_encend :
    nextOf (exec .encend enc6S) = some { enc6S with acc := 0, fill := 0, phase := .edone, out := [0] } := by decide +kernel
/-- V-ENC-3: nothing is flushed. -/
theorem test_encend_short :
    (nextOf (exec .encend { encS with rem := ⟨[(0x41, 2), (0x42, 2), (0x43, 1)]⟩, fill := 1, symcnt := 1 })).map
      (fun t => (t.err, t.errCmd, t.fill, t.out)) = some (.sourceMismatch, 0x15000000, 1, []) := by decide +kernel
/-- V-HDR-7's last byte. -/
theorem test_hdrin :
    nextOf (exec (.hdrin 3) { State.reset with hdrpos := 263, phase := .hload }) =
      some { State.reset with freq := ⟨[(0x41, 3)]⟩, hdrpos := 264, phase := .hload } := by decide +kernel
/-- P2's last header byte: it completes the header. -/
theorem test_hdrin_completes :
    nextOf (exec (.hdrin 0) { State.reset with freq := freqS, hdrpos := 1023, phase := .hload }) = some hdoneS := by
  decide +kernel
/-- V-DEC-2: a code spans bytes. -/
theorem test_dec :
    nextOf (exec (.dec 0x1F) decS) = some { dec1S with out := [0x41, 0x41, 0x41, 0x42, 0x42] } := by decide +kernel
/-- V-DEC-6: a 1 among the padding; nothing is emitted or written. -/
theorem test_dec_padding :
    nextOf (exec (.dec 0x01) dec1S) = some { dec1S with
      phase := .error
      err := .malformedContainer
      errPhase := .dec
      errCmd := 0x21000001 } := by decide +kernel
/-- V-DEC-4. -/
theorem test_decend : nextOf (exec .decend dec2S) = some { dec2S with phase := .ddone } := by decide +kernel
/-- V-DEC-8. -/
theorem test_decend_truncated :
    (nextOf (exec .decend dec1S)).map (fun t => (t.err, t.errPhase, t.errCmd)) =
      some (.malformedContainer, .dec, 0x22000000) := by decide +kernel

/-- The register view of V-BLD-1 and V-ASN-1 (rules R42, R43). -/
theorem test_register_view :
    [0x01C, 0x008, 0x3000 + 4 * 256, 0x3000 + 4 * 257, 0x3000 + 4 * 0x41, 0x3800 + 4 * 257, 0x0C00 + 4 * 0x42,
      0x1000 + 32 * 0x42, 0x1000 + 32 * 0x43, 0x0800 + 4 * 0x41].map codedS.toBlock.memRead =
    [0x80000101, 0x023, 0x80420043, 0x81000041, 0x80000000, 6, 0x80000002, 0xC0000000, 0x80000000, 3].map some := by
  decide +kernel
/-- Each window's last word, the word after it, and what is no register-space word (rules R43, R61, R67). -/
theorem test_register_space_edges :
    [0x07FC, 0x0BFC, 0x0FFC, 0x2FFC, 0x37FC, 0x3FFC, 0x47FC, 0x4800, 0xFFFC].map codedS.toBlock.memRead =
      List.replicate 9 (some 0) ∧ codedS.toBlock.memRead 0x10000 = none ∧ codedS.toBlock.memRead 0x002 = none := by
  decide +kernel

/-- Rule R267: with no byte taken ENCEND does not complete, and completes when the host begins to take bytes; with nothing to come it
never does. -/
theorem test_encend_waits_for_the_sink :
    nextOf (step ({ enc6S with outReady := false }.withFetchWord 32 0x15000000)) = some waitS ∧
      nextOf (step { waitS with inputs := [.sink true] }) =
        some { enc6S with acc := 0, fill := 0, phase := .edone, out := [0] } ∧
      step waitS = .fault .outputStalled := ⟨by decide +kernel, by decide +kernel, rfl⟩
/-- Rules R60 and R66: OUT receives the bytes of V-DEC-1's DEC 0x1F one transfer at a time, and the last one completes it. -/
theorem test_dec_emits_byte_by_byte :
    nextOf (step ({ decS with outReady := false }.withFetchWord 32 0x2100001F)) = some (partS 0) ∧
      nextOf (step { partS 0 with inputs := [.takeByte] }) = some (partS 1) ∧
      nextOf (step { partS 2 with inputs := [.takeByte] }) = some (partS 3) ∧
      nextOf (step { partS 4 with inputs := [.takeByte] }) =
        some { dec1S with outReady := false, out := [0x41, 0x41, 0x41, 0x42, 0x42] } := by decide +kernel

/-! ## Witnesses -/

/-- The block of V-DEC-1 meets the invariant, with a tree, a walk and a budget in it. -/
theorem decS_inv : decS.toBlock.Inv where
  canonical := ⟨by decide, by decide, by decide, by decide⟩
  idle := by decide +kernel
  record := by decide +kernel
  errPhase := by decide +kernel
  clearRecord := by decide +kernel
  total := by decide +kernel
  hdrpos := by show decS.hdrpos.toNat = 1024; decide
  tree := by decide +kernel
  lut := by decide +kernel
  budget := by intro h; exact absurd h (by decide +kernel)
  noBudget := by decide +kernel
  finished := by decide +kernel
  packer := by decide +kernel
  noPending := by decide +kernel
  symcnt := by decide +kernel
  symcntZero := by decide +kernel
  bitcnt := by decide +kernel
  walk := by decide +kernel
  walkLeaf := by decide +kernel
  walkNode := by decide +kernel

/-- So does the block before ENCEND, with a LUT, a spent budget and a pending bit. -/
theorem enc6S_inv : enc6S.toBlock.Inv where
  canonical := ⟨by decide, by decide, by decide, by decide⟩
  idle := by decide +kernel
  record := by decide +kernel
  errPhase := by decide +kernel
  clearRecord := by decide +kernel
  total := by decide +kernel
  hdrpos := by show enc6S.hdrpos.toNat = 0; decide
  tree := by decide +kernel
  lut := by decide +kernel
  budget := fun _ => ⟨by decide +kernel, fun _ => Nat.zero_le _⟩
  noBudget := by decide +kernel
  finished := by decide +kernel
  packer := by decide +kernel
  noPending := by decide +kernel
  symcnt := by decide +kernel
  symcntZero := by decide +kernel
  bitcnt := by decide +kernel
  walk := by decide +kernel
  walkLeaf := by decide +kernel
  walkNode := by decide +kernel

/-- And the block before DECEND, with every symbol decoded. -/
theorem dec2S_inv : dec2S.toBlock.Inv where
  canonical := ⟨by decide, by decide, by decide, by decide⟩
  idle := by decide +kernel
  record := by decide +kernel
  errPhase := by decide +kernel
  clearRecord := by decide +kernel
  total := by decide +kernel
  hdrpos := by show dec2S.hdrpos.toNat = 1024; decide
  tree := by decide +kernel
  lut := by decide +kernel
  budget := by intro h; exact absurd h (by decide +kernel)
  noBudget := by decide +kernel
  finished := by decide +kernel
  packer := by decide +kernel
  noPending := by decide +kernel
  symcnt := by decide +kernel
  symcntZero := by decide +kernel
  bitcnt := by decide +kernel
  walk := by decide +kernel
  walkLeaf := by decide +kernel
  walkNode := by decide +kernel

theorem witness_EncodeOfDecodeIsTheWord : decodeWord 0x210000FF = .ok (.dec 0xFF) := by rfl
/-- One word for each way of being ILLEGAL, and a state to run it in. -/
theorem witness_IllegalWordsAreExactlyThese :
    decodeWord 0x23000000 = .error .reservedOpcode ∧ decodeWord 0x11800000 = .error .reservedBits ∧
      decodeWord 0x22000080 = .error .operandBits ∧ decodeWord 0x21000100 = .error .reservedBits ∧
      countedS.phase ≠ .error := by decide +kernel
theorem witness_OpcodeRowsNeverOverlap :
    ∃ w r1 r2, r1 ∈ opcodeTable ∧ r2 ∈ opcodeTable ∧ w &&& r1.mask = r1.matchWord ∧ w &&& r2.mask = r2.matchWord :=
  ⟨0x100000FF, ⟨.cnt, 0x10000000, 0xFFFFFF00, fun b => .cnt b⟩, ⟨.cnt, 0x10000000, 0xFFFFFF00, fun b => .cnt b⟩,
    by simp [opcodeTable], by simp [opcodeTable], by decide, by decide⟩
/-- Operands at both sides of the boundary, and the two formats. -/
theorem witness_AssemblerRefusesExactlyIllFormedCommands :
    (SourceCommand.mk .enc (some 255)).instr = some (.enc 0xFF) ∧ (SourceCommand.mk .enc (some 256)).instr = none ∧
      (SourceCommand.mk .enc none).instr = none ∧ (SourceCommand.mk .encend (some 0)).instr = none ∧
      (SourceCommand.mk .encend none).instr = some .encend := by decide
/-- A command word, and an ILLEGAL one outside ERROR and in it. -/
theorem witness_StepRunsTheDecodedCommand :
    (countedS.withFetchWord 32 0x11000000).busy = none ∧
      (countedS.withFetchWord 32 0x11000000).inputs = .command 0x11000000 :: [] ∧ decodeWord 0x11000000 = .ok .build ∧
      decodeWord 0x04000000 = .error .reservedOpcode ∧ countedS.phase ≠ .error ∧ errorS.phase = .error := by
  decide +kernel
theorem witness_IdleBlockKeepsAllItsState : countedS.busy = none ∧ countedS.inputs = [] := ⟨rfl, rfl⟩
/-- An ILLEGAL word and a command word, each ignored. -/
theorem witness_ErrorPhaseIgnoresAllWordsButInit :
    errorS.phase = .error ∧ (0x01000001 : Word) ≠ 0x01000000 ∧ (0x02000000 : Word) ≠ 0x01000000 := by decide
/-- The three ways out. -/
theorem witness_OnlyInitAndResetLeaveError :
    errorS.Waits ∧ errorS.phase = .error ∧
      ∀ e ∈ [.command 0x01000000, .reset, .resetDuring 0x13000000],
        ∃ t, step { errorS with inputs := [e] } = .next t ∧ t.phase ≠ .error := by
  refine ⟨fun w h => (by cases h), rfl, ?_⟩
  simp only [List.mem_cons, List.not_mem_nil, or_false, forall_eq_or_imp, forall_eq]
  refine ⟨⟨_, rfl, by decide⟩, ⟨_, rfl, by decide⟩, ⟨_, rfl, ?_⟩⟩
  simp
theorem witness_ErrorEntryIsPrecise :
    ∃ t, executeWord 0x14000044 encS = .next t ∧ encS.phase ≠ .error ∧ t.phase = .error :=
  ⟨_, rfl, by decide, by decide +kernel⟩
/-- An error of the command's own, and one of its phase check. -/
theorem witness_CommandsRaiseOnlyTheirErrors :
    (∃ t, exec (.enc 0x44) encS = .next t ∧ encS.phase ∈ legalPhases (.enc 0x44) ∧ t.phase = .error) ∧
      ∃ t, exec .build hloadS = .next t ∧ hloadS.phase ∉ legalPhases .build ∧ t.phase = .error :=
  ⟨⟨_, rfl, by decide, by decide +kernel⟩, ⟨_, rfl, by decide, by decide +kernel⟩⟩
theorem witness_PhaseTransitionsFollowTheTable :
    hloadS.phase ∉ legalPhases .build ∧ dec2S.phase ≠ .error ∧ dec2S.busy = none ∧
      ∃ t, exec .decend dec2S = .next t ∧ t.busy = none ∧ t.phase ≠ .error :=
  ⟨by decide, by decide, rfl, _, rfl, rfl, by decide +kernel⟩
theorem witness_HostReadsChangeNothing :
    countedS.busy = none ∧ { countedS with inputs := [.read 0x2] }.inputs = .read 0x2 :: [] ∧
      { countedS with inputs := [.sink false] }.inputs = .sink false :: [] ∧
      { countedS with inputs := [.takeByte] }.inputs = .takeByte :: [] := ⟨rfl, rfl, rfl, rfl⟩
theorem witness_ResetAndInitGiveTheResetValues :
    enc6S.busy = none ∧ { enc6S with inputs := [.reset] }.inputs = .reset :: [] ∧ errorS.busy = none ∧
      { errorS with inputs := [.command 0x01000000] }.inputs = .command 0x01000000 :: [] := ⟨rfl, rfl, rfl, rfl⟩
/-- ENCEND interrupted with one byte to emit, and DEC interrupted after two of its five. -/
theorem witness_ResetDuringACommandKeepsAFirstPartOfItsBytes :
    let s := { enc6S with inputs := [.resetDuring 0x15000000] }
    let v := { partS 2 with inputs := [.reset] }
    s.busy = none ∧ s.inputs = .resetDuring 0x15000000 :: [] ∧
      (nextOf (executeWord 0x15000000 { s with inputs := [], outReady := true })).map (·.out) = some (s.out ++ [0]) ∧
      (∃ t, step s = .next t) ∧ v.busy = some ⟨0x2100001F, 2⟩ ∧ v.inputs = .reset :: [] ∧
      (nextOf (executeWord 0x2100001F { v with inputs := [], outReady := true })).map (·.out) =
        some (v.out ++ [0x41, 0x41, 0x41, 0x42, 0x42]) ∧
      ∃ t, step v = .next t := ⟨rfl, rfl, by decide +kernel, ⟨_, rfl⟩, rfl, rfl, by decide +kernel, _, rfl⟩
theorem witness_OutOnlyGrows : ∃ t, step (enc6S.withFetchWord 32 0x15000000) = .next t ∧ t.out ≠ enc6S.out :=
  ⟨_, rfl, by decide +kernel⟩
/-- A command with a byte to emit and one with none; a waiting command before its first byte, with one more to follow and before its
last; and each transaction that can come next. -/
theorem witness_StalledSinkStopsOnlyEmittingCommands :
    let s := { enc6S with outReady := false }
    (s.outReady = false ∧ (∃ t, exec .encend { s with outReady := true } = .next t ∧ t.out ≠ s.out) ∧
      ∃ t, exec .nop { s with outReady := true } = .next t ∧ t.out = s.out) ∧
    (∀ k ∈ [0, 3, 4], (partS k).busy = some ⟨0x2100001F, k⟩ ∧
      (nextOf (executeWord 0x2100001F { partS k with busy := none, outReady := true })).map (·.out) =
        some ((partS k).out ++ [0x41, 0x41, 0x41, 0x42, 0x42])) ∧
    ∀ e ∈ [HostEvent.takeByte, .sink true, .sink false, .command 0, .resetDuring 0, .read 0],
      { waitS with inputs := [e] }.inputs = e :: [] :=
  ⟨⟨rfl, ⟨_, rfl, by decide +kernel⟩, _, rfl, by decide +kernel⟩, by decide +kernel, fun _ _ => rfl⟩
/-- Two states that differ beside the block. -/
theorem witness_EffectIsAFunctionOfBlockAndWord :
    let s2 := { enc5S with out := [1, 2], readData := [7] }
    enc5S.toBlock = s2.toBlock ∧ enc5S.outReady = s2.outReady ∧ enc5S ≠ s2 ∧
      ∃ t, executeWord 0x14000043 enc5S = .next t := ⟨rfl, rfl, by decide +kernel, _, rfl⟩
theorem witness_NoCommandDependsOnBitcnt : ∃ t, exec (.dec 0x1F) decS = .next t := ⟨_, rfl⟩
/-- The ends of the reserved ranges. -/
theorem witness_ScalarRegistersReadTheirFields :
    0x11 ≤ 0x11 ∧ 0x11 < 0x100 ∧ 0x11 ≤ 0xFF ∧ 0xFF < 0x100 ∧ codedS.toBlock.memRead 0x044 = some 0 ∧
      codedS.toBlock.memRead 0x3FC = some 0 := by decide +kernel
/-- The first and last entry of each window, and the ends of the reserved range. -/
theorem witness_ArrayWindowsReadTheirEntries :
    let b := { codedS.toBlock with freq := ⟨[(0, 5), (255, 6)]⟩, lut := ⟨[(255, ⟨true, 255, 1 <<< 254⟩)]⟩ }
    b.memRead 0x0400 = some 5 ∧ b.memRead 0x07FC = some 6 ∧ b.memRead 0x0FFC = some 0x800000FF ∧
      b.memRead 0x2FFC = some 0x2 ∧ b.memRead (0x3000 + 4 * 510) = some 0 ∧ b.memRead (4 * 0x1200) = some 0 ∧
      b.memRead (4 * 0x3FFF) = some 0 := by decide +kernel
theorem witness_AbortsRecordTheHostsFailure : countedS.phase ≠ .error ∧ errorS.phase = .error := by decide +kernel
/-- FREQ at its limit, one below it, and a phase where CNT is not legal. -/
theorem witness_CntCountsOneByte :
    let below := { countedS with freq := ⟨[(255, 0xFFFFFFFE)]⟩ }
    let full := { countedS with freq := ⟨[(255, 0xFFFFFFFF)]⟩ }
    below.phase ∈ [.idle, .count] ∧ below.toBlock.freqAt (0xFF : Byte).toNat ≠ 0xFFFFFFFF ∧
      full.phase ∈ [.idle, .count] ∧ full.toBlock.freqAt (0xFF : Byte).toNat = 0xFFFFFFFF ∧
      builtS.phase ∉ [.idle, .count, .error] := by decide +kernel
theorem witness_BuildMakesTheTree :
    State.reset.phase ∈ [.idle, .count, .hdone] ∧ countedS.phase ∈ [.idle, .count, .hdone] ∧
      hdoneS.phase ∈ [.idle, .count, .hdone] ∧ hloadS.phase = .hload ∧
      builtS.phase ∈ [.cbuilt, .coded, .enc, .edone, .dec, .ddone] := by decide +kernel
theorem witness_AssignMakesTheLut : builtS.phase = .cbuilt ∧ State.reset.phase ∉ [.cbuilt, .error] := by decide +kernel
theorem witness_HdroutEmitsTheHeader :
    codedS.phase = .coded ∧ codedS.outReady = true ∧ encS.phase ∉ [.coded, .error] := by decide +kernel
theorem witness_PackBitShiftsAndEmits :
    (Packer.mk 0 0 []).fill.toNat < 7 ∧ (Packer.mk 0x3F 6 []).fill.toNat < 7 ∧ (Packer.mk 0x7F 7 []).fill.toNat = 7 := by
  decide
/-- A symbol that emits a byte, one that occurs no more, and a phase where ENC is not legal. -/
theorem witness_EncPacksTheCode :
    enc5S.phase = .enc ∧ enc5S.toBlock.remAt (0x43 : Byte).toNat ≠ 0 ∧ enc5S.outReady = true ∧
      enc5S.toBlock.remAt (0x41 : Byte).toNat = 0 ∧ codedS.phase ∉ [.enc, .error] := by decide +kernel
theorem witness_EncendFlushesThePartialByte :
    let whole := { enc6S with acc := 0, fill := 0 }
    (whole.phase = .enc ∧ whole.symcnt = whole.total ∧ whole.fill = 0) ∧
      (enc6S.phase = .enc ∧ enc6S.symcnt = enc6S.total ∧ enc6S.fill ≠ 0 ∧ enc6S.outReady = true) ∧
      (enc5S.phase = .enc ∧ enc5S.symcnt ≠ enc5S.total) ∧ codedS.phase ∉ [.enc, .error] := by decide +kernel
/-- The first header byte, the last one, and a phase where HDRIN is not legal. -/
theorem witness_HdrinTakesOneHeaderByte :
    let last := { hloadS with hdrpos := 1023 }
    (State.reset.phase ∈ [.idle, .hload] ∧ State.reset.hdrpos.toNat < 1024 ∧ State.reset.hdrpos.toNat ≠ 1023) ∧
      (last.phase ∈ [.idle, .hload] ∧ last.hdrpos.toNat < 1024 ∧ last.hdrpos.toNat = 1023) ∧
      hdoneS.phase ∉ [.idle, .hload, .error] := by decide +kernel
/-- Padding, a single-leaf tree, a walk step at the root, and a walk with nowhere to go. -/
theorem witness_DecodeTakesOneBitAtATime :
    (6 : BitVec 40) = decS.total ∧
      ((0 : BitVec 40) ≠ singleS.total ∧ singleS.tree.nleaf = 1) ∧
      ((0 : BitVec 40) ≠ decS.total ∧ decS.tree.nleaf ≠ 1 ∧ 256 ≤ decS.walk.toNat ∧ decS.tree.has decS.walk.toNat) ∧
      ((0 : BitVec 40) ≠ hdoneS.total ∧ hdoneS.tree.nleaf ≠ 1 ∧
        ¬ (256 ≤ hdoneS.walk.toNat ∧ hdoneS.tree.has hdoneS.walk.toNat)) := by decide +kernel
theorem witness_DecDecodesOneByte :
    (decS.phase = .dec ∧ decS.symcnt ≠ decS.total ∧
      (∃ l, decBits decS.toBlock ⟨decS.walk, decS.symcnt, decS.bitcnt, []⟩ (bitsOfByte 0x1F) = .ok l) ∧
      decS.outReady = true) ∧
    (dec1S.phase = .dec ∧ dec1S.symcnt ≠ dec1S.total ∧
      ∃ c, decBits dec1S.toBlock ⟨dec1S.walk, dec1S.symcnt, dec1S.bitcnt, []⟩ (bitsOfByte 0x01) = .error c) ∧
    (dec2S.phase = .dec ∧ dec2S.symcnt = dec2S.total) ∧ hdoneS.phase ∉ [.dec, .error] :=
  ⟨⟨rfl, by decide, ⟨_, rfl⟩, rfl⟩, ⟨rfl, by decide, _, rfl⟩, ⟨rfl, rfl⟩, by decide⟩
theorem witness_DecendChecksTheEnd :
    (dec2S.phase = .dec ∧ dec2S.symcnt = dec2S.total) ∧ (dec1S.phase = .dec ∧ dec1S.symcnt ≠ dec1S.total) ∧
      hloadS.phase ∈ [.idle, .hload] ∧ State.reset.phase ∈ [.idle, .hload] ∧
      hdoneS.phase ∉ [.dec, .idle, .hload, .error] := by decide +kernel
/-- And a sequence that takes one count to its limit. -/
theorem witness_CountingGivesTheHistogram :
    State.reset.phase = .idle ∧ (∀ v : Byte, State.reset.toBlock.freqAt v.toNat = 0) ∧ State.reset.total = 0 ∧
      (∀ v : Byte, [(0x41 : Byte), 0x41, 0x42].count v < 2 ^ 32) ∧
      (∀ v : Byte, (List.replicate (2 ^ 32 - 1) (0x41 : Byte)).count v < 2 ^ 32) ∧
      (List.replicate (2 ^ 32 - 1) (0x41 : Byte)).count 0x41 = 2 ^ 32 - 1 :=
  ⟨rfl, fun _ => rfl, rfl, fun _ => Nat.lt_of_le_of_lt List.count_le_length (by decide),
    fun _ => Nat.lt_of_le_of_lt List.count_le_length (by rw [List.length_replicate]; omega), List.count_replicate_self⟩
theorem witness_PopMinTakesTheLeastKey : [0x43, 0x42, 0x41] ≠ ([] : List Nat) := by decide
/-- The first and the last internal node, a third node in Q when the first is made, and an entry that is not allocated. -/
theorem witness_TreeWeightsAndCountsAreExact :
    (0x43 < 256 ∧ freqS.get 0 0x43 ≠ 0) ∧ (256 ≤ 257 ∧ (treeBuild freqS).has 257) ∧ (treeBuild freqS).rootV = true ∧
      (256 ≤ 256 ∧ (treeBuild freqS).has 256 ∧ (treeBuild freqS).inQ 256 0x41 ∧
        0x41 ≠ ((treeBuild freqS).nodeAt 256).left.toNat ∧ 0x41 ≠ ((treeBuild freqS).nodeAt 256).right.toNat) ∧
      ¬ (treeBuild freqS).has 258 := by
  decide +kernel
theorem witness_DegenerateAlphabetsHaveNoInternalNode :
    leafCount Table.empty = 0 ∧ 255 < 256 ∧ (⟨[(255, 9)]⟩ : Table (BitVec 32)).get 0 255 ≠ 0 ∧
      leafCount ⟨[(255, 9)]⟩ = 1 := by decide +kernel
theorem witness_BothPathsBuildTheSameTree :
    (∀ k < 256, countedS.toBlock.freqAt k = hdoneS.toBlock.freqAt k) ∧ (∃ t, exec .build countedS = .next t) ∧
      (∃ t, exec .build hdoneS = .next t) ∧ countedS.phase ∈ [.idle, .count, .hdone] ∧
      hdoneS.phase ∈ [.idle, .count, .hdone] :=
  ⟨fun _ _ => rfl, ⟨_, rfl⟩, ⟨_, rfl⟩, by decide, by decide⟩
/-- A code of two bits, cut after its first, and a symbol without one. -/
theorem witness_CodesAreRootToLeafPaths :
    2 ≤ leafCount freqS ∧ 0x42 < 256 ∧ ((codeLut (treeBuild freqS)).get LutEntry.none 0x42).valid = true ∧
      ((codeLut (treeBuild freqS)).get LutEntry.none 0x42).bits = [true] ++ [true] ∧ [true] ≠ [] ∧
      ((codeLut (treeBuild freqS)).get LutEntry.none 255).valid = false := by decide +kernel
theorem witness_CodeLengthsAreBounded :
    ((codeLut (treeBuild freqS)).get LutEntry.none 0x42).valid = true ∧
      ((codeLut (treeBuild freqS)).get LutEntry.none 255).valid = false ∧
      ((codeLut (treeBuild freqS)).get LutEntry.none 0x42).len.toNat ≤ 2 := by decide +kernel
theorem witness_SingleSymbolGetsTheCodeZero :
    (⟨[(0x42, 10)]⟩ : Table (BitVec 32)).get 0 0x42 ≠ 0 ∧ leafCount ⟨[(0x42, 10)]⟩ = 1 ∧ 0x42 < 256 ∧ 0x41 < 256 := by
  decide +kernel
theorem witness_CodesArePrefixFree :
    0x41 < 256 ∧ 0x42 < 256 ∧ 0x41 ≠ 0x42 ∧ ((codeLut (treeBuild freqS)).get LutEntry.none 0x41).valid = true ∧
      ((codeLut (treeBuild freqS)).get LutEntry.none 0x42).valid = true := by decide +kernel
theorem witness_CodeLengthsFillTheTree : 2 ≤ leafCount freqS := by decide +kernel
theorem witness_HeaderReadsBack : freqS.wf 256 0 := by decide
/-- V-DEC-14's first byte. -/
theorem witness_SingleLeafDecodesEveryBit :
    singleS.tree.nleaf = 1 ∧ (0 : BitVec 40).toNat + (bitsOfByte 0xFF).length ≤ singleS.total.toNat ∧
      (0 : BitVec 48).toNat + (bitsOfByte 0xFF).length < 2 ^ 48 := by decide +kernel
theorem witness_PaddingIsAcceptedOnlyWhenZero : (Walker.mk 257 6 9 []).symcnt = decS.total := by decide
theorem witness_DecodeTraversalCannotHappen :
    decS.toBlock.Inv ∧ decS.phase ≠ .error ∧ ∃ t, executeWord 0x2100001F decS = .next t :=
  ⟨decS_inv, by decide, _, rfl⟩
theorem witness_DecodingTheCodesGivesTheSymbols :
    decS.tree = treeBuild decS.freq ∧ decS.walk = decS.tree.root ∧
      (∀ x ∈ [(0x43 : Byte), 0x41, 0x42], decS.toBlock.freqAt x.toNat ≠ 0) ∧
      decS.symcnt.toNat + [(0x43 : Byte), 0x41, 0x42].length ≤ decS.total.toNat := by decide +kernel
theorem witness_DecompressUndoesCompress :
    State.reset.outReady = true ∧ ∀ v : Byte, [(0x41 : Byte), 0x41, 0x42].count v < 2 ^ 32 :=
  ⟨rfl, fun _ => Nat.lt_of_le_of_lt List.count_le_length (by decide)⟩
/-- A block that is ready, and one with a command that waits, part of its bytes taken. -/
theorem witness_EveryStepKeepsTheInvariant :
    ((decS.withFetchWord 32 0x2100001F).Inv ∧ ∃ t, step (decS.withFetchWord 32 0x2100001F) = .next t) ∧
      { partS 2 with inputs := [.takeByte] }.Inv ∧ ∃ t, step { partS 2 with inputs := [.takeByte] } = .next t := by
  refine ⟨⟨⟨decS_inv, fun w h => by cases h⟩, _, rfl⟩, ⟨decS_inv, ?_⟩, _, rfl⟩
  intro w h
  cases h
  exact ⟨rfl, by decide, by decide +kernel⟩
/-- One state for each clause: IDLE, ENC, DEC with every symbol decoded. -/
theorem witness_EightInvariantsHoldAfterEveryStep :
    (enc6S.toBlock.Inv ∧ ∃ t, step { enc6S with inputs := [.reset] } = .next t ∧ t.phase = .idle) ∧
      (∃ t, step (enc6S.withFetchWord 32 0) = .next t ∧ t.phase = .enc ∧ t.tree.rootV = true) ∧
      (dec2S.toBlock.Inv ∧ ∃ t, step (dec2S.withFetchWord 32 0) = .next t ∧ t.phase = .dec ∧ t.symcnt = t.total) :=
  ⟨⟨enc6S_inv, _, rfl, rfl⟩, ⟨_, rfl, rfl, rfl⟩, dec2S_inv, _, rfl, rfl, rfl⟩

end Sys2Proof.Tests
end

section
/-! SUPPORT. Determinism of a command (rule R18): what the block ends with and which bytes are emitted depend on the block
and on whether the host takes bytes, carried from `complete` through `issue` and `exec` to `executeWord`. -/

namespace Sys2Proof.Machine

/-- Two states with the same block, and hosts that take bytes alike, get the same block and the same emitted bytes from `run`
(rule R18). -/
def EffectFromBlockAlone (run : State → Host.Outcome State Fault Refusal) : Prop :=
  ∀ s1 s2 t1 : State, s1.toBlock = s2.toBlock → s1.outReady = s2.outReady → run s1 = .next t1 →
    ∃ t2 bytes, run s2 = .next t2 ∧ t1.toBlock = t2.toBlock ∧ t1.out = s1.out ++ bytes ∧ t2.out = s2.out ++ bytes

theorem State.raise_toBlock_congr {s1 s2 : State} (hb : s1.toBlock = s2.toBlock) (c : ErrCode) (w : Word) :
    (s1.raise c w).toBlock = (s2.raise c w).toBlock := by
  simp only [State.raise, hb]

theorem complete_effectFromBlockAlone (w : Word) (e : Effect) : EffectFromBlockAlone (complete w e) := by
  intro s1 s2 t1 hb hr h
  rcases complete_next h with ⟨c, rfl, rfl⟩ | ⟨b, bytes, rfl, hdone, rfl⟩ | ⟨b, bytes, rfl, hbytes, hwaits, rfl⟩
  case inl =>
    exact ⟨_, [], complete_error w c s2, State.raise_toBlock_congr hb c w, by simp, by simp⟩
  case inr.inl =>
    exact ⟨_, bytes, complete_ok (hr ▸ hdone), rfl, rfl, rfl⟩
  case inr.inr =>
    exact ⟨_, [], complete_waits hbytes (hr ▸ hwaits), hb, by simp, by simp⟩

theorem issue_effectFromBlockAlone (w : Word) (body : Block → Effect) : EffectFromBlockAlone (issue w body) := by
  intro s1 s2 t1 hb hr h
  by_cases hp : s1.phase = .error
  · rw [issue_in_error hp, Host.Outcome.next.injEq] at h
    subst h
    exact ⟨s2, [], issue_in_error (hb ▸ hp), hb, by simp, by simp⟩
  · rw [issue_running hp, hb] at h
    rw [issue_running (hb ▸ hp)]
    exact complete_effectFromBlockAlone w _ s1 s2 t1 hb hr h

/-- INIT is completed in every phase (rule R102); every other command is dispatched (rule R100). -/
theorem exec_effectFromBlockAlone (i : Instr) : EffectFromBlockAlone (exec i) := by
  by_cases hi : i = .init
  · subst hi
    exact complete_effectFromBlockAlone (encode .init) (.ok (Block.reset, []))
  · rw [funext (exec_eq_issue hi)]
    exact issue_effectFromBlockAlone (encode i) (bodyOf i)

theorem executeWord_effectFromBlockAlone (w : Word) : EffectFromBlockAlone (executeWord w) := by
  cases hd : decodeWord w with
  | ok i =>
    rw [funext (executeWord_ok hd)]
    exact exec_effectFromBlockAlone i
  | error e =>
    rw [funext (executeWord_illegal hd)]
    exact issue_effectFromBlockAlone w illegalBody

/-- Settles O19: dispatch and completion look at the block and at whether the host takes bytes, and only append to OUT. -/
theorem effectIsAFunctionOfBlockAndWord : Obligations.EffectIsAFunctionOfBlockAndWord :=
  executeWord_effectFromBlockAlone

end Sys2Proof.Machine
end

section
/-! SUPPORT. The register space (rules R39, R41 to R43): which word stands at each byte offset, and which bits of a word a field
is read from. -/

namespace Sys2Proof.Machine

/-! ## The word at an offset (rules R11, R61) -/

theorem Block.memRead_word (b : Block) {addr n : Nat} (ha : addr = 4 * n) (hn : n < 0x4000) :
    b.memRead addr = some (b.readWord (BitVec.ofNat 14 n)) := by
  have hc : addr % 4 = 0 ∧ addr < 0x10000 := by omega
  rw [Block.memRead, if_pos hc, show addr / 4 = n by omega]

theorem Block.memRead_scalar (b : Block) {addr n : Nat} (ha : addr = 4 * n) (hn : n < 0x100) :
    b.memRead addr = some (b.scalarWord n) := by
  rw [b.memRead_word ha (by omega)]
  simp (disch := omega) only [Block.readWord, BitVec.toNat_ofNat, Nat.mod_eq_of_lt, if_pos]

/-- Word offsets 0x11 and up in the scalar range are reserved (rule R42). -/
theorem Block.scalarWord_reserved (b : Block) {n : Nat} (hn : 0x11 ≤ n) : b.scalarWord n = 0 := by
  obtain ⟨m, rfl⟩ := Nat.exists_eq_add_of_le' hn
  rfl

/-- The reset column of rule R42. -/
theorem Block.reset_scalarWord {n : Nat} (h : 2 ≤ n) : Block.reset.scalarWord n = 0 := by
  by_cases hn : n < 0x11
  · have hall : ∀ n < 0x11, 2 ≤ n → Block.reset.scalarWord n = 0 := by decide
    exact hall n hn h
  · exact Block.scalarWord_reserved _ (by omega)

theorem Block.memRead_freq (b : Block) {s : Nat} (hs : s < 256) : b.memRead (0x0400 + 4 * s) = some (b.freqAt s) := by
  rw [b.memRead_word (n := 0x100 + s) (by omega) (by omega)]
  simp (disch := omega) only [Block.readWord, BitVec.toNat_ofNat, Nat.mod_eq_of_lt, if_neg, if_pos, Nat.add_sub_cancel_left]

theorem Block.memRead_rem (b : Block) {s : Nat} (hs : s < 256) : b.memRead (0x0800 + 4 * s) = some (b.remAt s) := by
  rw [b.memRead_word (n := 0x200 + s) (by omega) (by omega)]
  simp (disch := omega) only [Block.readWord, BitVec.toNat_ofNat, Nat.mod_eq_of_lt, if_neg, if_pos, Nat.add_sub_cancel_left]

theorem Block.memRead_lutLen (b : Block) {s : Nat} (hs : s < 256) :
    b.memRead (0x0C00 + 4 * s) = some (b.lutAt s).lenWord := by
  rw [b.memRead_word (n := 0x300 + s) (by omega) (by omega)]
  simp (disch := omega) only [Block.readWord, BitVec.toNat_ofNat, Nat.mod_eq_of_lt, if_neg, if_pos, Nat.add_sub_cancel_left]

theorem Block.memRead_lutBits (b : Block) {s k : Nat} (hs : s < 256) (hk : k < 8) :
    b.memRead (0x1000 + 32 * s + 4 * k) = some ((b.lutAt s).bitsWord k) := by
  rw [b.memRead_word (n := 0x400 + (8 * s + k)) (by omega) (by omega)]
  simp (disch := omega) only [Block.readWord, BitVec.toNat_ofNat, Nat.mod_eq_of_lt, if_neg, if_pos, Nat.add_sub_cancel_left]
  rw [show (8 * s + k) / 8 = s by omega, show (8 * s + k) % 8 = k by omega]

theorem Block.memRead_nodeLink (b : Block) {n : Nat} (hn : n < 512) :
    b.memRead (0x3000 + 4 * n) = some (b.tree.nodeAt n).linkWord := by
  rw [b.memRead_word (n := 0xC00 + n) (by omega) (by omega)]
  simp (disch := omega) only [Block.readWord, BitVec.toNat_ofNat, Nat.mod_eq_of_lt, if_neg, if_pos, Nat.add_sub_cancel_left]

theorem Block.memRead_weightLo (b : Block) {n : Nat} (hn : n < 512) :
    b.memRead (0x3800 + 4 * n) = some (loWord (b.tree.nodeAt n).weight) := by
  rw [b.memRead_word (n := 0xE00 + n) (by omega) (by omega)]
  simp (disch := omega) only [Block.readWord, BitVec.toNat_ofNat, Nat.mod_eq_of_lt, if_neg, if_pos, Nat.add_sub_cancel_left]

theorem Block.memRead_weightHi (b : Block) {n : Nat} (hn : n < 512) :
    b.memRead (0x4000 + 4 * n) = some (hiWord (b.tree.nodeAt n).weight) := by
  rw [b.memRead_word (n := 0x1000 + n) (by omega) (by omega)]
  simp (disch := omega) only [Block.readWord, BitVec.toNat_ofNat, Nat.mod_eq_of_lt, if_neg, if_pos, Nat.add_sub_cancel_left]

theorem Block.memRead_reserved (b : Block) {k : Nat} (h : 0x1200 ≤ k) (hk : k < 0x4000) : b.memRead (4 * k) = some 0 := by
  rw [b.memRead_word rfl hk]
  simp (disch := omega) only [Block.readWord, BitVec.toNat_ofNat, Nat.mod_eq_of_lt, if_neg]

/-- Node 511 does not exist: its words read 0 (rule R43). -/
theorem Tree.nodeAt_511 (t : Tree) : t.nodeAt 511 = Node.none := rfl

theorem Block.memRead_node511 (b : Block) :
    b.memRead 0x37FC = some 0 ∧ b.memRead 0x3FFC = some 0 ∧ b.memRead 0x47FC = some 0 := by
  have hlink := b.memRead_nodeLink (n := 511) (by decide)
  have hlo := b.memRead_weightLo (n := 511) (by decide)
  have hhi := b.memRead_weightHi (n := 511) (by decide)
  rw [b.tree.nodeAt_511] at hlink hlo hhi
  exact ⟨hlink.trans (by decide), hlo.trans (by decide), hhi.trans (by decide)⟩

/-! ## Fields of a word -/

@[simp] theorem flag_getLsbD_zero (p : Bool) : (flag p).getLsbD 0 = p := by cases p <;> rfl

/-- A value of up to 64 bits is its HI and LO words together (rule R42). -/
theorem hiWord_loWord {n : Nat} (hn : n ≤ 64) (v : BitVec n) : (hiWord v).toNat * 2 ^ 32 + (loWord v).toNat = v.toNat := by
  have hv : v.toNat < 2 ^ 64 := Nat.lt_of_lt_of_le v.isLt (Nat.pow_le_pow_right (by decide) hn)
  simp only [hiWord, loWord, BitVec.toNat_setWidth, BitVec.toNat_ushiftRight, Nat.shiftRight_eq_div_pow]
  omega

section Fields

variable {v w start len i : Nat} {x : BitVec v} {y : BitVec w}

/-- A field above the low part of a word is a field of its high part. -/
theorem extractLsb'_high {f : BitVec len} (h : w ≤ start) (hx : x.extractLsb' (start - w) len = f) :
    (x ++ y).extractLsb' start len = f := (BitVec.extractLsb'_append_eq_of_le h).trans hx

theorem getLsbD_high {p : Bool} (h : w ≤ i) (hx : x.getLsbD (i - w) = p) : (x ++ y).getLsbD i = p := by
  rw [BitVec.getLsbD_append, if_neg (by omega), hx]

theorem getLsbD_append_flag (p : Bool) : (x ++ flag p).getLsbD 0 = p := by
  rw [BitVec.getLsbD_append, if_pos (by decide), flag_getLsbD_zero]

end Fields

theorem Block.errInfo_fields (b : Block) :
    b.errInfo.extractLsb' 0 4 = b.err.code ∧ b.errInfo.extractLsb' 4 4 = b.errPhase.code ∧
      b.errInfo.extractLsb' 8 24 = 0 :=
  ⟨BitVec.extractLsb'_append_eq_right, extractLsb'_high (by decide) BitVec.extractLsb'_append_eq_right,
    extractLsb'_high (by decide) BitVec.extractLsb'_append_eq_left⟩

theorem Block.rootWord_fields (b : Block) :
    b.rootWord.extractLsb' 0 9 = b.tree.root ∧ b.rootWord.getLsbD 31 = b.tree.rootV ∧ b.rootWord.extractLsb' 9 22 = 0 :=
  ⟨BitVec.extractLsb'_append_eq_right, getLsbD_high (by decide) (getLsbD_high (by decide) (flag_getLsbD_zero _)),
    extractLsb'_high (by decide) BitVec.extractLsb'_append_eq_right⟩

theorem Block.pack_fields (b : Block) :
    b.pack.extractLsb' 0 8 = b.acc ∧ b.pack.extractLsb' 8 3 = b.fill ∧ b.pack.extractLsb' 11 21 = 0 :=
  ⟨BitVec.extractLsb'_append_eq_right, extractLsb'_high (by decide) BitVec.extractLsb'_append_eq_right,
    extractLsb'_high (by decide) BitVec.extractLsb'_append_eq_left⟩

theorem LutEntry.lenWord_fields (e : LutEntry) :
    e.lenWord.extractLsb' 0 8 = e.len ∧ e.lenWord.getLsbD 31 = e.valid ∧ e.lenWord.extractLsb' 8 23 = 0 :=
  ⟨BitVec.extractLsb'_append_eq_right, getLsbD_high (by decide) (getLsbD_high (by decide) (flag_getLsbD_zero _)),
    extractLsb'_high (by decide) BitVec.extractLsb'_append_eq_right⟩

theorem Node.linkWord_fields (n : Node) :
    n.linkWord.extractLsb' 0 9 = n.left ∧ n.linkWord.extractLsb' 16 9 = n.right ∧ n.linkWord.getLsbD 31 = n.alloc ∧
      n.linkWord.extractLsb' 9 7 = 0 ∧ n.linkWord.extractLsb' 25 6 = 0 := by
  refine ⟨BitVec.extractLsb'_append_eq_right, ?right, ?alloc, ?gapLow, ?gapHigh⟩
  case right => exact extractLsb'_high (by decide) (extractLsb'_high (by decide) BitVec.extractLsb'_append_eq_right)
  case alloc =>
    exact getLsbD_high (by decide) (getLsbD_high (by decide) (getLsbD_high (by decide) (getLsbD_high (by decide)
      (flag_getLsbD_zero _))))
  case gapLow => exact extractLsb'_high (by decide) BitVec.extractLsb'_append_eq_right
  case gapHigh =>
    exact extractLsb'_high (by decide) (extractLsb'_high (by decide) (extractLsb'_high (by decide)
      BitVec.extractLsb'_append_eq_right))

theorem Block.status_fields (b : Block) :
    b.status.extractLsb' 0 4 = b.phase.code ∧ b.status.getLsbD 4 = decide (b.phase = .error) ∧
      b.status.getLsbD 5 = b.tree.rootV ∧ b.status.getLsbD 6 = decide (b.tree.nleaf = 1) ∧
      b.status.getLsbD 7 = decide (b.fill ≠ 0) ∧ b.status.getLsbD 8 = decide (b.hdrpos = 1024) ∧
      b.status.extractLsb' 9 23 = 0 := by
  refine ⟨BitVec.extractLsb'_append_eq_right, getLsbD_high (by decide) ?bit4, getLsbD_high (by decide) ?bit5,
    getLsbD_high (by decide) ?bit6, getLsbD_high (by decide) ?bit7, getLsbD_high (by decide) ?bit8,
    extractLsb'_high (by decide) ?unlisted⟩
  case bit4 => exact getLsbD_append_flag _
  case bit5 => exact getLsbD_high (by decide) (getLsbD_append_flag _)
  case bit6 => exact getLsbD_high (by decide) (getLsbD_high (by decide) (getLsbD_append_flag _))
  case bit7 =>
    exact getLsbD_high (by decide) (getLsbD_high (by decide) (getLsbD_high (by decide) (getLsbD_append_flag _)))
  case bit8 =>
    exact getLsbD_high (by decide) (getLsbD_high (by decide) (getLsbD_high (by decide) (getLsbD_high (by decide)
      (getLsbD_append_flag _))))
  case unlisted =>
    exact extractLsb'_high (by decide) (extractLsb'_high (by decide) (extractLsb'_high (by decide)
      (extractLsb'_high (by decide) BitVec.extractLsb'_append_eq_left)))

theorem Phase.code_eq_fifteen (p : Phase) : p.code = 15 ↔ p = .error := by cases p <;> decide

/-- The word that takes bit after bit of `f` in at its low end, `n` of them. -/
def shiftIn (f : Nat → Bool) (n : Nat) : Word :=
  (List.range n).foldl (fun w j => (w <<< 1) ||| (flag (f j)).setWidth 32) 0

theorem LutEntry.bitsWord_eq_shiftIn (e : LutEntry) (k : Nat) :
    e.bitsWord k = shiftIn (fun j => e.code.getLsbD (32 * k + j)) 32 := rfl

theorem shiftIn_succ (f : Nat → Bool) (n : Nat) :
    shiftIn f (n + 1) = (shiftIn f n <<< 1) ||| (flag (f n)).setWidth 32 := by
  simp [shiftIn, List.range_succ]

/-- The bit taken in first stands highest. -/
theorem shiftIn_getLsbD (f : Nat → Bool) {n j : Nat} (hn : n ≤ 32) (hj : j < n) :
    (shiftIn f n).getLsbD (n - 1 - j) = f j := by
  induction n with
  | zero => omega
  | succ n ih =>
    rw [shiftIn_succ, BitVec.getLsbD_or]
    by_cases hlast : j = n
    · subst hlast
      rw [Nat.add_sub_cancel, Nat.sub_self, BitVec.getLsbD_setWidth, flag_getLsbD_zero]
      simp
    · have hbit : n + 1 - 1 - j = (n - 1 - j) + 1 := by omega
      have hlow : ((flag (f n)).setWidth 32).getLsbD ((n - 1 - j) + 1) = false := by simp
      rw [hbit, hlow, Bool.or_false, BitVec.getLsbD_shiftLeft, ← ih (by omega) (by omega)]
      simp; omega

/-- `c_0` of a code is bit 31 of word 0, and the bit that no code has reads 0 (rules R43, R65). -/
theorem LutEntry.bitsWord_getLsbD (e : LutEntry) (k : Nat) {j : Nat} (hj : j < 32) :
    (e.bitsWord k).getLsbD (31 - j) = if 32 * k + j < 255 then e.code.getLsbD (32 * k + j) else false := by
  rw [e.bitsWord_eq_shiftIn, shiftIn_getLsbD _ (n := 32) (Nat.le_refl _) hj]
  split
  · rfl
  · exact BitVec.getLsbD_of_ge _ _ (by omega)

/-- Settles O21: both registers are constants of the scalar range. -/
theorem identificationRegistersAreConstant : Obligations.IdentificationRegistersAreConstant := fun b =>
  ⟨b.memRead_scalar (n := 0) rfl (by decide), b.memRead_scalar (n := 1) rfl (by decide)⟩

/-- Settles O22: STATUS is word 2, and its fields are `Block.status_fields`. -/
theorem statusBitsAreComputedFromState : Obligations.StatusBitsAreComputedFromState := by
  refine ⟨rfl, rfl, rfl, rfl, rfl, rfl, rfl, rfl, rfl, rfl, rfl, fun b => ⟨b.status, ?_, ?_⟩⟩
  · exact b.memRead_scalar (n := 2) rfl (by decide)
  · obtain ⟨hphase, herr, hrootV, hleaf, hfill, hhdr, hzero⟩ := b.status_fields
    exact ⟨hphase, by rw [herr, decide_eq_true_iff, Phase.code_eq_fifteen], by rw [hrootV],
      by rw [hleaf, decide_eq_true_iff], by rw [hfill, decide_eq_true_iff], by rw [hhdr, decide_eq_true_iff], hzero⟩

/-- Settles O23: every register is a word of the scalar range, and its fields are those of its word. -/
theorem scalarRegistersReadTheirFields : Obligations.ScalarRegistersReadTheirFields := by
  refine ⟨⟨rfl, rfl, rfl, rfl, rfl, rfl, rfl, rfl, rfl⟩, ⟨rfl, rfl, rfl, rfl, rfl, rfl, rfl, rfl, rfl, rfl, rfl⟩,
    fun b => ?_, fun k h hk => ?_⟩
  · have hscalar : ∀ n < 0x100, b.memRead (4 * n) = some (b.scalarWord n) := fun n hn => b.memRead_scalar rfl hn
    exact ⟨hscalar 0x00 (by decide), hscalar 0x01 (by decide), hscalar 0x02 (by decide),
      ⟨b.errInfo, hscalar 0x03 (by decide), b.errInfo_fields⟩,
      hscalar 0x04 (by decide), hscalar 0x05 (by decide), hscalar 0x06 (by decide),
      ⟨b.rootWord, hscalar 0x07 (by decide), b.rootWord_fields⟩,
      ⟨_, _, hscalar 0x08 (by decide), hscalar 0x09 (by decide), hiWord_loWord (by decide) b.total⟩,
      ⟨_, _, hscalar 0x0A (by decide), hscalar 0x0B (by decide), hiWord_loWord (by decide) b.symcnt⟩,
      ⟨_, _, hscalar 0x0C (by decide), hscalar 0x0D (by decide), hiWord_loWord (by decide) b.bitcnt⟩,
      ⟨b.pack, hscalar 0x0E (by decide), b.pack_fields⟩,
      hscalar 0x0F (by decide), hscalar 0x10 (by decide),
      fun k h hk => by rw [hscalar k hk, b.scalarWord_reserved h]⟩
  · rw [Block.reset.memRead_scalar rfl hk, Block.reset_scalarWord h]

/-- Settles O24: each window by its own `memRead` lemma, its fields by those of its word; node 511 is no node. -/
theorem arrayWindowsReadTheirEntries : Obligations.ArrayWindowsReadTheirEntries := fun b =>
  ⟨fun _ hs => b.memRead_freq hs, fun _ hs => b.memRead_rem hs,
    fun s hs => ⟨_, b.memRead_lutLen hs, (b.lutAt s).lenWord_fields⟩,
    fun s hs k hk => ⟨_, b.memRead_lutBits hs hk, fun _ hj => (b.lutAt s).bitsWord_getLsbD k hj⟩,
    fun n hn => ⟨_, b.memRead_nodeLink (by omega), (b.tree.nodeAt n).linkWord_fields⟩,
    fun _ hn => ⟨_, _, b.memRead_weightLo (by omega), b.memRead_weightHi (by omega), hiWord_loWord (by decide) _⟩,
    b.memRead_node511.1, b.memRead_node511.2.1, b.memRead_node511.2.2, fun _ h hk => b.memRead_reserved h hk⟩

end Sys2Proof.Machine
end

section
/-! SUPPORT. Reset and INIT at the port (rules R102, R260, R261), and R44's reset values as they are read. -/

namespace Sys2Proof.Machine

theorem step_reset {s : State} {rest : List HostEvent} (hb : s.busy = none) (hin : s.inputs = .reset :: rest) :
    step s = .next (hostReset { s with inputs := rest }) := by
  simp only [step, nextEvent, hb, hin, hostEvent]

theorem step_command {s : State} {w : Word} {rest : List HostEvent} (hb : s.busy = none)
    (hin : s.inputs = .command w :: rest) : step s = executeWord w { s with inputs := rest } := by
  simp only [step, nextEvent, hb, hin, hostEvent]

/-- The word of INIT resets the block in every phase (rule R102). -/
theorem executeWord_init (s : State) : executeWord 0x01000000 s = .next (hostReset s) := by
  rw [executeWord_ok (w := 0x01000000) Laws.RoundTrip.init, exec_init]

@[simp] theorem Tree.none_nodeAt (n : Nat) : Tree.none.nodeAt n = Node.none := by
  simp [Tree.nodeAt, Tree.none]

/-- Settles O15: reset and INIT are one `hostReset`, which leaves OUT and puts the block at R44's values. -/
theorem resetAndInitGiveTheResetValues : Obligations.ResetAndInitGiveTheResetValues := by
  intro s rest hb hin
  have hstep : step s = .next (hostReset { s with inputs := rest }) := by
    rcases hin with hin | hin
    · exact step_reset hb hin
    · rw [step_command hb hin, executeWord_init]
  obtain ⟨hid, hparam⟩ := identificationRegistersAreConstant Block.reset
  have hnode : ∀ n, Block.reset.tree.nodeAt n = Node.none := Tree.none_nodeAt
  refine ⟨_, hstep, hb, ?_⟩
  rw [hostReset_toBlock, hostReset_out]
  exact ⟨rfl, fun _ => rfl, rfl, fun _ => rfl, fun n => by rw [hnode n]; exact ⟨rfl, rfl, rfl, rfl⟩, rfl, rfl, rfl, rfl,
    fun _ => ⟨rfl, rfl, rfl⟩, rfl, rfl, rfl, rfl, rfl, rfl, rfl, rfl, rfl, hid, hparam, rfl⟩

end Sys2Proof.Machine
end

section
/-! SUPPORT. The invariant of rule R40 over a command word and over a step: the reset block meets it, and whatever the host does
a step keeps it. -/

namespace Sys2Proof.Machine

theorem Block.reset_inv : Block.reset.Inv where
  canonical := ⟨Table.wf_empty _ _, Table.wf_empty _ _, Table.wf_empty _ _, Table.wf_empty _ _⟩
  idle := fun _ => rfl
  record := by decide
  errPhase := by decide
  clearRecord := fun _ => ⟨rfl, rfl⟩
  total := freqSum_empty.symm
  hdrpos := rfl
  tree := rfl
  lut := rfl
  budget := fun h => absurd h (by decide)
  noBudget := fun _ => rfl
  finished := fun _ => rfl
  packer := by decide
  noPending := fun _ => rfl
  symcnt := Nat.le_refl _
  symcntZero := fun _ => rfl
  bitcnt := Nat.le_refl _
  walk := fun _ _ => rfl
  walkLeaf := fun _ _ => rfl
  walkNode := by decide

/-- A body that completes keeps the invariant. -/
theorem bodyOf_inv {i : Instr} {b b' : Block} {o : List Byte} (hi : b.Inv) (h : bodyOf i b = .ok (b', o)) : b'.Inv := by
  cases i with
  | nop => cases h; exact hi
  | init => cases h; exact Block.reset_inv
  | abortsrc => cases h
  | abortsnk => cases h
  | cnt x => exact cntBody_inv hi h
  | build => exact buildBody_inv hi h
  | assign => exact assignBody_inv hi h
  | hdrout => exact hdroutBody_inv hi h
  | enc x => exact encBody_inv hi h
  | encend => exact encendBody_inv hi h
  | hdrin x => exact hdrinBody_inv hi h
  | dec x => exact decBody_inv hi h
  | decend => exact decendBody_inv hi h

/-- Every word, decoded or ILLEGAL, keeps it. -/
theorem executeWord_inv {w : Word} {s t : State} (hi : s.toBlock.Inv) (h : executeWord w s = .next t) : t.toBlock.Inv := by
  rcases executeWord_next h with ⟨-, rfl⟩ | ⟨-, -, rfl⟩ | ⟨_, -, hp, rfl⟩ | ⟨i, c, -, -, hp, hbody, rfl⟩ |
    ⟨i, b, bytes, -, -, hp, hbody, -, rfl⟩ | ⟨i, b, bytes, -, -, hp, -, -, -, rfl⟩
  case inl => exact Block.reset_inv
  case inr.inl => exact hi
  case inr.inr.inl => exact State.raise_inv hi hp (by decide)
  case inr.inr.inr.inl => exact State.raise_inv hi hp (bodyOf_error_ne_none hbody)
  case inr.inr.inr.inr.inl => exact bodyOf_inv hi hbody
  case inr.inr.inr.inr.inr => exact hi

/-- So does the block a waiting word leaves when it completes. -/
theorem afterWord_inv (w : Word) {b : Block} (hi : b.Inv) : (afterWord w b).Inv :=
  executeWord_inv (s := { State.reset with toBlock := b }) hi (executeWord_ready w rfl)

theorem takeOne_inv (r : Running) {s : State} (hi : s.toBlock.Inv) : (takeOne r s).toBlock.Inv := by
  rcases takeOne_cases r s with ⟨x, bytes, -, -, ht⟩ | ⟨-, ht⟩
  · rw [ht]; exact hi
  · rw [ht]; exact afterWord_inv r.word hi

/-- A step keeps the block's invariant, whatever waits. -/
theorem step_block_inv {s t : State} (hi : s.toBlock.Inv) (h : step s = .next t) : t.toBlock.Inv := by
  rcases step_next h with ⟨-, -, rfl⟩ | ⟨w, rest, -, -, hw⟩ | ⟨a, rest, -, -, rfl⟩ | ⟨rest, -, -, rfl⟩ |
    ⟨r, rest, -, rfl⟩ | ⟨rest, -, -, rfl⟩ | ⟨r, rest, -, -, rfl⟩ | ⟨r, rest, -, -, rfl⟩ | ⟨v, rest, -, -, rfl⟩
  · exact hi
  · exact executeWord_inv (s := { s with inputs := rest }) hi hw
  · exact hi
  · exact Block.reset_inv
  · exact Block.reset_inv
  · exact hi
  · exact takeOne_inv r (s := { s with inputs := rest }) hi
  · exact afterWord_inv r.word hi
  · exact hi

end Sys2Proof.Machine
end

section
/-! SUPPORT. Rule R40's items as the rule words them, each from the invariant, and the full binary tree of its item 4. -/

namespace Sys2Proof.Machine

/-- In Q's order a node does not come before itself, so an internal node's children differ (rule R139 item 3). -/
theorem treeBuild_children_ne (freq : Table (BitVec 32)) {n : Nat} (hn : 256 ≤ n) (h : (treeBuild freq).has n) :
    ((treeBuild freq).nodeAt n).left ≠ ((treeBuild freq).nodeAt n).right := by
  obtain ⟨hi, -⟩ := finalBuilder_inv freq
  rw [Tree.has, treeBuild_nodeAt] at h
  obtain ⟨-, -, -, -, hkey, -⟩ := hi.children n hn (Builder.node_lt_next hi h)
  rw [treeBuild_nodeAt]
  intro heq
  rw [heq, keyBefore_irrefl] at hkey
  exact absurd hkey (by decide)

/-- A node is still in Q at the end exactly when it is the root. -/
theorem mem_finalBuilder_q {freq : Table (BitVec 32)} {n : Nat} :
    n ∈ (finalBuilder freq).q ↔ (treeBuild freq).rootV = true ∧ n = (treeBuild freq).root.toNat := by
  rcases treeBuild_root freq with ⟨-, hq, hv, -⟩ | ⟨-, r, hq, hv, hr⟩
  · simp [hq, hv]
  · simp [hq, hv, hr]

theorem treeBuild_parentOf (freq : Table (BitVec 32)) (p n : Nat) :
    (treeBuild freq).parentOf p n ↔ (finalBuilder freq).parent p n := by
  simp only [Tree.parentOf, Tree.has, treeBuild_nodeAt]

/-- TreeBuild's tree is one full binary tree over the symbols with nonzero frequency (rule R139). -/
theorem treeBuild_full (freq : Table (BitVec 32)) : (treeBuild freq).Full freq := by
  obtain ⟨hi, -⟩ := finalBuilder_inv freq
  obtain ⟨hleaves, hchildren, -⟩ := treeBuild_facts freq
  refine ⟨hleaves, ?children, ?parent, ?rootTop, ?rootIn, ?noTree⟩
  case children =>
    intro n hn h
    obtain ⟨hl, hr, hll, hrl⟩ := hchildren n hn h
    exact ⟨hl, hr, hll, hrl, treeBuild_children_ne freq hn h⟩
  case parent =>
    intro n h hne
    rw [Tree.has, treeBuild_nodeAt] at h
    simp only [treeBuild_parentOf]
    exact hi.below n h fun hq => hne (mem_finalBuilder_q.1 hq).2
  case rootTop =>
    rintro p ⟨hv, hp⟩
    exact hi.top _ (mem_finalBuilder_q.2 ⟨hv, rfl⟩) p ((treeBuild_parentOf ..).1 hp)
  case rootIn =>
    intro hv
    rw [Tree.has, treeBuild_nodeAt]
    exact hi.q_alloc _ (mem_finalBuilder_q.2 ⟨hv, rfl⟩)
  case noTree =>
    intro hv n h
    have hcount : ¬ 1 ≤ leafCount freq := by rw [← treeBuild_rootV, hv]; decide
    by_cases hn : n < 256
    · exact hcount (mem_leafCount hn ((hleaves n hn).1 h))
    · rw [Tree.has, treeBuild_nodeAt] at h
      have hlt := Builder.node_lt_next hi h
      have hnext := finalBuilder_next freq
      omega

theorem eq_of_leafCount_one {freq : Table (BitVec 32)} (h1 : leafCount freq = 1) {s r : Nat} (hs : s < 256) (hr : r < 256)
    (hfs : freq.get 0 s ≠ 0) (hfr : freq.get 0 r ≠ 0) : s = r := by
  obtain ⟨a, ha⟩ := List.length_eq_one_iff.1 h1
  have hmem : ∀ k < 256, freq.get 0 k ≠ 0 → k = a := fun k hk hf => by
    rw [← List.mem_singleton, ← ha]; simpa [hk] using hf
  rw [hmem s hs hfs, hmem r hr hfr]

/-- ASSIGN gives no code to what is not a node of the tree. -/
theorem assignedEntry_of_not_has {t : Tree} (hroot : t.rootV = true → t.has t.root.toNat) {s : Nat} (hs : ¬ t.has s) :
    assignedEntry t s = LutEntry.none := by
  rw [assignedEntry]
  by_cases hv : t.rootV = false
  · rw [if_pos hv]
  · have hne : s ≠ t.root.toNat := fun h => hs (h ▸ hroot (by simpa using hv))
    rw [if_neg hv, if_neg hne, if_neg hs, ite_self]

/-- ASSIGN gives a code to every symbol that occurs (rules R151, R152). -/
theorem assignedEntry_valid {freq : Table (BitVec 32)} {s : Nat} (hs : s < 256) (hf : freq.get 0 s ≠ 0) :
    (assignedEntry (treeBuild freq) s).valid = true := by
  have hcount := mem_leafCount hs hf
  by_cases h1 : leafCount freq = 1
  · obtain ⟨hr, hfr⟩ := treeBuild_root_leaf freq h1
    rw [assignedEntry_single h1, if_pos (eq_of_leafCount_one h1 hs hr hf hfr)]
    rfl
  · obtain ⟨p, hp, -⟩ := assignedEntry_path (by omega) hs hf
    rw [hp]
    rfl

/-- A symbol has a code exactly when it occurs (rules R150, R151). -/
theorem codeLut_valid (freq : Table (BitVec 32)) {s : Nat} (hs : s < 256) :
    ((codeLut (treeBuild freq)).get LutEntry.none s).valid = true ↔ freq.get 0 s ≠ 0 := by
  rw [codeLut_get, if_pos hs]
  have hfull := treeBuild_full freq
  refine ⟨fun hv hf => ?_, assignedEntry_valid hs⟩
  have hnot : ¬ (treeBuild freq).has s := fun h => (hfull.leaves s hs).1 h hf
  rw [assignedEntry_of_not_has hfull.rootIn hnot] at hv
  exact absurd hv (by decide)

/-! ## The items of rule R40 -/

theorem Phase.code_range (p : Phase) : p.code.toNat ≤ 9 ∨ p.code.toNat = 15 := by cases p <;> decide

theorem Block.Inv.idle_tables {b : Block} (hi : b.Inv) (hp : b.phase = .idle) :
    (∀ k, b.freqAt k = 0 ∧ b.remAt k = 0 ∧ b.lutAt k = LutEntry.none ∧ b.tree.nodeAt k = Node.none) ∧ b.hdrpos = 0 := by
  rw [hi.idle hp]
  exact ⟨fun k => ⟨rfl, rfl, rfl, Tree.none_nodeAt k⟩, rfl⟩

/-- Item 3: outside a header that loads, in ERROR too. -/
theorem Block.Inv.total_eq_sum {b : Block} (hi : b.Inv) (hp : b.phase ≠ .hload)
    (he : b.phase = .error → b.errPhase ≠ .hload) : b.total.toNat = freqSum b.freq := by
  refine hi.freqSum_total ?_
  unfold Block.heldPhase
  split
  · exact he ‹_›
  · exact hp

/-- Item 4: a tree is there only after BUILD, and is TreeBuild's. -/
theorem Block.Inv.tree_full {b : Block} (hi : b.Inv) (hv : b.tree.rootV = true) : b.tree.Full b.freq := by
  have htree := hi.tree
  split at htree
  · rw [htree]; exact treeBuild_full b.freq
  · rw [htree] at hv; exact absurd hv (by decide)

/-- Item 5. -/
theorem Block.Inv.lut_valid {b : Block} (hi : b.Inv) (hp : b.phase ∈ [.coded, .enc, .edone]) {k : Nat} (hk : k < 256) :
    (b.lutAt k).valid = true ↔ b.freqAt k ≠ 0 := by
  have hheld : b.heldPhase = b.phase := Block.heldPhase_running fun h => by rw [h] at hp; exact absurd hp (by decide)
  have hbuilt : b.phase ∈ [.cbuilt, .coded, .enc, .edone, .dec, .ddone] :=
    (by decide : [Phase.coded, .enc, .edone] ⊆ [.cbuilt, .coded, .enc, .edone, .dec, .ddone]) hp
  have htree : b.tree = treeBuild b.freq := by rw [hi.tree, hheld, if_pos hbuilt]
  have hlut : b.lut = codeLut (treeBuild b.freq) := by rw [hi.lut, hheld, if_pos hp, htree]
  rw [Block.lutAt, hlut]
  exact codeLut_valid b.freq hk

/-- Item 6. -/
theorem Block.Inv.enc_budget {b : Block} (hi : b.Inv) (hp : b.phase = .enc) :
    freqSum b.rem + b.symcnt.toNat = b.total.toNat ∧ ∀ k, b.remAt k ≤ b.freqAt k := by
  refine hi.budget ?_
  rw [Block.heldPhase_running (by rw [hp]; decide), hp]
  decide

/-- Item 8. -/
theorem Block.Inv.walk_at_root {b : Block} (hi : b.Inv) (hp : b.phase = .dec) (hs : b.symcnt = b.total) :
    b.walk = b.tree.root := by
  refine hi.walk ?_ hs
  rw [Block.heldPhase_running (by rw [hp]; decide), hp]
  decide

/-- Settles O60: a step keeps the invariant, and each item of rule R40 follows from it. -/
theorem eightInvariantsHoldAfterEveryStep : Obligations.EightInvariantsHoldAfterEveryStep := by
  intro s t hs hstep
  have hi := step_block_inv hs hstep
  exact ⟨t.phase.code_range, hi.idle_tables, hi.total_eq_sum, hi.tree_full, fun hp _ hk => hi.lut_valid hp hk,
    hi.enc_budget, ⟨Nat.le_of_lt_succ t.fill.isLt, hi.packer⟩, hi.walk_at_root⟩

end Sys2Proof.Machine
end

section
/-! SUPPORT. Which words decode (rules R81 to R83): a word decodes exactly when it is the word of an instruction, and that is
when its fields are those of its opcode's format. -/

namespace Sys2Proof

/-! ## The formats of rule R81 by their fields -/

theorem eq_formatN_iff {w : Word} {o : BitVec 8} : w = formatN o ↔ opcField w = o ∧ w.extractLsb' 0 24 = 0 := by
  constructor
  · rintro rfl
    exact ⟨BitVec.extractLsb'_append_eq_left, BitVec.extractLsb'_append_eq_right⟩
  · rintro ⟨rfl, hlow⟩
    have hsplit : opcField w ++ w.extractLsb' 0 24 = w :=
      (BitVec.extractLsb'_append_extractLsb'_eq_extractLsb' rfl).trans BitVec.extractLsb'_eq_self
    rw [formatN, ← hlow, hsplit]

theorem exists_eq_formatB_iff {w : Word} {o : BitVec 8} : (∃ b, w = formatB o b) ↔ opcField w = o ∧ rsvField w = 0 := by
  constructor
  · rintro ⟨b, rfl⟩
    exact ⟨opcField_formatB o b, rsvField_formatB o b⟩
  · rintro ⟨rfl, hrsv⟩
    exact ⟨opndField w, by rw [formatB, ← hrsv]; exact word_eq_fields w⟩

/-! ## The opcodes of each format (rule R82) -/

theorem opcodeFormat_eq_n_iff {o : BitVec 8} : opcodeFormat o = some .n ↔
    o ∈ [0x00#8, 0x01#8, 0x02#8, 0x03#8, 0x11#8, 0x12#8, 0x13#8, 0x15#8, 0x22#8] := by
  rw [opcodeFormat]
  split_ifs with hn hb
  · exact iff_of_true rfl hn
  · exact iff_of_false (by decide) hn
  · exact iff_of_false (by decide) hn

theorem opcodeFormat_eq_b_iff {o : BitVec 8} : opcodeFormat o = some .b ↔ o ∈ [0x10#8, 0x14#8, 0x20#8, 0x21#8] := by
  rw [opcodeFormat]
  split_ifs with hn hb
  · have disjoint : ∀ c ∈ [0x00#8, 0x01#8, 0x02#8, 0x03#8, 0x11#8, 0x12#8, 0x13#8, 0x15#8, 0x22#8],
        c ∉ [0x10#8, 0x14#8, 0x20#8, 0x21#8] := by decide
    exact iff_of_false (by decide) (disjoint o hn)
  · exact iff_of_true rfl hb
  · exact iff_of_false (by decide) hb

/-- The opcodes without a format are those in no row of the table. -/
theorem opcodeFormat_eq_none_iff {o : BitVec 8} : opcodeFormat o = none ↔
    o ∉ [0x00#8, 0x01#8, 0x02#8, 0x03#8, 0x10#8, 0x11#8, 0x12#8, 0x13#8, 0x14#8, 0x15#8, 0x20#8, 0x21#8, 0x22#8] := by
  have hformat : opcodeFormat o = none ↔ ¬ (opcodeFormat o = some .n ∨ opcodeFormat o = some .b) := by
    cases opcodeFormat o with
    | none => decide
    | some f => cases f <;> decide
  rw [hformat, opcodeFormat_eq_n_iff, opcodeFormat_eq_b_iff, ← List.mem_append]
  have hperm :
      ([0x00#8, 0x01#8, 0x02#8, 0x03#8, 0x11#8, 0x12#8, 0x13#8, 0x15#8, 0x22#8] ++ [0x10#8, 0x14#8, 0x20#8, 0x21#8]).Perm
        [0x00#8, 0x01#8, 0x02#8, 0x03#8, 0x10#8, 0x11#8, 0x12#8, 0x13#8, 0x14#8, 0x15#8, 0x20#8, 0x21#8, 0x22#8] := by decide
  rw [hperm.mem_iff]

/-! ## The words of the instructions (rule R82) -/

/-- Every instruction's word is of its opcode's format. -/
theorem encode_format (i : Instr) :
    (∃ o, opcodeFormat o = some .n ∧ encode i = formatN o) ∨ (∃ o b, opcodeFormat o = some .b ∧ encode i = formatB o b) := by
  cases i with
  | cnt b | enc b | hdrin b | dec b => exact .inr ⟨_, b, rfl, rfl⟩
  | nop | init | abortsrc | abortsnk | build | assign | hdrout | encend | decend => exact .inl ⟨_, rfl, rfl⟩

theorem exists_encode_eq_formatN {o : BitVec 8} (h : opcodeFormat o = some .n) : ∃ i, encode i = formatN o := by
  rw [opcodeFormat_eq_n_iff] at h
  simp only [List.mem_cons, List.not_mem_nil, or_false] at h
  obtain rfl | rfl | rfl | rfl | rfl | rfl | rfl | rfl | rfl := h
  exacts [⟨.nop, rfl⟩, ⟨.init, rfl⟩, ⟨.abortsrc, rfl⟩, ⟨.abortsnk, rfl⟩, ⟨.build, rfl⟩, ⟨.assign, rfl⟩, ⟨.hdrout, rfl⟩,
    ⟨.encend, rfl⟩, ⟨.decend, rfl⟩]

theorem exists_encode_eq_formatB {o : BitVec 8} (h : opcodeFormat o = some .b) (b : Byte) : ∃ i, encode i = formatB o b := by
  rw [opcodeFormat_eq_b_iff] at h
  simp only [List.mem_cons, List.not_mem_nil, or_false] at h
  obtain rfl | rfl | rfl | rfl := h
  exacts [⟨.cnt b, rfl⟩, ⟨.enc b, rfl⟩, ⟨.hdrin b, rfl⟩, ⟨.dec b, rfl⟩]

/-- A word is an instruction's word exactly when its fields are those of its opcode's format. -/
theorem exists_encode_eq_iff {w : Word} : (∃ i, encode i = w) ↔
    (opcodeFormat (opcField w) = some .n ∧ w.extractLsb' 0 24 = 0) ∨
      (opcodeFormat (opcField w) = some .b ∧ rsvField w = 0) := by
  constructor
  · rintro ⟨i, hi⟩
    rcases encode_format i with ⟨o, ho, he⟩ | ⟨o, b, ho, he⟩
    · obtain ⟨rfl, hlow⟩ := eq_formatN_iff.1 (hi.symm.trans he)
      exact .inl ⟨ho, hlow⟩
    · obtain ⟨rfl, hrsv⟩ := exists_eq_formatB_iff.1 ⟨b, hi.symm.trans he⟩
      exact .inr ⟨ho, hrsv⟩
  · rintro (⟨ho, hlow⟩ | ⟨ho, hrsv⟩)
    · rw [eq_formatN_iff.2 ⟨rfl, hlow⟩]
      exact exists_encode_eq_formatN ho
    · obtain ⟨b, hb⟩ := exists_eq_formatB_iff.2 ⟨rfl, hrsv⟩
      rw [hb]
      exact exists_encode_eq_formatB ho b

/-! ## The words that decode (rule R83) -/

theorem decodeWord_encode (i : Instr) : decodeWord (encode i) = .ok i := by
  cases i with
  | nop => exact Laws.RoundTrip.nop
  | init => exact Laws.RoundTrip.init
  | abortsrc => exact Laws.RoundTrip.abortsrc
  | abortsnk => exact Laws.RoundTrip.abortsnk
  | cnt b => exact Laws.RoundTrip.cnt b
  | build => exact Laws.RoundTrip.build
  | assign => exact Laws.RoundTrip.assign
  | hdrout => exact Laws.RoundTrip.hdrout
  | enc b => exact Laws.RoundTrip.enc b
  | encend => exact Laws.RoundTrip.encend
  | hdrin b => exact Laws.RoundTrip.hdrin b
  | dec b => exact Laws.RoundTrip.dec b
  | decend => exact Laws.RoundTrip.decend

theorem decodeWord_eq_ok_iff {w : Word} {i : Instr} : decodeWord w = .ok i ↔ encode i = w := by
  constructor
  · intro h
    obtain ⟨r, hr, hm, rfl⟩ := decodeWord_ok h
    exact encode_of_row hr hm
  · rintro rfl
    exact decodeWord_encode i

/-- A word is ILLEGAL exactly when it is no instruction's word. -/
theorem decodeWord_illegal_iff {w : Word} : (∃ e, decodeWord w = .error e) ↔ ¬ ∃ i, encode i = w := by
  simp only [← decodeWord_eq_ok_iff]
  cases decodeWord w <;> simp

end Sys2Proof

namespace Sys2Proof.Machine

/-- An ILLEGAL word outside ERROR enters the error ILLEGAL_COMMAND (rules R83, R233). -/
theorem executeWord_illegal_raises {w : Word} {e : IllegalWord} {s : State} (h : decodeWord w = .error e)
    (hp : s.phase ≠ .error) : executeWord w s = .next (s.raise .illegalCommand w) :=
  (executeWord_illegal h s).trans (issue_raises hp rfl)

/-- Settles O4: a word is ILLEGAL exactly when it is no instruction's word, and those are told by the format of the opcode. -/
theorem illegalWordsAreExactlyThese : Obligations.IllegalWordsAreExactlyThese := by
  intro w
  refine ⟨?causes, fun e s => executeWord_illegal_raises⟩
  rw [decodeWord_illegal_iff, exists_encode_eq_iff]
  change _ ↔ opcField w ∉ _ ∨ opcField w ∈ _ ∧ _ ∨ opcField w ∈ _ ∧ rsvField w ≠ 0
  rw [← opcodeFormat_eq_none_iff, ← opcodeFormat_eq_n_iff, ← opcodeFormat_eq_b_iff]
  cases opcodeFormat (opcField w) with
  | none => simp
  | some f => cases f <;> simp

end Sys2Proof.Machine
end

section
/-! SUPPORT. The control commands (rules R101 to R104): NOP changes nothing, INIT resets, and the two aborts only raise. -/

namespace Sys2Proof.Machine

/-- NOP, which completes with the block as it was, and what ERROR ignores are the same next state. -/
theorem exec_nop (s : State) : exec .nop s = .next s := by
  by_cases hp : s.phase = .error
  · exact exec_in_error (by decide) hp
  · exact (exec_running hp).trans (complete_silent _ s.toBlock s)

/-- Settles O25: in ERROR NOP is ignored, and elsewhere it completes with no byte and the same block. -/
theorem nopChangesNothing : Obligations.NopChangesNothing := ⟨rfl, exec_nop⟩

/-- Settles O26: INIT is `hostReset` in every phase, and that replaces the block alone. -/
theorem initResetsTheBlock : Obligations.InitResetsTheBlock := ⟨rfl, by decide, exec_init⟩

/-- Settles O27: the body of each abort is its error, so outside ERROR its error entry is all that happens. -/
theorem abortsRecordTheHostsFailure : Obligations.AbortsRecordTheHostsFailure := by
  refine ⟨rfl, rfl, fun s => ⟨fun hp => ⟨?source, ?sink⟩, fun hp => ⟨?sourceIgnored, ?sinkIgnored⟩, rfl, rfl⟩⟩
  case source => exact exec_raises hp (c := .sourceRead) rfl
  case sink => exact exec_raises hp (c := .sinkWrite) rfl
  case sourceIgnored => exact exec_in_error (by decide) hp
  case sinkIgnored => exact exec_in_error (by decide) hp

end Sys2Proof.Machine
end

section
/-! SUPPORT. The frequency counter (rules R120, R121): how one CNT ends in each case, and the histogram a run of CNT leaves. -/

namespace Sys2Proof.Machine

/-! ## One CNT (rule R120) -/

theorem Phase.ne_error_of_cnt_legal {p : Phase} (h : p ∈ [.idle, .count]) : p ≠ .error := by
  rintro rfl
  exact absurd h (by decide)

theorem exec_cnt_counts {s : State} {x : Byte} (hp : s.phase ∈ [.idle, .count])
    (hf : s.toBlock.freqAt x.toNat ≠ 0xFFFFFFFF) :
    exec (.cnt x) s = .next { s with
      freq := setFreq s.freq x.toNat (s.toBlock.freqAt x.toNat + 1)
      total := s.total + 1
      phase := .count } := by
  rw [exec_running (Phase.ne_error_of_cnt_legal hp), bodyOf, cntBody_completes hp hf, complete_silent]

theorem exec_cnt_out_of_sequence {s : State} {x : Byte} (hp : s.phase ∉ [.idle, .count, .error]) :
    exec (.cnt x) s = .next (s.raise .sequence (encode (.cnt x))) := by
  simp only [List.mem_cons, List.not_mem_nil, or_false, not_or] at hp
  obtain ⟨hidle, hcount, herror⟩ := hp
  exact exec_raises herror (requirePhase_illegal (by simp [hidle, hcount]))

theorem exec_cnt_overflow {s : State} {x : Byte} (hp : s.phase ∈ [.idle, .count])
    (hf : s.toBlock.freqAt x.toNat = 0xFFFFFFFF) :
    exec (.cnt x) s = .next (s.raise .freqOverflow (encode (.cnt x))) :=
  exec_raises (Phase.ne_error_of_cnt_legal hp) ((requirePhase_legal hp).trans (if_pos hf))

/-- Settles O28: the entry of the byte is read back after its write, every other entry is read past it, and each error is the
phase check's or the limit's. -/
theorem cntCountsOneByte : Obligations.CntCountsOneByte := by
  refine fun s x => ⟨rfl, fun hp hf => ⟨_, exec_cnt_counts hp hf, ?same, ?others⟩, exec_cnt_out_of_sequence,
    exec_cnt_overflow⟩
  case same => exact Table.get_set_same s.freq x.isLt _
  case others => exact fun k hk => Table.get_set_ne s.freq hk _

/-! ## A run of CNT (rule R121) -/

/-- A histogram is zero everywhere exactly for the empty sequence. -/
theorem forall_count_eq_zero_iff {bytes : List Byte} : (∀ v, bytes.count v = 0) ↔ bytes = [] := by
  simp only [List.count_eq_zero, List.eq_nil_iff_forall_not_mem]

/-- A run of CNT over bytes whose counts fit, from an IDLE block with FREQ and TOTAL at 0: OUT is untouched, CNT is still legal,
and FREQ and TOTAL are the histogram and the length. -/
theorem runAll_cnt_from_idle {s : State} {bytes : List Byte} (hp : s.phase = .idle)
    (hfreq : ∀ v : Byte, s.toBlock.freqAt v.toNat = 0) (htotal : s.total = 0) (hfit : ∀ v : Byte, bytes.count v < 2 ^ 32) :
    ∃ t, runAll (bytes.map Instr.cnt) s = .next t ∧ t.phase ∈ [.idle, .count] ∧ t.out = s.out ∧
      (∀ v : Byte, (t.toBlock.freqAt v.toNat).toNat = bytes.count v) ∧ t.total.toNat = bytes.length := by
  obtain ⟨freq, total, phase, hrun, hcount, hnil, hhist, hlen⟩ := runAll_cnt bytes s (by simp [hp])
    (by simpa [hfreq] using hfit) (by simpa [htotal] using length_lt_of_counts bytes hfit)
  refine ⟨_, hrun, ?legal, rfl, ?histogram, ?length⟩
  case legal =>
    show phase ∈ [.idle, .count]
    by_cases h : bytes = []
    · simp [(hnil h).2, hp]
    · simp [hcount h]
  case histogram => exact fun v => (hhist v).trans (by simp [hfreq])
  case length => simpa [htotal] using hlen

/-- Settles O39: the run leaves the histogram, so FREQ is zero exactly after no byte, and a count of 2^32 − 1 is the entry at which
one more CNT overflows. -/
theorem countingGivesTheHistogram : Obligations.CountingGivesTheHistogram := by
  intro s bytes hp hfreq htotal hfit
  obtain ⟨t, hrun, hlegal, hout, hhist, hlen⟩ := runAll_cnt_from_idle hp hfreq htotal hfit
  refine ⟨t, hrun, Phase.ne_error_of_cnt_legal hlegal, hhist, hlen, hout, ?empty, ?overflow⟩
  case empty =>
    rw [← forall_count_eq_zero_iff]
    exact forall_congr' fun v => hhist v ▸ BitVec.toNat_eq
  case overflow =>
    intro v hv
    exact exec_cnt_overflow hlegal (BitVec.eq_of_toNat_eq ((hhist v).trans hv))

end Sys2Proof.Machine
end

section
/-! SUPPORT. The selection order (rule R133) in terms of the entries' weights: what PopMin takes out, and what `Tree.keyLt` says of
TreeBuild's tree. -/

namespace Sys2Proof.Machine

theorem keyBefore_iff_weight {arena : Table Node} {m n : Nat} :
    keyBefore arena m n = true ↔
      (arena.get Node.none m).weight < (arena.get Node.none n).weight ∨
      ((arena.get Node.none m).weight = (arena.get Node.none n).weight ∧ m < n) := by
  rw [keyBefore_iff, weightIn, weightIn, ← BitVec.lt_def, BitVec.toNat_inj]

/-- Settles O40: PopMin of a nonempty Q answers, with the node that comes before every other. -/
theorem popMinTakesTheLeastKey : Obligations.PopMinTakesTheLeastKey := by
  intro arena q hq
  obtain ⟨n, rest, h⟩ := popMin_isSome (arena := arena) hq
  obtain ⟨hn, hleast, hrest⟩ := popMin_spec h
  exact ⟨n, rest, h, hn, hrest, fun m hm hne => keyBefore_iff_weight.1 (hleast m hm hne)⟩

theorem treeBuild_keyLt {freq : Table (BitVec 32)} {m n : Nat} :
    (treeBuild freq).keyLt m n ↔ keyBefore (finalBuilder freq).arena m n = true := by
  simp only [Tree.keyLt, treeBuild_nodeAt, Builder.node, keyBefore_iff_weight]

end Sys2Proof.Machine
end

section
/-! SUPPORT. TreeBuild's tree node by node (rules R131 to R137): the entry of a leaf, the weight and the children of an internal
node, which stood in Q when it was made, and the trees of no symbol and of one. -/

namespace Sys2Proof.Machine

/-! ## Every full tree: a child is in Q until its one parent is made -/

/-- A node has at most one parent; the root has none. -/
theorem Tree.Full.parent_unique {t : Tree} {freq : Table (BitVec 32)} (hF : t.Full freq) {p p' n : Nat}
    (hp : t.parentOf p n) (hp' : t.parentOf p' n) (hn : t.has n) : p = p' := by
  have hv : t.rootV = true := by
    by_contra hv
    exact hF.noTree (by simpa using hv) n hn
  have hroot : n ≠ t.root.toNat := fun h => hF.rootTop p ⟨hv, h ▸ hp⟩
  exact (hF.parent n hn hroot).unique hp hp'

/-- Both children of an internal node are in Q when it is made (rule R134). -/
theorem Tree.Full.inQ_of_parentOf {t : Tree} {freq : Table (BitVec 32)} (hF : t.Full freq) {n m : Nat}
    (h : t.parentOf n m) : t.inQ n m := by
  have ⟨hn, hhas, hchild⟩ := h
  obtain ⟨hl, hr, hll, hrl, -⟩ := hF.children n hn hhas
  have hm : t.has m ∧ m < n := by
    rcases hchild with rfl | rfl
    · exact ⟨hl, hll⟩
    · exact ⟨hr, hrl⟩
  exact ⟨hm.1, hm.2, fun p hp hpar => Nat.ne_of_lt hp (hF.parent_unique hpar h hm.1)⟩

/-! ## The nodes of TreeBuild's tree -/

section
variable {freq : Table (BitVec 32)} {n : Nat}

/-- The entry of a symbol's leaf, clear for a symbol that does not occur (rules R131, R132). -/
theorem treeBuild_nodeAt_symbol (hn : n < 256) :
    (treeBuild freq).nodeAt n = if freq.get 0 n ≠ 0 then leafNode (freq.get 0 n) else Node.none :=
  (treeBuild_nodeAt freq n).trans ((finalBuilder_inv freq).1.leaf n hn)

/-- The internal nodes are the NINT ids from 256 up (rules R30, R131). -/
theorem treeBuild_has_internal_iff (hn : 256 ≤ n) :
    (treeBuild freq).has n ↔ n < 256 + (treeBuild freq).nint.toNat := by
  rw [Tree.has, treeBuild_nodeAt, treeBuild_nint, ← finalBuilder_next]
  exact (finalBuilder_inv freq).1.internal n hn

theorem treeBuild_nodeAt_of_not_has (h : ¬ (treeBuild freq).has n) : (treeBuild freq).nodeAt n = Node.none := by
  by_cases hn : n < 256
  · rw [treeBuild_nodeAt_symbol hn, if_neg (mt ((treeBuild_full freq).leaves n hn).2 h)]
  · have hge : 256 ≤ n := Nat.not_lt.1 hn
    rw [treeBuild_has_internal_iff hge, treeBuild_nint, ← finalBuilder_next, Nat.not_lt] at h
    rw [treeBuild_nodeAt]
    exact (finalBuilder_inv freq).1.unused n h

/-- An internal node weighs what its children weigh, exactly, and its LEFT comes before its RIGHT (rules R134, R136). -/
theorem treeBuild_internal (hn : 256 ≤ n) (h : (treeBuild freq).has n) :
    ((treeBuild freq).nodeAt n).weight.toNat =
        ((treeBuild freq).nodeAt ((treeBuild freq).nodeAt n).left.toNat).weight.toNat +
        ((treeBuild freq).nodeAt ((treeBuild freq).nodeAt n).right.toNat).weight.toNat ∧
      (treeBuild freq).keyLt ((treeBuild freq).nodeAt n).left.toNat ((treeBuild freq).nodeAt n).right.toNat := by
  obtain ⟨hi, -⟩ := finalBuilder_inv freq
  rw [Tree.has, treeBuild_nodeAt] at h
  obtain ⟨-, -, -, -, hkey, hweight⟩ := hi.children n hn (Builder.node_lt_next hi h)
  rw [treeBuild_keyLt]
  simp only [treeBuild_nodeAt]
  exact ⟨hweight, hkey⟩

/-- What stood in Q beside the two children comes after both (rule R134). -/
theorem treeBuild_right_keyLt (hn : 256 ≤ n) (h : (treeBuild freq).has n) {m : Nat} (hm : (treeBuild freq).inQ n m)
    (hleft : m ≠ ((treeBuild freq).nodeAt n).left.toNat) (hright : m ≠ ((treeBuild freq).nodeAt n).right.toNat) :
    (treeBuild freq).keyLt ((treeBuild freq).nodeAt n).right.toNat m := by
  obtain ⟨hi, -⟩ := finalBuilder_inv freq
  obtain ⟨hhas, hlt, hfree⟩ := hm
  simp only [treeBuild_parentOf] at hfree
  rw [Tree.has, treeBuild_nodeAt] at h hhas
  rw [treeBuild_nodeAt] at hleft hright
  rw [treeBuild_keyLt, treeBuild_nodeAt]
  exact hi.least n hn (Builder.node_lt_next hi h) m hlt hhas hfree hleft hright

/-- The root is all that is left in Q, so it weighs the sum of FREQ (rule R139 item 2). -/
theorem treeBuild_root_weight (hv : (treeBuild freq).rootV = true) :
    ((treeBuild freq).nodeAt (treeBuild freq).root.toNat).weight.toNat = freqSum freq := by
  rcases treeBuild_root freq with ⟨-, -, hv', -⟩ | ⟨-, r, hq, -, hr⟩
  · rw [hv'] at hv
    exact absurd hv (by decide)
  · have hweight := (finalBuilder_inv freq).1.weight
    rw [Builder.qWeight, hq, List.map_singleton, List.sum_singleton] at hweight
    rw [hr, treeBuild_nodeAt]
    exact hweight

end

/-- Settles O42: each clause is read off the invariant of the loop, at the builder TreeBuild ends with; that the two children stood
in Q follows from the tree being full. -/
theorem treeWeightsAndCountsAreExact : Obligations.TreeWeightsAndCountsAreExact := by
  intro freq
  refine ⟨?leaves, ?internal, treeBuild_root_weight, treeBuild_nleaf freq, treeBuild_nint freq,
    fun n => treeBuild_has_internal_iff, fun n => treeBuild_nodeAt_of_not_has⟩
  case leaves =>
    intro k hk hf
    rw [treeBuild_nodeAt_symbol hk, if_pos hf]
    exact ⟨leafNode_weight _, rfl, rfl⟩
  case internal =>
    intro n hn h
    obtain ⟨hweight, hkey⟩ := treeBuild_internal hn h
    have hF := treeBuild_full freq
    exact ⟨hweight, hF.inQ_of_parentOf ⟨hn, h, .inl rfl⟩, hF.inQ_of_parentOf ⟨hn, h, .inr rfl⟩, hkey,
      fun m => treeBuild_right_keyLt hn h⟩

/-! ## Degenerate alphabets (rule R137) -/

theorem treeBuild_nint_eq_zero {freq : Table (BitVec 32)} (h : leafCount freq ≤ 1) : (treeBuild freq).nint = 0 :=
  BitVec.eq_of_toNat_eq ((treeBuild_nint freq).trans (Nat.sub_eq_zero_of_le h))

/-- A tree of one symbol is that symbol's leaf: every other symbol is absent, and there is no internal node. -/
theorem treeBuild_has_single {freq : Table (BitVec 32)} (h1 : leafCount freq = 1) {k : Nat} (hk : k < 256)
    (hf : freq.get 0 k ≠ 0) (n : Nat) : (treeBuild freq).has n ↔ n = k := by
  have hleaves := (treeBuild_full freq).leaves
  constructor
  · intro h
    have hn : n < 256 := by
      by_contra hge
      rw [treeBuild_has_internal_iff (Nat.not_lt.1 hge), treeBuild_nint, h1] at h
      exact hge h
    exact eq_of_leafCount_one h1 hn hk ((hleaves n hn).1 h) hf
  · rintro rfl
    exact (hleaves n hk).2 hf

/-- Settles O43: without a symbol there is no tree; with one the root is a symbol that occurs, so it is that one. -/
theorem degenerateAlphabetsHaveNoInternalNode : Obligations.DegenerateAlphabetsHaveNoInternalNode := by
  refine fun freq => ⟨fun h0 => ?none, fun k hk hf h1 => ?single⟩
  case none =>
    rcases treeBuild_root freq with ⟨-, -, hv, hr⟩ | ⟨hpos, -⟩
    · exact ⟨(treeBuild_full freq).noTree hv, treeBuild_nint_eq_zero (by omega), hr, hv⟩
    · omega
  case single =>
    obtain ⟨hr, hfr⟩ := treeBuild_root_leaf freq h1
    exact ⟨treeBuild_has_single h1 hk hf, treeBuild_nint_eq_zero h1.le, eq_of_leafCount_one h1 hr hk hfr hf,
      (treeBuild_rootV freq).2 h1.ge⟩

end Sys2Proof.Machine
end

section
/-! SUPPORT. BUILD (rules R130, R138): how it ends in each phase, and that its tree depends on the entries of FREQ alone. -/

namespace Sys2Proof.Machine

/-! ## BUILD (rule R130) -/

theorem exec_build_builds {s : State} (hp : s.phase ∈ [.idle, .count, .hdone]) :
    exec .build s = .next { s with
      tree := treeBuild s.freq
      walk := if (treeBuild s.freq).rootV then (treeBuild s.freq).root else 0
      symcnt := 0
      bitcnt := 0
      phase := if s.phase = .hdone then .dec else .cbuilt } := by
  have hne : s.phase ≠ .error := fun h => absurd (h ▸ hp) (by decide)
  rw [exec_running hne, bodyOf, buildBody, requirePhase_legal hp, complete_silent]

theorem exec_build_raises {s : State} (hp : s.phase ∉ [.idle, .count, .hdone]) (hne : s.phase ≠ .error) :
    exec .build s = .next (s.raise (buildPhaseError s.phase) (encode .build)) :=
  exec_raises hne (requirePhase_illegal hp)

theorem buildPhaseError_sequence {p : Phase} (hp : p ≠ .hload) : buildPhaseError p = .sequence := by
  cases p with
  | hload => exact absurd rfl hp
  | _ => rfl

/-- Settles O29: the phase check decides between the one effect and the error of the phase. -/
theorem buildMakesTheTree : Obligations.BuildMakesTheTree := by
  refine ⟨rfl, fun s => ⟨exec_build_builds, fun hp => ?truncated, fun hp => ?sequence⟩⟩
  case truncated =>
    have h := exec_build_raises (s := s) (by rw [hp]; decide) (by rw [hp]; decide)
    rwa [hp] at h
  case sequence =>
    have hlegal : ∀ p ∈ [Phase.cbuilt, .coded, .enc, .edone, .dec, .ddone],
        p ∉ [Phase.idle, .count, .hdone] ∧ p ≠ .error ∧ p ≠ .hload := by decide
    obtain ⟨hillegal, herror, hhload⟩ := hlegal _ hp
    have h := exec_build_raises hillegal herror
    rwa [buildPhaseError_sequence hhload] at h

/-! ## One tree for both paths (rule R138) -/

section
variable {f g : Table (BitVec 32)} (h : ∀ k < 256, f.get 0 k = g.get 0 k)
include h

/-- The first leaves and the first Q read the 256 entries of FREQ alone. -/
theorem initialBuilder_congr : initialBuilder f = initialBuilder g := by
  have hleaf : ∀ n, (if n < Config.nsym ∧ f.get 0 n ≠ 0 then leafNode (f.get 0 n) else Node.none) =
      if n < Config.nsym ∧ g.get 0 n ≠ 0 then leafNode (g.get 0 n) else Node.none := by
    intro n
    by_cases hn : n < Config.nsym
    · rw [h n hn]
    · simp [hn]
  have hq : (List.range Config.nsym).filter (fun s => f.get 0 s ≠ 0) =
      (List.range Config.nsym).filter fun s => g.get 0 s ≠ 0 :=
    List.filter_congr fun s hs => by rw [h s (List.mem_range.1 hs)]
  rw [initialBuilder, initialBuilder, funext hleaf, hq]

theorem treeBuild_congr : treeBuild f = treeBuild g := by
  rw [treeBuild, treeBuild, initialBuilder_congr h]

end

/-- Settles O44: in a legal phase the tree and WALK are those of `treeBuild`, which reads FREQ alone. -/
theorem bothPathsBuildTheSameTree : Obligations.BothPathsBuildTheSameTree := by
  intro s1 s2 t1 t2 hfreq h1 h2 hp1 hp2
  rw [exec_build_builds hp1, Host.Outcome.next.injEq] at h1
  rw [exec_build_builds hp2, Host.Outcome.next.injEq] at h2
  subst h1 h2
  have htree : treeBuild s1.freq = treeBuild s2.freq := treeBuild_congr hfreq
  exact ⟨htree, by simp only [htree]⟩

end Sys2Proof.Machine
end

section
/-! SUPPORT. The code assigner (rules R150 to R155): the codes TreeBuild's tree gives, and how ASSIGN ends in each phase. -/

namespace Sys2Proof.Machine

/-! ## Codes as paths (rule R151) -/

/-- The node a path has reached before its end is internal. -/
theorem follow_internal_of_append {t : Tree} {n : Nat} {p q : List Bool} (h : throughInternal t n (p ++ q)) (hq : q ≠ []) :
    256 ≤ follow t n p := by
  obtain ⟨-, hrest⟩ := throughInternal_append.1 h
  cases q with
  | nil => exact absurd rfl hq
  | cons x q => exact hrest.1

/-- The code in the LUT leads from the root through internal nodes to its symbol's leaf. -/
theorem codeLut_path {freq : Table (BitVec 32)} (h2 : 2 ≤ leafCount freq) {s : Nat} (hs : s < 256) (hf : freq.get 0 s ≠ 0) :
    follow (treeBuild freq) (treeBuild freq).root.toNat ((codeLut (treeBuild freq)).get LutEntry.none s).bits = s ∧
      throughInternal (treeBuild freq) (treeBuild freq).root.toNat
        ((codeLut (treeBuild freq)).get LutEntry.none s).bits := by
  obtain ⟨p, hentry, hfollow, hthrough, -, hlen⟩ := assignedEntry_path h2 hs hf
  rw [codeLut_get, if_pos hs, hentry, codeEntry_bits hlen]
  exact ⟨hfollow, hthrough⟩

/-- Settles O45: a valid code is a symbol's that occurs, so it is the path ASSIGN found, every proper first part of which ends at
an internal node. -/
theorem codesAreRootToLeafPaths : Obligations.CodesAreRootToLeafPaths := by
  intro freq k hk h2
  have hvalid := codeLut_valid freq hk
  refine ⟨hvalid, fun hv => ?_⟩
  obtain ⟨hleaf, hthrough⟩ := codeLut_path h2 hk (hvalid.1 hv)
  exact ⟨hleaf, fun p q hpq hq => follow_internal_of_append (hpq ▸ hthrough) hq⟩

/-! ## The code of a single symbol (rule R152) -/

/-- With one symbol the root is its leaf, so the LUT holds its code "0" and nothing else. -/
theorem codeLut_single {freq : Table (BitVec 32)} (h1 : leafCount freq = 1) {k : Nat} (hk : k < 256) (hf : freq.get 0 k ≠ 0)
    {j : Nat} (hj : j < 256) :
    (codeLut (treeBuild freq)).get LutEntry.none j = if j = k then codeEntry [false] else LutEntry.none := by
  obtain ⟨hr, hfr⟩ := treeBuild_root_leaf freq h1
  have hroot : (treeBuild freq).root.toNat = k := eq_of_leafCount_one h1 hr hk hfr hf
  rw [codeLut_get, if_pos hj, assignedEntry_single h1, hroot]

/-- Settles O47: the entry of the one symbol is the code "0", and every other entry is clear. -/
theorem singleSymbolGetsTheCodeZero : Obligations.SingleSymbolGetsTheCodeZero := by
  intro freq k j hk hj hf h1
  simp only [codeLut_single h1 hk hf hj]
  by_cases hjk : j = k
  · simp only [if_pos hjk]
    exact ⟨rfl, rfl, by decide⟩
  · simp only [if_neg hjk]
    rfl

/-! ## ASSIGN (rules R150, R155) -/

theorem exec_assign_assigns {s : State} (hp : s.phase = .cbuilt) :
    exec .assign s = .next { s with lut := codeLut s.tree, rem := s.freq, acc := 0, fill := 0, phase := .coded } := by
  have hne : s.phase ≠ .error := by rw [hp]; decide
  rw [exec_running hne, bodyOf, assignBody, requirePhase_legal (List.mem_singleton.2 hp), complete_silent]

theorem exec_assign_out_of_sequence {s : State} (hp : s.phase ∉ [.cbuilt, .error]) :
    exec .assign s = .next (s.raise .sequence (encode .assign)) := by
  simp only [List.mem_cons, List.not_mem_nil, or_false, not_or] at hp
  obtain ⟨hcbuilt, herror⟩ := hp
  exact exec_raises herror (requirePhase_illegal (mt List.mem_singleton.1 hcbuilt))

/-- Settles O30: the phase check decides between the one effect and SEQUENCE, and the LUT is read entry by entry. -/
theorem assignMakesTheLut : Obligations.AssignMakesTheLut := by
  refine ⟨rfl, fun s => ⟨fun hp => ⟨exec_assign_assigns hp, fun k hk => ?entry⟩, exec_assign_out_of_sequence⟩⟩
  case entry => rw [codeLut_get, if_pos hk]

end Sys2Proof.Machine
end

section
/-! SUPPORT. The bit packer (rules R170 to R173): PackBit's two cases, and how ENC and ENCEND end in each of theirs. -/

namespace Sys2Proof.Machine

/-! ## PackBit (rule R170) -/

/-- Settles O32: FILL = 7 is the one case in which the bit fills the byte. -/
theorem packBitShiftsAndEmits : Obligations.PackBitShiftsAndEmits := by
  refine fun p x => ⟨fun hmore => ?more, fun hfull => ?full⟩
  case more =>
    rw [packBit_more hmore.ne]
    exact ⟨rfl, fill_succ hmore.ne, rfl⟩
  case full =>
    rw [packBit_full hfull]
    exact ⟨rfl, rfl, rfl⟩

/-! ## A command that is legal in one phase only -/

/-- Outside its one legal phase such a command raises SEQUENCE, whatever the `rest` of its body would do in that phase. -/
theorem exec_out_of_phase {i : Instr} {s : State} {legal : Phase} {rest : Effect}
    (hbody : bodyOf i s.toBlock = requirePhase [legal] sequenceError s.toBlock rest) (hp : s.phase ∉ [legal, .error]) :
    exec i s = .next (s.raise .sequence (encode i)) := by
  simp only [List.mem_cons, List.not_mem_nil, or_false, not_or] at hp
  obtain ⟨hlegal, herror⟩ := hp
  exact exec_raises herror (hbody.trans (requirePhase_illegal (mt List.mem_singleton.1 hlegal)))

theorem Phase.ne_error_of_enc {p : Phase} (h : p = .enc) : p ≠ .error := by
  rintro rfl
  cases h

/-! ## ENC (rules R171, R172) -/

theorem exec_enc_packs {s : State} {x : Byte} {p : Packer} (hp : s.phase = .enc) (hr : s.toBlock.remAt x.toNat ≠ 0)
    (hpack : packBits ⟨s.acc, s.fill, []⟩ (s.toBlock.lutAt x.toNat).bits = p) (hout : p.outs = [] ∨ s.outReady = true) :
    exec (.enc x) s = .next { s with
      acc := p.acc
      fill := p.fill
      rem := setRem s.rem x.toNat (s.toBlock.remAt x.toNat - 1)
      symcnt := s.symcnt + 1
      bitcnt := s.bitcnt + (s.toBlock.lutAt x.toNat).len.setWidth 48
      out := s.out ++ p.outs } :=
  exec_completes (Phase.ne_error_of_enc hp) (encBody_completes hp hr hpack) hout

theorem exec_enc_mismatch {s : State} {x : Byte} (hp : s.phase = .enc) (hr : s.toBlock.remAt x.toNat = 0) :
    exec (.enc x) s = .next (s.raise .sourceMismatch (encode (.enc x))) :=
  exec_raises (Phase.ne_error_of_enc hp) ((requirePhase_legal (List.mem_singleton.2 hp)).trans (if_pos hr))

/-- Settles O33: the packer runs over the code's bits in the LUT's order, the entry of the byte in REM is read back after its write
and every other entry past it, and each error is the phase check's or that of REM. -/
theorem encPacksTheCode : Obligations.EncPacksTheCode := by
  refine fun s x p => ⟨rfl, fun hp hr hpack hout => ⟨_, exec_enc_packs hp hr hpack.symm hout, ?same, ?others⟩,
    exec_out_of_phase rfl, exec_enc_mismatch⟩
  case same => exact Table.get_set_same s.rem x.isLt _
  case others => exact fun k hk => Table.get_set_ne s.rem hk _

/-! ## ENCEND (rule R173) -/

theorem flushBytes_zero (acc : BitVec 8) : flushBytes acc 0 = [] := rfl

theorem flushBytes_partial {acc : BitVec 8} {fill : BitVec 3} (h : fill ≠ 0) :
    flushBytes acc fill = [acc <<< (8 - fill.toNat)] := if_neg h

theorem encendBody_completes {b : Block} (hp : b.phase = .enc) (hs : b.symcnt = b.total) :
    encendBody b =
      .ok ({ b with acc := if b.fill = 0 then b.acc else 0, fill := 0, phase := .edone }, flushBytes b.acc b.fill) := by
  rw [encendBody, requirePhase_legal (List.mem_singleton.2 hp), if_neg (not_not_intro hs)]

/-- With no bit pending nothing is emitted, so the host need take nothing. -/
theorem exec_encend_whole {s : State} (hp : s.phase = .enc) (hs : s.symcnt = s.total) (hf : s.fill = 0) :
    exec .encend s = .next { s with phase := .edone } := by
  rw [exec_running (Phase.ne_error_of_enc hp), bodyOf, encendBody_completes hp hs, hf, flushBytes_zero, complete_silent,
    if_pos rfl, ← hf]

theorem exec_encend_flushes {s : State} (hp : s.phase = .enc) (hs : s.symcnt = s.total) (hf : s.fill ≠ 0)
    (hout : s.outReady = true) :
    exec .encend s = .next { s with
      acc := 0
      fill := 0
      phase := .edone
      out := s.out ++ [s.acc <<< (8 - s.fill.toNat)] } := by
  rw [exec_running (Phase.ne_error_of_enc hp), bodyOf, encendBody_completes hp hs, flushBytes_partial hf,
    complete_ok (.inr hout), if_neg hf]

theorem exec_encend_mismatch {s : State} (hp : s.phase = .enc) (hs : s.symcnt ≠ s.total) :
    exec .encend s = .next (s.raise .sourceMismatch (encode .encend)) :=
  exec_raises (Phase.ne_error_of_enc hp) ((requirePhase_legal (List.mem_singleton.2 hp)).trans (if_pos hs))

/-- Settles O34: FILL decides whether a last byte is emitted, and each error is the phase check's or that of SYMCNT. -/
theorem encendFlushesThePartialByte : Obligations.EncendFlushesThePartialByte :=
  ⟨rfl, fun _ => ⟨exec_encend_whole, exec_encend_flushes, exec_encend_mismatch, exec_out_of_phase rfl⟩⟩

end Sys2Proof.Machine
end

section
/-! SUPPORT. The container's header (rules R190 to R193): how HDROUT and HDRIN end in each phase. -/

namespace Sys2Proof.Machine

/-! ## HDROUT (rule R191) -/

theorem exec_hdrout_emits {s : State} (hp : s.phase = .coded) (hout : s.outReady = true) :
    exec .hdrout s = .next { s with phase := .enc, out := s.out ++ headerBytes s.freq } := by
  have hne : s.phase ≠ .error := by rw [hp]; decide
  exact exec_completes hne (requirePhase_legal (List.mem_singleton.2 hp)) (.inr hout)

/-- The header holds byte j of FREQ[i] at position 4i + j (rule R190). -/
theorem headerBytes_entryByte (freq : Table (BitVec 32)) {i j : Nat} (hi : i < 256) (hj : j < 4) :
    (headerBytes freq)[4 * i + j]? = some (entryByte (freq.get 0 i) j) := by
  have hentry : (4 * i + j) / 4 = i := by omega
  have hlane : (4 * i + j) % 4 = j := by omega
  rw [headerBytes_getElem? freq _ (by omega), hentry, hlane]

/-- Settles O31: HDROUT emits `headerBytes` of FREQ, each byte of which is known by its position. -/
theorem hdroutEmitsTheHeader : Obligations.HdroutEmitsTheHeader :=
  ⟨rfl, fun s => ⟨fun hp hout => ⟨headerBytes s.freq, exec_hdrout_emits hp hout, headerBytes_length s.freq,
    fun _ hi _ hj => headerBytes_entryByte s.freq hi hj⟩, exec_out_of_phase rfl⟩⟩

/-! ## HDRIN (rules R192, R193) -/

theorem hdrpos_succ_eq_1024 {pos : BitVec 11} : pos + 1 = 1024 ↔ pos.toNat = 1023 := by
  bv_omega

theorem Phase.ne_error_of_header {p : Phase} (hp : p ∈ [.idle, .hload]) : p ≠ .error := by
  rintro rfl
  exact absurd hp (by decide)

/-- The 1024th byte completes the header (rule R193). -/
theorem exec_hdrin_last {s : State} (x : Byte) (hp : s.phase ∈ [.idle, .hload]) (hlast : s.hdrpos.toNat = 1023) :
    exec (.hdrin x) s = .next { s with
      freq := putHeaderByte s.freq s.hdrpos.toNat x
      hdrpos := s.hdrpos + 1
      total := BitVec.ofNat 40 (freqSum (putHeaderByte s.freq s.hdrpos.toNat x))
      phase := .hdone } := by
  rw [exec_running (Phase.ne_error_of_header hp), bodyOf, hdrinBody, requirePhase_legal hp]
  simp only [if_pos (hdrpos_succ_eq_1024.2 hlast), complete_silent]

theorem exec_hdrin_more {s : State} (x : Byte) (hp : s.phase ∈ [.idle, .hload]) (hmore : s.hdrpos.toNat ≠ 1023) :
    exec (.hdrin x) s = .next { s with
      freq := putHeaderByte s.freq s.hdrpos.toNat x
      hdrpos := s.hdrpos + 1
      phase := .hload } := by
  rw [exec_running (Phase.ne_error_of_header hp), bodyOf, hdrinBody, requirePhase_legal hp]
  simp only [if_neg (mt hdrpos_succ_eq_1024.1 hmore), complete_silent]

theorem exec_hdrin_out_of_sequence {s : State} (x : Byte) (hp : s.phase ∉ [.idle, .hload, .error]) :
    exec (.hdrin x) s = .next (s.raise .sequence (encode (.hdrin x))) := by
  obtain ⟨hillegal, herror⟩ : s.phase ∉ [.idle, .hload] ∧ s.phase ≠ .error := by simpa [and_assoc] using hp
  exact exec_raises herror (requirePhase_illegal hillegal)

/-- TOTAL is wide enough for every sum of FREQ, so HeaderComplete's sum is exact (rule R193). -/
theorem toNat_freqSum (freq : Table (BitVec 32)) : (BitVec.ofNat 40 (freqSum freq)).toNat = freqSum freq := by
  rw [BitVec.toNat_ofNat, Nat.mod_eq_of_lt (freqSum_lt freq)]

/-- Settles O35: whether HDRPOS is 1023 decides between the last header byte and any other; both write the same one byte lane of
FREQ. -/
theorem hdrinTakesOneHeaderByte : Obligations.HdrinTakesOneHeaderByte := by
  refine fun s x => ⟨rfl, fun hp hpos => ?_, exec_hdrin_out_of_sequence x⟩
  have hlanes := fun i (_ : i < 256) j hj => entryByte_putHeaderByte s.freq hpos x i j hj
  by_cases hlast : s.hdrpos.toNat = 1023
  · exact ⟨_, _, _, exec_hdrin_last x hp hlast, hlanes, fun _ => ⟨rfl, toNat_freqSum _⟩, fun h => absurd hlast h⟩
  · exact ⟨_, s.total, _, exec_hdrin_more x hp hlast, hlanes, fun h => absurd h hlast, fun _ => ⟨rfl, rfl⟩⟩

end Sys2Proof.Machine
end

section
/-! SUPPORT. DECEND (rule R212): how it ends in each phase. -/

namespace Sys2Proof.Machine

theorem exec_decend_finishes {s : State} (hp : s.phase = .dec) (hs : s.symcnt = s.total) :
    exec .decend s = .next { s with phase := .ddone } := by
  have hne : s.phase ≠ .error := by rw [hp]; decide
  rw [exec_running hne, bodyOf, decendBody, requirePhase_legal (List.mem_singleton.2 hp), if_neg (not_not_intro hs),
    complete_silent]

theorem exec_decend_truncated {s : State} (hp : s.phase = .dec) (hs : s.symcnt ≠ s.total) :
    exec .decend s = .next (s.raise .malformedContainer (encode .decend)) := by
  have hne : s.phase ≠ .error := by rw [hp]; decide
  exact exec_raises hne ((requirePhase_legal (List.mem_singleton.2 hp)).trans (if_pos hs))

/-- Outside DEC the phase alone picks the error. -/
theorem exec_decend_out_of_phase {s : State} {c : ErrCode} (hp : s.phase ∉ [.dec, .error])
    (hc : decendPhaseError s.phase = c) : exec .decend s = .next (s.raise c (encode .decend)) := by
  simp only [List.mem_cons, List.not_mem_nil, or_false, not_or] at hp
  obtain ⟨hdec, herror⟩ := hp
  exact exec_raises herror ((requirePhase_illegal (mt List.mem_singleton.1 hdec)).trans (congrArg _ hc))

theorem decendPhaseError_header {p : Phase} (hp : p ∈ [.idle, .hload]) :
    p ∉ [Phase.dec, .error] ∧ decendPhaseError p = .malformedContainer := by
  revert p; decide

theorem decendPhaseError_sequence {p : Phase} (hp : p ∉ [.dec, .idle, .hload, .error]) :
    p ∉ [Phase.dec, .error] ∧ decendPhaseError p = .sequence := by
  cases p <;> revert hp <;> decide

/-- Settles O38: in DEC the count of decoded symbols decides, and elsewhere the phase check's own error is raised. -/
theorem decendChecksTheEnd : Obligations.DecendChecksTheEnd := by
  refine ⟨rfl, fun s => ⟨exec_decend_finishes, exec_decend_truncated, fun hp => ?header, fun hp => ?sequence⟩⟩
  case header =>
    obtain ⟨hillegal, hc⟩ := decendPhaseError_header hp
    exact exec_decend_out_of_phase hillegal hc
  case sequence =>
    obtain ⟨hillegal, hc⟩ := decendPhaseError_sequence hp
    exact exec_decend_out_of_phase hillegal hc

end Sys2Proof.Machine
end

section
/-! SUPPORT. The walk never stands where it cannot step (rule R215): the one command that could raise DECODE_TRAVERSAL is DEC, and what
the invariant says of its walk shuts that out at every bit. -/

namespace Sys2Proof.Machine

/-- A body that completes leaves the error record alone; only INIT, which runs in every phase, clears it (rule R236). -/
theorem bodyOf_ok_err {i : Instr} {b b' : Block} {o : List Byte} (hi : i ≠ .init) (h : bodyOf i b = .ok (b', o)) :
    b'.err = b.err := by
  cases i with
  | nop => cases h; rfl
  | init => exact absurd rfl hi
  | abortsrc => cases h
  | abortsnk => cases h
  | cnt x => obtain ⟨-, -, -, rfl⟩ := cntBody_ok h; rfl
  | build => obtain ⟨-, -, rfl⟩ := buildBody_ok h; rfl
  | assign => obtain ⟨-, -, rfl⟩ := assignBody_ok h; rfl
  | hdrout => obtain ⟨-, -, rfl⟩ := hdroutBody_ok h; rfl
  | enc x => obtain ⟨-, -, -, rfl⟩ := encBody_ok h; rfl
  | encend => obtain ⟨-, -, -, rfl⟩ := encendBody_ok h; rfl
  | hdrin x => obtain ⟨-, -, ⟨-, rfl⟩ | ⟨-, rfl⟩⟩ := hdrinBody_ok h <;> rfl
  | dec x => obtain ⟨-, -, l, -, -, rfl⟩ := decBody_ok h; rfl
  | decend => obtain ⟨-, -, -, rfl⟩ := decendBody_ok h; rfl

theorem buildPhaseError_ne_decodeTraversal (p : Phase) : buildPhaseError p ≠ .decodeTraversal := by cases p <;> decide

theorem decendPhaseError_ne_decodeTraversal (p : Phase) : decendPhaseError p ≠ .decodeTraversal := by cases p <;> decide

/-- Only a bit of DEC's byte can raise DECODE_TRAVERSAL (rule R232). -/
theorem bodyOf_decodeTraversal {i : Instr} {b : Block} (h : bodyOf i b = .error .decodeTraversal) :
    ∃ x, b.phase = .dec ∧
      decBits b ⟨b.walk, b.symcnt, b.bitcnt, []⟩ (bitsOfByte x) = .error .decodeTraversal := by
  cases i with
  | nop => cases h
  | init => cases h
  | abortsrc => cases h
  | abortsnk => cases h
  | cnt x => rcases cntBody_error h with ⟨-, hc⟩ | ⟨-, -, hc⟩ <;> cases hc
  | build => exact absurd (buildBody_error h).2.symm (buildPhaseError_ne_decodeTraversal _)
  | assign => cases (assignBody_error h).2
  | hdrout => cases (hdroutBody_error h).2
  | enc x => rcases encBody_error h with ⟨-, hc⟩ | ⟨-, -, hc⟩ <;> cases hc
  | encend => rcases encendBody_error h with ⟨-, hc⟩ | ⟨-, -, hc⟩ <;> cases hc
  | hdrin x => cases (hdrinBody_error h).2
  | dec x =>
    rcases decBody_error h with ⟨-, hc⟩ | ⟨-, -, hc⟩ | ⟨hp, -, hbits⟩
    · cases hc
    · cases hc
    · exact ⟨x, hp, hbits⟩
  | decend =>
    rcases decendBody_error h with ⟨-, hc⟩ | ⟨-, -, hc⟩
    · exact absurd hc.symm (decendPhaseError_ne_decodeTraversal _)
    · cases hc

theorem freqSum_eq_zero_of_leafCount {freq : Table (BitVec 32)} (h : leafCount freq = 0) : freqSum freq = 0 := by
  refine List.sum_eq_zero fun n hn => ?_
  obtain ⟨s, hs, rfl⟩ := List.mem_map.1 hn
  have hf : freq.get 0 s = 0 := by
    by_contra hne
    have := mem_leafCount (List.mem_range.1 hs) hne
    omega
  rw [hf]; rfl

/-- With symbols still to decode the tree has a leaf; with one leaf DEC takes no edge, and with more the walk stands at an
internal node. -/
theorem Walker.Good.no_decodeTraversal {b : Block} {l : Walker} (hg : l.Good b) (ht : b.tree = treeBuild b.freq)
    (htot : b.total.toNat = freqSum b.freq) (x : Bool) : decBit b l x ≠ .error .decodeTraversal := by
  intro h
  rcases decBit_error h with ⟨-, -, hc⟩ | ⟨hs, hone, hwalk, -⟩
  · cases hc
  · have hleaf : b.tree.nleaf.toNat = leafCount b.freq := by rw [ht, treeBuild_nleaf]
    have hone' : b.tree.nleaf.toNat ≠ 1 := fun h1 => hone (BitVec.eq_of_toNat_eq h1)
    have hnone : leafCount b.freq ≠ 0 := by
      intro h0
      have hzero : b.total.toNat = 0 := htot.trans (freqSum_eq_zero_of_leafCount h0)
      have hle := hg.symcnt
      exact hs (BitVec.eq_of_toNat_eq (by omega))
    exact hwalk (hg.node (by omega))

/-- No body raises DECODE_TRAVERSAL in a block that meets the invariant: every bit of DEC's byte keeps `Walker.Good`. -/
theorem bodyOf_ne_decodeTraversal {i : Instr} {b : Block} (hi : b.Inv) : bodyOf i b ≠ .error .decodeTraversal := by
  intro h
  obtain ⟨x, hp, hbits⟩ := bodyOf_decodeTraversal h
  obtain ⟨ht, hg⟩ := hi.walker hp
  have htot : b.total.toNat = freqSum b.freq :=
    hi.freqSum_total (by rw [Block.heldPhase_running (by rw [hp]; decide), hp]; decide)
  obtain ⟨l, y, hgood, hbit⟩ := decBits_error (P := fun l => l.Good b) (fun _ _ _ => decBit_good ht) hg hbits
  exact hgood.no_decodeTraversal ht htot y hbit

theorem Block.Inv.err_eq_none {b : Block} (hi : b.Inv) (hp : b.phase ≠ .error) : b.err = .none := by
  by_contra he
  exact hp (hi.record.2 he)

/-- Settles O55: a word that raises records its body's error, and any other leaves the empty record as it was. -/
theorem decodeTraversalCannotHappen : Obligations.DecodeTraversalCannotHappen := by
  intro s t w hi h hp
  have hkeeps : s.err ≠ .decodeTraversal := by rw [hi.err_eq_none hp]; decide
  rcases executeWord_next h with ⟨-, rfl⟩ | ⟨-, herror, -⟩ | ⟨_, -, -, rfl⟩ | ⟨i, c, -, -, -, hbody, rfl⟩ |
    ⟨i, b, bytes, -, hinit, -, hbody, -, rfl⟩ | ⟨i, b, bytes, -, -, -, -, -, -, rfl⟩
  case inl => show Block.reset.err ≠ _; decide
  case inr.inl => exact absurd herror hp
  case inr.inr.inl => show ErrCode.illegalCommand ≠ _; decide
  case inr.inr.inr.inl =>
    rintro rfl
    exact bodyOf_ne_decodeTraversal hi hbody
  case inr.inr.inr.inr.inl =>
    show b.err ≠ _
    rwa [bodyOf_ok_err hinit hbody]
  case inr.inr.inr.inr.inr => exact hkeeps

end Sys2Proof.Machine
end

section
/-! SUPPORT. Decoding undoes the codes (rules R151, R152, R174, R211, R214): the codes of a sequence of symbols decode to the sequence,
packing them adds padding only, and the padding decodes to nothing. -/

namespace Sys2Proof.Machine

/-! ## The codes of a sequence -/

/-- The code bits of a sequence of symbols, one code after another (rules R151, R171). -/
def codeBits (t : Tree) (symbols : List Byte) : List Bool :=
  symbols.flatMap fun x => ((codeLut t).get LutEntry.none x.toNat).bits

theorem codeBits_singleton (t : Tree) (x : Byte) : codeBits t [x] = ((codeLut t).get LutEntry.none x.toNat).bits :=
  List.append_nil _

theorem codeBits_cons (t : Tree) (x : Byte) (rest : List Byte) :
    codeBits t (x :: rest) = codeBits t [x] ++ codeBits t rest := by
  rw [codeBits_singleton]; rfl

/-- A code has at most MAXLEN bits (rule R153). -/
theorem codeBits_length_le (t : Tree) (symbols : List Byte) : (codeBits t symbols).length ≤ 255 * symbols.length := by
  induction symbols with
  | nil => exact Nat.le_refl _
  | cons x rest ih =>
    have hlen := ((codeLut t).get LutEntry.none x.toNat).len.isLt
    rw [codeBits_cons, codeBits_singleton, List.length_append, LutEntry.bits_length, List.length_cons]
    omega

/-- The walker once the codes of `symbols` are decoded: back at the root, with the symbols emitted and the two counters moved on. -/
def Walker.afterCodes (l : Walker) (t : Tree) (symbols : List Byte) : Walker where
  walk := t.root
  symcnt := l.symcnt + BitVec.ofNat 40 symbols.length
  bitcnt := l.bitcnt + BitVec.ofNat 48 (codeBits t symbols).length
  outs := l.outs ++ symbols

theorem Walker.afterCodes_nil {l : Walker} {t : Tree} (hw : l.walk = t.root) : l.afterCodes t [] = l := by
  simp [Walker.afterCodes, codeBits, ← hw]

theorem Walker.afterCodes_cons (l : Walker) (t : Tree) (x : Byte) (rest : List Byte) :
    (l.afterCodes t [x]).afterCodes t rest = l.afterCodes t (x :: rest) := by
  simp [Walker.afterCodes, codeBits, BitVec.ofNat_add, BitVec.add_assoc, Nat.add_comm rest.length 1]

/-! ## Decoding codes -/

section
variable {b : Block} {l : Walker} {x : Byte} (ht : b.tree = treeBuild b.freq) (hw : l.walk = b.tree.root)
  (hf : b.freqAt x.toNat ≠ 0) (hs : l.symcnt ≠ b.total)
include ht hw hf hs

/-- The one code of a single leaf is one bit, and any bit is its symbol (rules R152, R213). -/
theorem decBits_code_single (h1 : leafCount b.freq = 1) :
    decBits b l (codeBits b.tree [x]) = .ok (l.afterCodes b.tree [x]) := by
  have hbits : codeBits b.tree [x] = [false] := by
    rw [codeBits_singleton, ht, codeLut_single h1 x.isLt hf x.isLt, if_pos rfl, codeEntry_bits (by decide)]
  have hleaf : b.tree.nleaf = 1 := BitVec.eq_of_toNat_eq (by rw [ht, treeBuild_nleaf, h1]; rfl)
  have hroot : b.tree.root.setWidth 8 = x := by
    obtain ⟨hr, hfr⟩ := treeBuild_root_leaf b.freq h1
    have hx : b.tree.root.toNat = x.toNat := ht ▸ eq_of_leafCount_one h1 hr x.isLt hfr hf
    exact BitVec.eq_of_toNat_eq (by rw [BitVec.toNat_setWidth, hx]; exact Nat.mod_eq_of_lt x.isLt)
  rw [Walker.afterCodes, hbits, decBits_cons, decBit, if_neg hs, if_pos hleaf, hroot, ← hw]
  rfl

/-- With two symbols or more the code is the path from the root to the symbol's leaf (rule R151). -/
theorem decBits_code_path (h2 : 2 ≤ leafCount b.freq) :
    decBits b l (codeBits b.tree [x]) = .ok (l.afterCodes b.tree [x]) := by
  obtain ⟨hleaf, hthrough⟩ := codeLut_path h2 x.isLt hf
  obtain ⟨hinternal, hhas⟩ := treeBuild_root_internal b.freq h2
  rw [← ht, ← hw] at hleaf hthrough hinternal hhas
  rw [← codeBits_singleton] at hleaf hthrough
  have hnleaf : b.tree.nleaf ≠ 1 := by
    intro h
    have hcount := treeBuild_nleaf b.freq
    rw [← ht, h] at hcount
    exact absurd (hcount ▸ h2) (by decide)
  have hne : codeBits b.tree [x] ≠ [] := by
    intro hnil
    rw [hnil] at hleaf
    have hroot : l.walk.toNat = x.toNat := hleaf
    have hx : x.toNat < 256 := x.isLt
    omega
  have h := decBits_path ht hnleaf x.toNat _ l hne hhas hleaf hthrough x.isLt hs
  rwa [BitVec.ofNat_toNat, BitVec.setWidth_eq] at h

/-- A code that starts at the root decodes to its symbol and ends at the root. -/
theorem decBits_code : decBits b l (codeBits b.tree [x]) = .ok (l.afterCodes b.tree [x]) := by
  rcases Nat.eq_or_lt_of_le (mem_leafCount x.isLt hf) with h1 | h2
  · exact decBits_code_single ht hw hf hs h1.symm
  · exact decBits_code_path ht hw hf hs h2

end

/-- The codes of symbols that occur decode to the symbols, as long as TOTAL leaves room for them. -/
theorem decBits_codeBits {b : Block} (ht : b.tree = treeBuild b.freq) {symbols : List Byte}
    (hf : ∀ x ∈ symbols, b.freqAt x.toNat ≠ 0) {l : Walker} (hw : l.walk = b.tree.root)
    (hroom : l.symcnt.toNat + symbols.length ≤ b.total.toNat) :
    decBits b l (codeBits b.tree symbols) = .ok (l.afterCodes b.tree symbols) := by
  induction symbols generalizing l with
  | nil => rw [Walker.afterCodes_nil hw]; rfl
  | cons x rest ih =>
    rw [List.length_cons] at hroom
    have hs : l.symcnt ≠ b.total := by
      intro h
      rw [h] at hroom
      omega
    have hsucc : (l.afterCodes b.tree [x]).symcnt.toNat = l.symcnt.toNat + 1 :=
      bv_succ (by have := b.total.isLt; omega)
    rw [codeBits_cons, decBits_append, decBits_code ht hw (hf x List.mem_cons_self) hs,
      ← Walker.afterCodes_cons l b.tree x rest]
    exact ih (l := l.afterCodes b.tree [x]) (fun y hy => hf y (List.mem_cons_of_mem x hy)) rfl (by omega)

/-! ## Packing and padding -/

/-- Packing a whole bit sequence adds only the zeros that fill its last byte (rule R174). -/
theorem unpackBytes_packAll (bits : List Bool) :
    unpackBytes (packAll bits) = bits ++ List.replicate ((8 - bits.length % 8) % 8) false := by
  have hall := packBits_bits ⟨0, 0, []⟩ bits
  rw [packAll, unpackBytes_append, flushBytes_bits]
  generalize packBits ⟨0, 0, []⟩ bits = p at hall ⊢
  change unpackBytes p.outs ++ pendingBits p.acc p.fill = bits at hall
  have hfill : p.fill.toNat = bits.length % 8 := by
    have hlen := congrArg List.length hall
    rw [List.length_append, unpackBytes_length, pendingBits_eq, lowBits_length] at hlen
    have := p.fill.isLt
    omega
  rw [← hfill, ← hall]
  by_cases hzero : p.fill = 0
  · simp [hzero, pendingBits]
  · have hpos : p.fill.toNat ≠ 0 := fun h => hzero (BitVec.eq_of_toNat_eq h)
    rw [if_neg hzero, Nat.mod_eq_of_lt (by omega), List.append_assoc]

/-- Zeros after the last symbol decode to nothing (rule R214). -/
theorem decBits_padding {b : Block} {l : Walker} (hs : l.symcnt = b.total) (n : Nat) :
    decBits b l (List.replicate n false) = .ok l := by
  induction n with
  | zero => rfl
  | succ n ih =>
    rw [List.replicate_succ, decBits_cons, decBit, if_pos hs]
    exact ih

end Sys2Proof.Machine
end

section
/-! SUPPORT. COMPRESS and DECOMPRESS (rules R87, R216): each run of commands in turn, the container between them, and the source that
comes back. -/

namespace Sys2Proof.Machine

/-! ## Runs -/

theorem runAll_append_next {xs ys : List Instr} {s t : State} (h : runAll xs s = .next t) :
    runAll (xs ++ ys) s = runAll ys t := by
  rw [runAll_append, h]

theorem runAll_cons_next {i : Instr} {rest : List Instr} {s t : State} (h : exec i s = .next t) :
    runAll (i :: rest) s = runAll rest t := by
  rw [runAll, h]

theorem runAll_singleton (i : Instr) (s : State) : runAll [i] s = exec i s := by
  obtain ⟨t, ht⟩ := exec_answers i s
  rw [runAll_cons_next ht, ht, runAll]

/-! ## The histogram of a source -/

/-- FREQ counts the bytes of the source (rule R121). -/
def Histogram (freq : Table (BitVec 32)) (source : List Byte) : Prop :=
  ∀ v : Byte, (freq.get 0 v.toNat).toNat = source.count v

theorem Histogram.occurs {freq : Table (BitVec 32)} {source : List Byte} (h : Histogram freq source) :
    ∀ x ∈ source, freq.get 0 x.toNat ≠ 0 := by
  intro x hx hzero
  have hcount := h x
  rw [hzero] at hcount
  exact absurd hx (List.count_eq_zero.1 hcount.symm)

theorem Histogram.congr {f g : Table (BitVec 32)} {source : List Byte} (h : Histogram g source)
    (hf : ∀ k < 256, f.get 0 k = g.get 0 k) : Histogram f source := fun v =>
  (congrArg BitVec.toNat (hf v.toNat v.isLt)).trans (h v)

/-- Each number of the list is counted once. -/
theorem sum_count_range {n : Nat} {l : List Nat} (h : ∀ x ∈ l, x < n) :
    ((List.range n).map fun k => l.count k).sum = l.length := by
  induction l with
  | nil => simp
  | cons x rest ih =>
    have hx := sum_map_update (fun k => rest.count k) (fun k => (x :: rest).count k) x n (h x List.mem_cons_self)
      fun k hk => List.count_cons_of_ne hk.symm
    rw [ih fun y hy => h y (List.mem_cons_of_mem x hy), List.count_cons_self] at hx
    rw [List.length_cons]
    omega

/-- A histogram sums to the length of its source (rules R24, R121). -/
theorem Histogram.freqSum {freq : Table (BitVec 32)} {source : List Byte} (h : Histogram freq source) :
    freqSum freq = source.length := by
  have hcount : ∀ s ∈ List.range Config.nsym, (freq.get 0 s).toNat = (source.map BitVec.toNat).count s := by
    intro s hs
    have hbyte : (BitVec.ofNat 8 s).toNat = s :=
      (BitVec.toNat_ofNat s 8).trans (Nat.mod_eq_of_lt (List.mem_range.1 hs))
    rw [← hbyte, h, List.count_map_of_injective source _ fun x y => BitVec.eq_of_toNat_eq]
  have hbound : ∀ n ∈ source.map BitVec.toNat, n < Config.nsym := by
    intro n hn
    obtain ⟨x, -, rfl⟩ := List.mem_map.1 hn
    exact x.isLt
  rw [Machine.freqSum, List.map_congr_left hcount, sum_count_range hbound, List.length_map]

/-! ## COMPRESS (rule R87) -/

/-- The container of a source: the header, then the codes of its bytes, packed (rules R174, R190). -/
def containerOf (freq : Table (BitVec 32)) (source : List Byte) : List Byte :=
  headerBytes freq ++ packAll (codeBits (treeBuild freq) source)

/-- INIT and a first pass over a source leave its histogram in FREQ and its length in TOTAL (rules R120, R121). -/
theorem runAll_count_source {s : State} {source : List Byte} (hfit : ∀ v : Byte, source.count v < 2 ^ 32) :
    ∃ t, runAll (Instr.init :: source.map Instr.cnt) s = .next t ∧ t.phase ∈ [.idle, .count] ∧ t.outReady = s.outReady ∧
      t.out = s.out ∧ Histogram t.freq source ∧ t.total.toNat = source.length := by
  obtain ⟨freq, total, phase, hrun, hcount, hnil, hhist, htot⟩ := runAll_cnt source (hostReset s) (by simp)
    (by simpa [Block.freqAt] using hfit) (by simpa using length_lt_of_counts source hfit)
  have hlegal : phase ∈ [.idle, .count] := by
    by_cases h : source = []
    · simp [(hnil h).2]
    · simp [hcount h]
  rw [runAll_cons_next (exec_init s)]
  exact ⟨_, hrun, hlegal, rfl, rfl, fun v => (hhist v).trans (Nat.zero_add _), htot.trans (Nat.zero_add _)⟩

/-- The state that BUILD, ASSIGN and HDROUT leave of a counted one: ready for the second pass, with the header emitted. -/
def State.encoding (s : State) : State :=
  { s with
    tree := treeBuild s.freq
    walk := if (treeBuild s.freq).rootV then (treeBuild s.freq).root else 0
    symcnt := 0
    bitcnt := 0
    lut := codeLut (treeBuild s.freq)
    rem := s.freq
    acc := 0
    fill := 0
    phase := .enc
    out := s.out ++ headerBytes s.freq }

theorem runAll_start_encoding {s : State} (hp : s.phase ∈ [.idle, .count]) (hr : s.outReady = true) :
    runAll [Instr.build, Instr.assign, Instr.hdrout] s = .next s.encoding := by
  obtain ⟨hlegal, hne⟩ : s.phase ∈ [.idle, .count, .hdone] ∧ s.phase ≠ .hdone := by
    revert hp
    cases s.phase <;> decide
  have hbuild := exec_build_builds hlegal
  rw [if_neg hne] at hbuild
  rw [runAll_cons_next hbuild, runAll_cons_next (exec_assign_assigns rfl), runAll_singleton]
  exact exec_hdrout_emits rfl hr

/-- A second pass over bytes that REM allows emits their packed codes and ends in EDONE (rules R171, R173). -/
theorem runAll_encode {s : State} {source : List Byte} {t : Tree} (hp : s.phase = .enc) (hr : s.outReady = true)
    (hacc : s.acc = 0) (hfill : s.fill = 0) (hlut : s.lut = codeLut t) (hrem : Histogram s.rem source)
    (hcnt : s.symcnt = 0) (htot : s.total.toNat = source.length) :
    ∃ u, runAll (source.map Instr.enc ++ [Instr.encend]) s = .next u ∧ u.phase = .edone ∧ u.outReady = true ∧
      u.out = s.out ++ packAll (codeBits t source) := by
  obtain ⟨rem, bitcnt, hrun⟩ := runAll_enc source s hp hr fun v => (hrem v).ge
  have hcodes : (source.flatMap fun x => (s.toBlock.lutAt x.toNat).bits) = codeBits t source := by
    rw [codeBits, ← hlut]; rfl
  have hend : s.symcnt + BitVec.ofNat 40 source.length = s.total := by
    rw [hcnt, ← htot, BitVec.ofNat_toNat, BitVec.setWidth_eq]
    exact BitVec.zero_add _
  rw [hcodes, hfill, hacc, hend] at hrun
  rw [runAll_append_next hrun, runAll_singleton]
  exact ⟨_, exec_completes (by simp [hp]) (encendBody_completes hp rfl) (.inr hr), rfl, hr, List.append_assoc _ _ _⟩

theorem compressCommands_eq (source : List Byte) :
    compressCommands source = (Instr.init :: source.map Instr.cnt) ++
      ([Instr.build, Instr.assign, Instr.hdrout] ++ (source.map Instr.enc ++ [Instr.encend])) := by
  simp only [compressCommands, List.append_assoc, List.cons_append, List.nil_append]

/-- COMPRESS emits the container of its source (rules R174, R190). -/
theorem runAll_compress {s : State} {source : List Byte} (hr : s.outReady = true)
    (hfit : ∀ v : Byte, source.count v < 2 ^ 32) :
    ∃ freq t, runAll (compressCommands source) s = .next t ∧ t.phase = .edone ∧ t.outReady = true ∧
      t.out = s.out ++ containerOf freq source ∧ Histogram freq source := by
  obtain ⟨t, hcount, hlegal, hready, hout, hfreq, htot⟩ := runAll_count_source (s := s) hfit
  have hr' := hready.trans hr
  obtain ⟨u, hencode, hphase, hur, huout⟩ :=
    runAll_encode (s := t.encoding) rfl hr' rfl rfl rfl hfreq rfl htot
  refine ⟨t.freq, u, ?_, hphase, hur, ?_, hfreq⟩
  · rw [compressCommands_eq, runAll_append_next hcount, runAll_append_next (runAll_start_encoding hlegal hr'), hencode]
  · rw [huout, ← hout]
    exact List.append_assoc _ _ _

/-! ## DECOMPRESS (rule R87) -/

/-- The last byte lane of FREQ after all the others (rule R192). -/
theorem putHeaderByte_completes {f freq : Table (BitVec 32)}
    (h : ∀ i < 256, ∀ j < 4, entryByte (f.get 0 i) j = if 4 * i + j < 1023 then entryByte (freq.get 0 i) j else 0) :
    ∀ k < 256, (putHeaderByte f 1023 (entryByte (freq.get 0 255) 3)).get 0 k = freq.get 0 k := by
  refine fun k hk => entry_ext fun j hj => ?_
  rw [entryByte_putHeaderByte f (by decide) _ k j hj, h k hk j hj]
  by_cases hlast : 4 * k + j = 1023
  · rw [if_pos hlast, show k = 255 by omega, show j = 3 by omega]
  · rw [if_neg hlast, if_pos (by omega)]

/-- A header that HDROUT emits, read back after INIT, gives FREQ entry by entry (rules R190 to R193). -/
theorem runAll_header (s : State) (freq : Table (BitVec 32)) :
    ∃ t, runAll (Instr.init :: (headerBytes freq).map Instr.hdrin) s = .next t ∧ t.phase = .hdone ∧ t.hdrpos = 1024 ∧
      t.outReady = s.outReady ∧ t.out = s.out ∧ t.total.toNat = freqSum t.freq ∧ t.freq.wf 256 0 ∧
      ∀ k < 256, t.freq.get 0 k = freq.get 0 k := by
  obtain ⟨f, phase, hpart, hwf, hphase, hlanes⟩ := runAll_hdrin_part freq (hostReset s) rfl 1023 (Nat.le_refl _)
  have hall : headerBytes freq = (headerBytes freq).take 1023 ++ [entryByte (freq.get 0 255) 3] := by
    have htake := List.take_add_one (l := headerBytes freq) (i := 1023)
    rwa [List.take_of_length_le (headerBytes_length freq).le, headerBytes_getElem? freq 1023 (by decide)] at htake
  have hlegal : phase ∈ [.idle, .hload] := by simpa using hphase
  rw [runAll_cons_next (exec_init s), hall, List.map_append, runAll_append_next hpart, List.map_singleton, runAll_singleton]
  exact ⟨_, exec_hdrin_last _ hlegal rfl, rfl, rfl, rfl, rfl, toNat_freqSum _, Table.wf_set hwf _ _,
    putHeaderByte_completes hlanes⟩

/-- WALK starts at ROOT, which is 0 without a tree (rules R29, R130). -/
theorem treeBuild_walk (freq : Table (BitVec 32)) :
    (if (treeBuild freq).rootV then (treeBuild freq).root else 0) = (treeBuild freq).root := by
  rcases treeBuild_root freq with ⟨-, -, hv, hr⟩ | ⟨-, r, -, hv, -⟩
  · rw [if_neg (by simp [hv]), hr]
  · rw [if_pos hv]

/-- The state BUILD leaves of one with a whole header: the walk at the root of the tree, with nothing decoded. -/
def State.decoding (s : State) : State :=
  { s with tree := treeBuild s.freq, walk := (treeBuild s.freq).root, symcnt := 0, bitcnt := 0, phase := .dec }

theorem exec_build_decodes {s : State} (hp : s.phase = .hdone) : exec .build s = .next s.decoding := by
  rw [exec_build_builds (by simp [hp]), treeBuild_walk, if_pos hp, State.decoding]

/-- The packed codes of the counted bytes, walked from the root with nothing decoded yet: the codes give the bytes, and the bits
after them are padding (rules R211, R214). -/
theorem decBits_packed {b : Block} {source : List Byte} (ht : b.tree = treeBuild b.freq) (hfreq : Histogram b.freq source)
    (htot : b.total.toNat = source.length) :
    decBits b ⟨b.tree.root, 0, 0, []⟩ (unpackBytes (packAll (codeBits b.tree source))) =
      .ok ⟨b.tree.root, b.total, BitVec.ofNat 48 (codeBits b.tree source).length, source⟩ := by
  have hcodes := decBits_codeBits ht hfreq.occurs (l := ⟨b.tree.root, 0, 0, []⟩) rfl (by simp [htot])
  have hafter : (Walker.mk b.tree.root 0 0 []).afterCodes b.tree source =
      ⟨b.tree.root, b.total, BitVec.ofNat 48 (codeBits b.tree source).length, source⟩ := by
    simp [Walker.afterCodes, ← htot]
  rw [unpackBytes_packAll, decBits_append, hcodes, hafter]
  exact decBits_padding rfl _

/-- Packing adds less than a byte (rule R174). -/
theorem packAll_length_lt (bits : List Bool) : 8 * (packAll bits).length < bits.length + 8 := by
  rw [← unpackBytes_length, unpackBytes_packAll, List.length_append, List.length_replicate]
  omega

/-- BITCNT is wide enough for the codes of any counted source (rule R34). -/
theorem Histogram.toNat_codeBits_length {freq : Table (BitVec 32)} {source : List Byte} (h : Histogram freq source)
    (t : Tree) : (BitVec.ofNat 48 (codeBits t source).length).toNat = (codeBits t source).length := by
  have hlen := codeBits_length_le t source
  have hsum := freqSum_lt freq
  rw [h.freqSum] at hsum
  rw [BitVec.toNat_ofNat]
  omega

/-- DEC over the packed codes of the counted bytes, then DECEND, emits those bytes and ends in DDONE (rules R211, R212). -/
theorem runAll_decode {s : State} {source : List Byte} (hp : s.phase = .dec) (hr : s.outReady = true)
    (ht : s.tree = treeBuild s.freq) (hw : s.walk = s.tree.root) (hcnt : s.symcnt = 0) (hbits : s.bitcnt = 0)
    (hfreq : Histogram s.freq source) (htot : s.total.toNat = source.length) :
    ∃ u, runAll ((packAll (codeBits s.tree source)).map Instr.dec ++ [Instr.decend]) s = .next u ∧ u.phase = .ddone ∧
      u.out = s.out ++ source := by
  have hdec := decBits_packed ht hfreq htot
  have hshort := packAll_length_lt (codeBits s.tree source)
  rw [← hfreq.toNat_codeBits_length s.tree] at hshort
  have hrun := runAll_dec (packAll (codeBits s.tree source)) s _ hp hr (by rw [hw, hcnt, hbits]; exact hdec)
    (by rw [hbits]; simpa using hshort)
  rw [runAll_append_next hrun, runAll_singleton]
  exact ⟨_, exec_decend_finishes hp rfl, rfl, rfl⟩

/-- DECOMPRESS sends the 1024 bytes of the header with HDRIN and the rest with DEC. -/
theorem decompressCommands_containerOf (freq : Table (BitVec 32)) (source : List Byte) :
    decompressCommands (containerOf freq source) =
      (Instr.init :: (headerBytes freq).map Instr.hdrin) ++ Instr.build ::
        ((packAll (codeBits (treeBuild freq) source)).map Instr.dec ++ [Instr.decend]) := by
  have hlen : (headerBytes freq).length = Config.hdrBytes := headerBytes_length freq
  have hlong : ¬ (containerOf freq source).length < Config.hdrBytes := by
    rw [containerOf, List.length_append, hlen]
    exact Nat.not_lt.2 (Nat.le_add_right _ _)
  rw [decompressCommands, if_neg hlong, containerOf, List.take_left' hlen, List.drop_left' hlen]
  simp only [List.append_assoc, List.cons_append, List.nil_append]

/-- DECOMPRESS of a source's container emits the source, from any state (rule R216). -/
theorem runAll_decompress {s : State} {freq : Table (BitVec 32)} {source : List Byte} (hr : s.outReady = true)
    (hfreq : Histogram freq source) :
    ∃ u, runAll (decompressCommands (containerOf freq source)) s = .next u ∧ u.phase = .ddone ∧ u.out = s.out ++ source := by
  obtain ⟨t, hheader, hphase, -, hready, hout, htot, -, hsame⟩ := runAll_header s freq
  have hfreq' := hfreq.congr hsame
  rw [decompressCommands_containerOf, runAll_append_next hheader, runAll_cons_next (exec_build_decodes hphase),
    ← treeBuild_congr hsame, ← hout]
  exact runAll_decode (s := t.decoding) rfl (hready.trans hr) rfl rfl rfl rfl hfreq' (htot.trans hfreq'.freqSum)

/-- Settles O57: COMPRESS ends with the container of the source's histogram in OUT, and DECOMPRESS of that gives the source. -/
theorem decompressUndoesCompress : Obligations.DecompressUndoesCompress := by
  intro s source hr hfit
  obtain ⟨freq, t, hcompress, hphase, hready, hout, hfreq⟩ := runAll_compress hr hfit
  obtain ⟨u, hdecompress, hdone, hback⟩ := runAll_decompress hready hfreq
  exact ⟨t, _, u, hcompress, hphase, hout, hdecompress, hdone, hback⟩

end Sys2Proof.Machine
end

section
/-! SUPPORT. Errors (rules R233, R234, R236, R245): what ERROR ignores and how it is left, and what a command that raises writes. -/

namespace Sys2Proof.Machine

/-- Settles O8: without a command and without a transaction the step is the case of `nextEvent` that answers the state itself. -/
theorem idleBlockKeepsAllItsState : Obligations.IdleBlockKeepsAllItsState := by
  intro s hb hin
  simp only [step, nextEvent, hb, hin]

/-- Settles O9: the dispatch ignores an ILLEGAL word and every command but INIT, and INIT has the one word. -/
theorem errorPhaseIgnoresAllWordsButInit : Obligations.ErrorPhaseIgnoresAllWordsButInit := by
  intro s w hp hw
  cases hd : decodeWord w with
  | ok i =>
    have hi : i ≠ .init := by
      rintro rfl
      exact hw (decodeWord_eq_ok_iff.1 hd).symm
    rw [executeWord_ok hd, exec_in_error hi hp]
  | error e => rw [executeWord_illegal hd, issue_in_error hp]

/-- A word that leaves ERROR is INIT's, and it resets the block (rule R236). -/
theorem executeWord_leaves_error {w : Word} {s t : State} (hp : s.phase = .error) (h : executeWord w s = .next t)
    (hne : t.phase ≠ .error) : w = 0x01000000 ∧ t = hostReset s := by
  by_cases hw : w = 0x01000000
  · subst hw
    rw [executeWord_init, Host.Outcome.next.injEq] at h
    exact ⟨rfl, h.symm⟩
  · rw [errorPhaseIgnoresAllWordsButInit s w hp hw, Host.Outcome.next.injEq] at h
    exact absurd (h ▸ hp) hne

/-- Settles O10: no command waits in ERROR, and of the transactions with a ready block only a reset and INIT's word write PHASE. -/
theorem onlyInitAndResetLeaveError : Obligations.OnlyInitAndResetLeaveError := by
  intro s t hwaits hp h hne
  have hready : ∀ r, s.busy ≠ some r := fun r hb => (hwaits r hb).2.1 hp
  rcases step_next h with ⟨-, -, rfl⟩ | ⟨w, rest, -, hin, hw⟩ | ⟨a, rest, -, -, rfl⟩ | ⟨rest, -, hin, rfl⟩ |
    ⟨r, rest, ⟨-, -, hin⟩ | ⟨hb, -⟩, rfl⟩ | ⟨rest, -, -, rfl⟩ | ⟨r, -, hb, -, -⟩ | ⟨r, -, hb, -, -⟩ | ⟨v, rest, -, -, rfl⟩
  · exact absurd hp hne
  · obtain ⟨rfl, rfl⟩ := executeWord_leaves_error (s := { s with inputs := rest }) hp hw hne
    exact ⟨rfl, _, rest, hin, .inl rfl⟩
  · exact absurd hp hne
  · exact ⟨rfl, _, rest, hin, .inr (.inl rfl)⟩
  · exact ⟨rfl, _, rest, hin, .inr (.inr ⟨_, rfl⟩)⟩
  · exact absurd hb (hready r)
  · exact absurd hp hne
  · exact absurd hb (hready r)
  · exact absurd hb (hready r)
  · exact absurd hp hne

/-- A body that completes outside ERROR does not lead there (rules R22, R233). -/
theorem bodyOf_ok_phase_ne_error {i : Instr} {b b' : Block} {o : List Byte} (hp : b.phase ≠ .error)
    (h : bodyOf i b = .ok (b', o)) : b'.phase ≠ .error := by
  cases i with
  | nop => cases h; exact hp
  | init => cases h; nofun
  | abortsrc => cases h
  | abortsnk => cases h
  | cnt x => obtain ⟨-, -, -, rfl⟩ := cntBody_ok h; nofun
  | build => obtain ⟨-, -, rfl⟩ := buildBody_ok h; dsimp only; split <;> nofun
  | assign => obtain ⟨-, -, rfl⟩ := assignBody_ok h; nofun
  | hdrout => obtain ⟨-, -, rfl⟩ := hdroutBody_ok h; nofun
  | enc x => obtain ⟨-, -, -, rfl⟩ := encBody_ok h; exact hp
  | encend => obtain ⟨-, -, -, rfl⟩ := encendBody_ok h; nofun
  | hdrin x => obtain ⟨-, -, ⟨-, rfl⟩ | ⟨-, rfl⟩⟩ := hdrinBody_ok h <;> nofun
  | dec x => obtain ⟨-, -, l, -, -, rfl⟩ := decBody_ok h; exact hp
  | decend => obtain ⟨-, -, -, rfl⟩ := decendBody_ok h; nofun

/-- Settles O11: only the error entry brings a word from outside ERROR into it, and it is entered with a code that is not NONE. -/
theorem errorEntryIsPrecise : Obligations.ErrorEntryIsPrecise := by
  intro w s t h hp ht
  rcases executeWord_next h with ⟨-, rfl⟩ | ⟨-, herror, -⟩ | ⟨_, -, -, rfl⟩ | ⟨i, c, hd, -, -, hbody, rfl⟩ |
    ⟨i, b, bytes, -, -, -, hbody, -, rfl⟩ | ⟨i, b, bytes, -, -, -, -, -, -, rfl⟩
  case inl => cases ht
  case inr.inl => exact absurd herror hp
  case inr.inr.inl => exact ⟨.illegalCommand, by decide, rfl⟩
  case inr.inr.inr.inl =>
    rw [decodeWord_eq_ok_iff.1 hd]
    exact ⟨c, bodyOf_error_ne_none hbody, rfl⟩
  case inr.inr.inr.inr.inl => exact absurd ht (bodyOf_ok_phase_ne_error hp hbody)
  case inr.inr.inr.inr.inr => exact absurd ht hp

end Sys2Proof.Machine
end

section
/-! SUPPORT. The opcode map (rules R82, R83) and the assembler's encoding (rules R81, R86): a row stands for one mnemonic, and an accepted
source command has the word of its row. -/

namespace Sys2Proof

/-- Settles O2: each constructor's own word decodes to it. -/
theorem decodeOfEncodeIsTheCommand : Obligations.DecodeOfEncodeIsTheCommand := decodeWord_encode

/-- Settles O3: a word decodes exactly to the instruction whose word it is. -/
theorem encodeOfDecodeIsTheWord : Obligations.EncodeOfDecodeIsTheWord := fun _ _ => decodeWord_eq_ok_iff.1

/-- Settles O1: the decoder on the words of the table, and on the words that break their format. -/
theorem decodesWordsOfTheOpcodeMap : Obligations.DecodesWordsOfTheOpcodeMap :=
  ⟨rfl, rfl, rfl, rfl, rfl, rfl, rfl, rfl, rfl, rfl, rfl, rfl, rfl, rfl, rfl, rfl, rfl⟩

theorem encode_injective {i j : Instr} (h : encode i = encode j) : i = j := by
  have hdecode := decodeWord_encode i
  rw [h, decodeWord_encode j, Except.ok.injEq] at hdecode
  exact hdecode.symm

/-- The mnemonic of a command (rule R86). -/
def Instr.mnemonic : Instr → Mnemonic
  | .nop => .nop
  | .init => .init
  | .abortsrc => .abortsrc
  | .abortsnk => .abortsnk
  | .cnt _ => .cnt
  | .build => .build
  | .assign => .assign
  | .hdrout => .hdrout
  | .enc _ => .enc
  | .encend => .encend
  | .hdrin _ => .hdrin
  | .dec _ => .dec
  | .decend => .decend

theorem mnemonic_of_row {r : OpcodeRow} (hr : r ∈ opcodeTable) (b : Byte) : (r.command b).mnemonic = r.mnemonic := by
  simp only [opcodeTable, List.mem_cons, List.not_mem_nil, or_false] at hr
  obtain rfl | rfl | rfl | rfl | rfl | rfl | rfl | rfl | rfl | rfl | rfl | rfl | rfl := hr <;> rfl

/-- Settles O5: both rows' commands have the matched word as their own, so they are one command. -/
theorem opcodeRowsNeverOverlap : Obligations.OpcodeRowsNeverOverlap := by
  intro w r1 r2 hr1 hr2 hm1 hm2
  have hcommand : r1.command (opndField w) = r2.command (opndField w) :=
    encode_injective ((encode_of_row hr1 hm1).trans (encode_of_row hr2 hm2).symm)
  rw [← mnemonic_of_row hr1 (opndField w), hcommand, mnemonic_of_row hr2]

/-! ## The assembler (rule R86) -/

theorem wellFormed_formatN {m : Mnemonic} (hm : m.format = .n) (v : Option Nat) :
    (SourceCommand.mk m v).wellFormed = true ↔ v = none := by
  cases v <;> simp [SourceCommand.wellFormed, SourceCommand.problem, hm]

theorem wellFormed_formatB {m : Mnemonic} (hm : m.format = .b) (v : Option Nat) :
    (SourceCommand.mk m v).wellFormed = true ↔ ∃ n, v = some n ∧ n < 256 := by
  cases v with
  | none => simp [SourceCommand.wellFormed, SourceCommand.problem, hm]
  | some n => simp [SourceCommand.wellFormed, SourceCommand.problem, hm, ite_eq_left_iff]

/-- A command is refused by the checks alone: every mnemonic has an instruction. -/
theorem SourceCommand.instr_eq_none_iff (c : SourceCommand) : c.instr = none ↔ ¬ c.wellFormed = true := by
  obtain ⟨m, v⟩ := c
  rw [SourceCommand.instr]
  split_ifs with h
  · refine iff_of_false ?_ (not_not_intro h)
    cases m <;> exact Option.some_ne_none _
  · exact iff_of_true rfl h

theorem SourceCommand.wellFormed_of_instr {c : SourceCommand} {i : Instr} (h : c.instr = some i) : c.wellFormed = true := by
  by_contra hc
  rw [c.instr_eq_none_iff.2 hc] at h
  cases h

/-- The opcodes of the format-N rows of rule R82. -/
def opcodesN : List (Mnemonic × BitVec 8) :=
  [(.nop, 0x00#8), (.init, 0x01#8), (.abortsrc, 0x02#8), (.abortsnk, 0x03#8), (.build, 0x11#8), (.assign, 0x12#8),
    (.hdrout, 0x13#8), (.encend, 0x15#8), (.decend, 0x22#8)]

/-- The opcodes of the format-B rows of rule R82. -/
def opcodesB : List (Mnemonic × BitVec 8) := [(.cnt, 0x10#8), (.enc, 0x14#8), (.hdrin, 0x20#8), (.dec, 0x21#8)]

/-- An accepted format-N command has no operand, and its row's word. -/
theorem encode_of_instr_formatN {m : Mnemonic} (hm : m.format = .n) {v : Option Nat} {i : Instr}
    (h : (SourceCommand.mk m v).instr = some i) : v = none ∧ ∃ opc, (m, opc) ∈ opcodesN ∧ encode i = formatN opc := by
  obtain rfl := (wellFormed_formatN hm v).1 (SourceCommand.wellFormed_of_instr h)
  refine ⟨rfl, ?_⟩
  cases m with
  | cnt | enc | hdrin | dec => cases hm
  | nop | init | abortsrc | abortsnk | build | assign | hdrout | encend | decend =>
    cases h
    exact ⟨_, by decide, rfl⟩

/-- An accepted format-B command has an operand that is a byte, and its row's word with that byte. -/
theorem encode_of_instr_formatB {m : Mnemonic} (hm : m.format = .b) {v : Option Nat} {i : Instr}
    (h : (SourceCommand.mk m v).instr = some i) :
    ∃ opc n, (m, opc) ∈ opcodesB ∧ v = some n ∧ n < 256 ∧ encode i = formatB opc (BitVec.ofNat 8 n) := by
  have hwf := SourceCommand.wellFormed_of_instr h
  obtain ⟨n, rfl, hn⟩ := (wellFormed_formatB hm v).1 hwf
  rw [SourceCommand.instr, if_pos hwf] at h
  cases m with
  | cnt | enc | hdrin | dec =>
    cases h
    exact ⟨_, n, by decide, rfl, hn, rfl⟩
  | nop | init | abortsrc | abortsnk | build | assign | hdrout | encend | decend => cases hm

theorem opndField_toNat (w : Word) : (opndField w).toNat = w.toNat % 256 := by
  simp [opndField, BitVec.extractLsb'_toNat]

theorem opndField_formatN (o : BitVec 8) : opndField (formatN o) = 0 :=
  BitVec.extractLsb'_append_eq_of_add_le (by decide)

/-- Settles O6: the checks of the mnemonic's format decide, and an accepted command's word is its row's with the operand as it is. -/
theorem assemblerRefusesExactlyIllFormedCommands : Obligations.AssemblerRefusesExactlyIllFormedCommands := by
  intro m v
  dsimp only
  rw [SourceCommand.instr_eq_none_iff]
  cases hm : m.format with
  | n =>
    refine ⟨?refused, fun i h => ?accepted⟩
    case refused => cases v <;> simp [wellFormed_formatN hm]
    case accepted =>
      obtain ⟨rfl, opc, hrow, he⟩ := encode_of_instr_formatN hm h
      refine ⟨?_, .inl ⟨opc, hrow, rfl, he⟩⟩
      rw [he, ← opndField_toNat, opndField_formatN]
      rfl
  | b =>
    refine ⟨?refused, fun i h => ?accepted⟩
    case refused => cases v <;> simp [wellFormed_formatB hm]
    case accepted =>
      obtain ⟨opc, n, hrow, rfl, hn, he⟩ := encode_of_instr_formatB hm h
      refine ⟨?_, .inr ⟨opc, n, hrow, rfl, hn, he⟩⟩
      rw [he, ← opndField_toNat, opndField_formatB, BitVec.toNat_ofNat]
      exact Nat.mod_eq_of_lt hn

end Sys2Proof
end

section
/-! SUPPORT. The invariant of the whole machine (rules R40, R267): beside the block's own, what is said of a waiting command. -/

namespace Sys2Proof.Machine

theorem State.waits_of_ready {s : State} (hb : s.busy = none) : s.Waits := by
  intro r hr
  rw [hb] at hr
  cases hr

/-- Settles O58: the reset block meets the invariant, and nothing is executing. -/
theorem resetMeetsTheInvariant : Obligations.ResetMeetsTheInvariant := ⟨Block.reset_inv, State.waits_of_ready rfl⟩

/-- A word sent to a ready block waits only outside ERROR, with bytes left and a host that takes none by itself. -/
theorem executeWord_waits {w : Word} {s t : State} (hb : s.busy = none) (h : executeWord w s = .next t) : t.Waits := by
  rcases executeWord_next h with ⟨-, rfl⟩ | ⟨-, -, rfl⟩ | ⟨_, -, -, rfl⟩ | ⟨i, c, -, -, -, -, rfl⟩ |
    ⟨i, b, bytes, -, -, -, -, -, rfl⟩ | ⟨i, b, bytes, -, -, hp, hbody, hne, hready, rfl⟩
  case inl => exact State.waits_of_ready hb
  case inr.inl => exact State.waits_of_ready hb
  case inr.inr.inl => exact State.waits_of_ready hb
  case inr.inr.inr.inl => exact State.waits_of_ready hb
  case inr.inr.inr.inr.inl => exact State.waits_of_ready hb
  case inr.inr.inr.inr.inr =>
    rintro r hr
    cases hr
    have hbytes : bytesOfWord (encode i) s.toBlock = bytes := bytesOfWord_eq (decodeWord_encode i) hp hbody
    exact ⟨hready, hp, fun hnil => hne (hbytes ▸ hnil)⟩

/-- After a byte is taken the command waits for the next one, or has completed. -/
theorem takeOne_waits {r : Running} {s : State} (hr : s.outReady = false) (hp : s.phase ≠ .error) : (takeOne r s).Waits := by
  rcases takeOne_cases r s with ⟨x, rest, hleft, hne, ht⟩ | ⟨-, ht⟩
  · rw [ht]
    rintro r' hr'
    cases hr'
    exact ⟨hr, hp, fun hnil => hne ((bytesLeft_next hleft).symm.trans hnil)⟩
  · rw [ht]
    exact State.waits_of_ready rfl

theorem step_waits {s t : State} (hi : s.Waits) (h : step s = .next t) : t.Waits := by
  rcases step_next h with ⟨-, -, rfl⟩ | ⟨w, rest, hb, -, hw⟩ | ⟨a, rest, hb, -, rfl⟩ | ⟨rest, hb, -, rfl⟩ |
    ⟨r, rest, -, rfl⟩ | ⟨rest, hb, -, rfl⟩ | ⟨r, rest, hb, -, rfl⟩ | ⟨r, rest, -, -, rfl⟩ |
    ⟨v, rest, hb | rfl, -, rfl⟩
  · exact hi
  · exact executeWord_waits (s := { s with inputs := rest }) hb hw
  · exact State.waits_of_ready hb
  · exact State.waits_of_ready hb
  · exact State.waits_of_ready rfl
  · exact State.waits_of_ready hb
  · obtain ⟨hready, hp, -⟩ := hi r hb
    exact takeOne_waits (s := { s with inputs := rest }) hready hp
  · exact State.waits_of_ready rfl
  · exact State.waits_of_ready hb
  · intro r hr
    obtain ⟨-, hp, hleft⟩ := hi r hr
    exact ⟨rfl, hp, hleft⟩

/-- Settles O59: a step keeps the block's invariant whatever waits, and what it leaves waiting has bytes left. -/
theorem everyStepKeepsTheInvariant : Obligations.EveryStepKeepsTheInvariant := fun _ _ hi h =>
  ⟨step_block_inv hi.block h, step_waits hi.waits h⟩

end Sys2Proof.Machine
end

section
/-! SUPPORT. The header read back and the codes decoded, as the whole statements of rules R191 to R193 and R213. -/

namespace Sys2Proof.Machine

/-- Settles O52: the run gives FREQ entry by entry, and a table in its canonical form is its entries. -/
theorem headerReadsBack : Obligations.HeaderReadsBack := by
  intro s freq hwf
  obtain ⟨t, hrun, hphase, hpos, -, hout, htot, hwf', hsame⟩ := runAll_header s freq
  have hfreq : t.freq = freq := Table.ext_get hwf' hwf hsame
  exact ⟨t, hrun, hphase, hfreq, hfreq ▸ htot, hpos, hout⟩

/-- Settles O56: each code decodes to its symbol and ends at the root, where the next begins. -/
theorem decodingTheCodesGivesTheSymbols : Obligations.DecodingTheCodesGivesTheSymbols := by
  intro b l symbols ht hw hf hroom
  refine ⟨_, decBits_codeBits ht hf hw hroom, rfl, ?_, rfl⟩
  have htotal := b.total.isLt
  rw [Walker.afterCodes, BitVec.toNat_add, BitVec.toNat_ofNat]
  omega

end Sys2Proof.Machine
end

section
/-! SUPPORT. The step by its transactions (rules R60 to R66, R245, R262, R267): one lemma for each transaction, with a ready block and with
one that waits, and what each does to OUT. -/

namespace Sys2Proof.Machine

/-- Settles O7: the transaction at a ready block's command port is `executeWord`, which is `exec` or ILLEGAL_COMMAND. -/
theorem stepRunsTheDecodedCommand : Obligations.StepRunsTheDecodedCommand := by
  intro s w rest hb hin
  have hstep := step_command hb hin
  refine ⟨hstep, fun i hd => hstep.trans (executeWord_ok hd _), fun e hd => ⟨fun hp => ?_, fun hp => ?_⟩⟩
  · exact hstep.trans (executeWord_illegal_raises (s := { s with inputs := rest }) hd hp)
  · exact hstep.trans ((executeWord_illegal hd _).trans (issue_in_error (s := { s with inputs := rest }) hp))

section Ready
variable {s : State} {rest : List HostEvent} (hb : s.busy = none)
include hb

theorem step_read {a : BitVec 14} (hin : s.inputs = .read a :: rest) :
    step s = .next (readPort a { s with inputs := rest }) := by
  simp only [step, nextEvent, hb, hin, hostEvent]

theorem step_sink {v : Bool} (hin : s.inputs = .sink v :: rest) :
    step s = .next { s with inputs := rest, outReady := v } := by
  simp only [step, nextEvent, hb, hin, hostEvent]

theorem step_takeByte_ready (hin : s.inputs = .takeByte :: rest) : step s = .next { s with inputs := rest } := by
  simp only [step, nextEvent, hb, hin, hostEvent]

theorem step_resetDuring {w : Word} (hin : s.inputs = .resetDuring w :: rest) :
    step s = .next (abandon ⟨w, 0⟩ { s with inputs := rest }) := by
  simp only [step, nextEvent, hb, hin, hostEvent]

end Ready

section Waiting
variable {s : State} {r : Running} {rest : List HostEvent} (hb : s.busy = some r)
include hb

theorem step_takeByte (hin : s.inputs = .takeByte :: rest) : step s = .next (takeOne r { s with inputs := rest }) := by
  simp only [step, nextEvent, waitFor, hb, hin]

theorem step_sink_true (hin : s.inputs = .sink true :: rest) :
    step s = .next (finish r { s with inputs := rest, outReady := true }) := by
  simp only [step, nextEvent, waitFor, hb, hin]

theorem step_sink_false (hin : s.inputs = .sink false :: rest) :
    step s = .next { s with inputs := rest, outReady := false } := by
  simp only [step, nextEvent, waitFor, hb, hin]

theorem step_reset_waiting (hin : s.inputs = .reset :: rest) : step s = .next (abandon r { s with inputs := rest }) := by
  simp only [step, nextEvent, waitFor, hb, hin]

theorem step_nothing_waiting (hin : s.inputs = []) : step s = .fault .outputStalled := by
  simp only [step, nextEvent, waitFor, hb, hin]

theorem step_command_waiting {w : Word} (hin : s.inputs = .command w :: rest) : step s = .fault .outputStalled := by
  simp only [step, nextEvent, waitFor, hb, hin]

theorem step_resetDuring_waiting {w : Word} (hin : s.inputs = .resetDuring w :: rest) : step s = .fault .outputStalled := by
  simp only [step, nextEvent, waitFor, hb, hin]

theorem step_read_waiting {a : BitVec 14} (hin : s.inputs = .read a :: rest) : step s = .fault .outputStalled := by
  simp only [step, nextEvent, waitFor, hb, hin]

end Waiting

/-- Settles O14: with a ready block each of the three transactions writes only the field that records it. -/
theorem hostReadsChangeNothing : Obligations.HostReadsChangeNothing := fun _ _ hb =>
  ⟨fun _ => step_read hb, fun _ => step_sink hb, step_takeByte_ready hb⟩

/-! ## OUT (rule R63) -/

theorem executeWord_out {w : Word} {s t : State} (h : executeWord w s = .next t) : s.out <+: t.out := by
  rcases executeWord_next h with ⟨-, rfl⟩ | ⟨-, -, rfl⟩ | ⟨_, -, -, rfl⟩ | ⟨i, c, -, -, -, -, rfl⟩ |
    ⟨i, b, bytes, -, -, -, -, -, rfl⟩ | ⟨i, b, bytes, -, -, -, -, -, -, rfl⟩
  case inr.inr.inr.inr.inl => exact List.prefix_append _ _
  all_goals exact List.prefix_rfl

theorem takeOne_out (r : Running) (s : State) : s.out <+: (takeOne r s).out := by
  rcases takeOne_cases r s with ⟨x, rest, -, -, ht⟩ | ⟨-, ht⟩ <;> rw [ht] <;> exact List.prefix_append _ _

/-- Settles O17: a step leaves OUT as it is or puts bytes at its end. -/
theorem outOnlyGrows : Obligations.OutOnlyGrows := by
  intro s t h
  rcases step_next h with ⟨-, -, rfl⟩ | ⟨w, rest, -, -, hw⟩ | ⟨a, rest, -, -, rfl⟩ | ⟨rest, -, -, rfl⟩ |
    ⟨r, rest, -, rfl⟩ | ⟨rest, -, -, rfl⟩ | ⟨r, rest, -, -, rfl⟩ | ⟨r, rest, -, -, rfl⟩ | ⟨v, rest, -, -, rfl⟩
  · exact List.prefix_rfl
  · exact executeWord_out (s := { s with inputs := rest }) hw
  · exact List.prefix_rfl
  · exact List.prefix_rfl
  · exact List.prefix_append _ _
  · exact List.prefix_rfl
  · exact takeOne_out r { s with inputs := rest }
  · exact List.prefix_append _ _
  · exact List.prefix_rfl

/-- Settles O16: either reset is `abandon`, which puts a first part of the bytes left after the first k in OUT. -/
theorem resetDuringACommandKeepsAFirstPartOfItsBytes : Obligations.ResetDuringACommandKeepsAFirstPartOfItsBytes := by
  intro s t w k rest done bytes hreset hdone hout ht
  have hstep : step s = .next (abandon ⟨w, k⟩ { s with inputs := rest }) := by
    rcases hreset with ⟨hb, rfl, hin⟩ | ⟨hb, hin⟩
    · exact step_resetDuring hb hin
    · exact step_reset_waiting hb hin
  obtain ⟨hbytes, -⟩ := wordEffect_of_ready (s := { s with inputs := rest, outReady := true }) rfl hdone hout
  rw [hstep, Host.Outcome.next.injEq] at ht
  subst ht
  refine ⟨rfl, rfl, (bytes.drop k).take (Config.resetDraw s.draws), List.take_prefix _ _, ?_⟩
  rw [← hbytes]
  rfl

/-! ## A host that takes bytes one by one (rule R267) -/

/-- What a command does when the host does not take its bytes by itself, from what it does when the host does. -/
theorem exec_of_ready {i : Instr} {s t : State} (hr : s.outReady = false)
    (h : exec i { s with outReady := true } = .next t) :
    (t.out ≠ s.out → exec i s = .next { s with busy := some ⟨encode i, 0⟩ }) ∧
      (t.out = s.out → exec i s = .next { t with outReady := false }) := by
  obtain ⟨block, inputs, busy, out, readData, ready, draws⟩ := s
  obtain rfl : ready = false := hr
  rcases exec_next h with ⟨rfl, rfl⟩ | ⟨hi, hp, rfl⟩ | ⟨-, hp, c, hbody, rfl⟩ | ⟨-, hp, b, bytes, hbody, -, rfl⟩ |
    ⟨-, -, b, bytes, -, -, hready, -⟩
  case inl => exact ⟨fun hne => absurd rfl hne, fun _ => exec_init _⟩
  case inr.inl => exact ⟨fun hne => absurd rfl hne, fun _ => exec_in_error hi hp⟩
  case inr.inr.inl => exact ⟨fun hne => absurd rfl hne, fun _ => exec_raises hp hbody⟩
  case inr.inr.inr.inl =>
    refine ⟨fun hne => exec_waits hp hbody (fun hnil => hne ?_) rfl, fun hout => ?_⟩
    · rw [hnil]
      exact List.append_nil _
    · exact exec_completes hp hbody (.inl (List.append_right_eq_self.1 hout))
  case inr.inr.inr.inr => cases hready

section OneByOne
variable {s done : State} {w : Word} {k : Nat} {rest : List HostEvent} {bytes : List Byte}
  (hdone : executeWord w { s with inputs := rest, busy := none, outReady := true } = .next done)
  (hout : done.out = s.out ++ bytes)
include hdone hout

/-- The bytes left of a waiting command are those it emits with a host that takes bytes, without the first k. -/
theorem bytesLeft_of_ready : bytesLeft ⟨w, k⟩ { s with inputs := rest } = bytes.drop k := by
  obtain ⟨hbytes, -⟩ := wordEffect_of_ready rfl hdone hout
  rw [← hbytes]
  rfl

/-- A waiting command completes with the block it leaves with a host that takes bytes. -/
theorem finish_of_ready (v : Bool) :
    finish ⟨w, k⟩ { s with inputs := rest, outReady := v } = { done with outReady := v, out := s.out ++ bytes.drop k } := by
  obtain ⟨hbytes, hafter⟩ := wordEffect_of_ready rfl hdone hout
  rw [hafter, ← hbytes]
  rfl

variable (hb : s.busy = some ⟨w, k⟩)
include hb

theorem takeByte_not_last {x : Byte} (hin : s.inputs = .takeByte :: rest) (hk : k + 1 < bytes.length)
    (hx : bytes[k]? = some x) :
    step s = .next { s with inputs := rest, busy := some ⟨w, k + 1⟩, out := s.out ++ [x] } := by
  have hleft := bytesLeft_of_ready (k := k) hdone hout
  rw [step_takeByte hb hin]
  rcases takeOne_cases ⟨w, k⟩ { s with inputs := rest } with ⟨y, more, hy, -, ht⟩ | ⟨hlast, -⟩
  · rw [hleft] at hy
    have hxy : bytes[k]? = some y := by rw [← List.head?_drop, hy, List.head?_cons]
    rw [ht, Option.some.inj (hx.symm.trans hxy)]
  · rw [hleft, List.length_drop] at hlast
    omega

theorem takeByte_last (hin : s.inputs = .takeByte :: rest) (hk : bytes.length ≤ k + 1) :
    step s = .next { done with outReady := s.outReady, out := s.out ++ bytes.drop k } := by
  have hleft := bytesLeft_of_ready (k := k) hdone hout
  rw [step_takeByte hb hin]
  rcases takeOne_cases ⟨w, k⟩ { s with inputs := rest } with ⟨y, more, hy, hmore, -⟩ | ⟨-, ht⟩
  · have hlen := congrArg List.length (hleft.symm.trans hy)
    rw [List.length_drop, List.length_cons] at hlen
    have := List.length_pos_of_ne_nil hmore
    omega
  · rw [ht]
    exact congrArg _ (finish_of_ready (k := k) hdone hout s.outReady)

theorem sink_completes (hin : s.inputs = .sink true :: rest) :
    step s = .next { done with out := s.out ++ bytes.drop k } := by
  obtain ⟨-, hafter⟩ := wordEffect_of_ready rfl hdone hout
  rw [step_sink_true hb hin, finish_of_ready (k := k) hdone hout, hafter]

end OneByOne

/-- Settles O18: which commands wait, what each transfer does to one that waits, and where the host stops it for good. -/
theorem stalledSinkStopsOnlyEmittingCommands : Obligations.StalledSinkStopsOnlyEmittingCommands := by
  refine ⟨fun i s t => exec_of_ready, fun s done w k rest bytes hb hdone hout => ⟨fun x => ?_, ?_, ?_⟩, fun s r rest hb => ?_⟩
  · exact takeByte_not_last hdone hout hb
  · exact takeByte_last hdone hout hb
  · exact sink_completes hdone hout hb
  · exact ⟨step_sink_false hb, step_nothing_waiting hb,
      fun v hin => hin.elim (step_command_waiting hb) (step_resetDuring_waiting hb), fun a => step_read_waiting hb⟩

end Sys2Proof.Machine
end

section
/-! SUPPORT. The tables of rules R22 and R232: what each body does outside its legal phases, which errors it raises in them, and the phase
it leaves. -/

namespace Sys2Proof.Machine

/-- Outside its legal phases a body raises the error of the table's last column (rule R22). -/
theorem bodyOf_illegal_phase {i : Instr} {b : Block} (hp : b.phase ≠ .error) (hl : b.phase ∉ legalPhases i) :
    bodyOf i b = .error (outOfPhaseError i b.phase) := by
  cases i with
  | nop | init | abortsrc | abortsnk =>
    refine absurd ?_ hl
    cases h : b.phase with
    | error => exact absurd h hp
    | idle | count | cbuilt | coded | enc | edone | hload | hdone | dec | ddone => simp [legalPhases]
  | cnt x | assign | hdrout | enc x | encend | hdrin x | dec x => exact requirePhase_illegal hl
  | build =>
    refine (requirePhase_illegal hl).trans (congrArg _ ?_)
    cases b.phase <;> rfl
  | decend =>
    refine (requirePhase_illegal hl).trans (congrArg _ ?_)
    cases b.phase <;> rfl

/-- A bit of DEC's byte raises one of two errors (rules R213 to R215). -/
theorem decBits_error_code {b : Block} {l : Walker} {bits : List Bool} {c : ErrCode} (h : decBits b l bits = .error c) :
    c = .malformedContainer ∨ c = .decodeTraversal := by
  obtain ⟨l', x, -, hbit⟩ := decBits_error (P := fun _ => True) (fun _ _ _ _ _ => trivial) trivial h
  rcases decBit_error hbit with ⟨-, -, hc⟩ | ⟨-, -, -, hc⟩
  · exact .inl hc
  · exact .inr hc

/-- In a legal phase a body raises only errors of its own rows (rule R232). -/
theorem bodyOf_own_error {i : Instr} {b : Block} {c : ErrCode} (hl : b.phase ∈ legalPhases i)
    (h : bodyOf i b = .error c) : c ∈ ownErrors i := by
  cases i with
  | nop | init => cases h
  | abortsrc | abortsnk => cases h; exact List.mem_singleton_self _
  | cnt x =>
    rcases cntBody_error h with ⟨hn, -⟩ | ⟨-, -, rfl⟩
    · exact absurd hl hn
    · exact List.mem_singleton_self _
  | build => exact absurd hl (buildBody_error h).1
  | assign => exact absurd (List.mem_singleton.1 hl) (assignBody_error h).1
  | hdrout => exact absurd (List.mem_singleton.1 hl) (hdroutBody_error h).1
  | enc x =>
    rcases encBody_error h with ⟨hn, -⟩ | ⟨-, -, rfl⟩
    · exact absurd (List.mem_singleton.1 hl) hn
    · exact List.mem_singleton_self _
  | encend =>
    rcases encendBody_error h with ⟨hn, -⟩ | ⟨-, -, rfl⟩
    · exact absurd (List.mem_singleton.1 hl) hn
    · exact List.mem_singleton_self _
  | hdrin x => exact absurd hl (hdrinBody_error h).1
  | dec x =>
    rcases decBody_error h with ⟨hn, -⟩ | ⟨-, -, rfl⟩ | ⟨-, -, hbits⟩
    · exact absurd (List.mem_singleton.1 hl) hn
    · exact List.mem_cons_self
    · rcases decBits_error_code hbits with rfl | rfl
      · exact List.mem_cons_self
      · exact List.mem_cons_of_mem _ List.mem_cons_self
  | decend =>
    rcases decendBody_error h with ⟨hn, -⟩ | ⟨-, -, rfl⟩
    · exact absurd (List.mem_singleton.1 hl) hn
    · exact List.mem_singleton_self _

/-- A body that completes does so in a legal phase, and leaves the block in the phase of its row (rule R22). -/
theorem bodyOf_ok_phase {i : Instr} {b b' : Block} {o : List Byte} (hp : b.phase ≠ .error) (h : bodyOf i b = .ok (b', o)) :
    b.phase ∈ legalPhases i ∧ b'.phase ∈ phasesAfter i b.phase := by
  refine ⟨?legal, ?after⟩
  case legal =>
    by_contra hl
    rw [bodyOf_illegal_phase hp hl] at h
    cases h
  case after =>
    cases i with
    | nop => cases h; exact List.mem_singleton_self _
    | init => cases h; exact List.mem_singleton_self _
    | abortsrc | abortsnk => cases h
    | cnt x => obtain ⟨-, -, -, rfl⟩ := cntBody_ok h; exact List.mem_singleton_self _
    | build =>
      obtain ⟨-, -, rfl⟩ := buildBody_ok h
      show (if b.phase = .hdone then Phase.dec else .cbuilt) ∈ phasesAfter .build b.phase
      cases b.phase <;> decide
    | assign => obtain ⟨-, -, rfl⟩ := assignBody_ok h; exact List.mem_singleton_self _
    | hdrout => obtain ⟨-, -, rfl⟩ := hdroutBody_ok h; exact List.mem_singleton_self _
    | enc x => obtain ⟨henc, -, -, rfl⟩ := encBody_ok h; exact List.mem_singleton.2 henc
    | encend => obtain ⟨-, -, -, rfl⟩ := encendBody_ok h; exact List.mem_singleton_self _
    | hdrin x =>
      obtain ⟨-, -, ⟨-, rfl⟩ | ⟨-, rfl⟩⟩ := hdrinBody_ok h
      · exact List.mem_cons_of_mem _ List.mem_cons_self
      · exact List.mem_cons_self
    | dec x => obtain ⟨hdec, -, l, -, -, rfl⟩ := decBody_ok h; exact List.mem_singleton.2 hdec
    | decend => obtain ⟨-, -, -, rfl⟩ := decendBody_ok h; exact List.mem_singleton_self _

/-- Settles O12: a command that ends in ERROR has raised its body's error, which is the phase's or one of its own rows. -/
theorem commandsRaiseOnlyTheirErrors : Obligations.CommandsRaiseOnlyTheirErrors := by
  intro i s t hp h ht
  rcases exec_next h with ⟨rfl, rfl⟩ | ⟨-, herror, -⟩ | ⟨-, -, c, hbody, rfl⟩ | ⟨-, -, b, bytes, hbody, -, rfl⟩ |
    ⟨-, -, b, bytes, -, -, -, rfl⟩
  case inl => cases ht
  case inr.inl => exact absurd herror hp
  case inr.inr.inl =>
    rw [State.raise_err]
    split_ifs with hl
    · exact bodyOf_own_error hl hbody
    · rw [bodyOf_illegal_phase hp hl, Except.error.injEq] at hbody
      exact hbody.symm
  case inr.inr.inr.inl => exact absurd ht (bodyOf_ok_phase_ne_error hp hbody)
  case inr.inr.inr.inr => exact absurd ht hp

/-- Settles O13: the phase check raises outside the legal phases, and a command that neither raises nor waits has completed. -/
theorem phaseTransitionsFollowTheTable : Obligations.PhaseTransitionsFollowTheTable := by
  refine fun i s hp => ⟨fun hl => exec_raises hp (bodyOf_illegal_phase hp hl), fun t hb h hready ht => ?_⟩
  rcases exec_next h with ⟨rfl, rfl⟩ | ⟨-, herror, -⟩ | ⟨-, -, c, -, rfl⟩ | ⟨-, -, b, bytes, hbody, -, rfl⟩ |
    ⟨-, -, b, bytes, -, -, -, rfl⟩
  case inl => exact bodyOf_ok_phase (i := .init) hp rfl
  case inr.inl => exact absurd herror hp
  case inr.inr.inl => exact absurd rfl ht
  case inr.inr.inr.inl => exact bodyOf_ok_phase hp hbody
  case inr.inr.inr.inr => cases hready

end Sys2Proof.Machine
end

section
/-! SUPPORT. BITCNT is written and never read (rule R34): with another value in it every branch of every body is the same one, and its
result the same but for BITCNT. -/

namespace Sys2Proof.Machine

/-- Two results are the same error, or values that `R` relates. -/
inductive SameResult {α : Type} (R : α → α → Prop) : Except ErrCode α → Except ErrCode α → Prop
  | error (c : ErrCode) : SameResult R (.error c) (.error c)
  | ok {x y : α} (h : R x y) : SameResult R (.ok x) (.ok y)

section
variable {α : Type} {R : α → α → Prop} {e1 e2 f1 f2 : Except ErrCode α}

theorem SameResult.ite {p : Prop} [Decidable p] (he : SameResult R e1 e2) (hf : SameResult R f1 f2) :
    SameResult R (if p then e1 else f1) (if p then e2 else f2) := by
  split
  · exact he
  · exact hf

theorem SameResult.of_error {c : ErrCode} (h : SameResult R (.error c) e2) : e2 = .error c := by
  cases h; rfl

theorem SameResult.of_ok {x : α} (h : SameResult R (.ok x) e2) : ∃ y, e2 = .ok y ∧ R x y := by
  cases h with
  | ok h => exact ⟨_, rfl, h⟩

end

/-! ## The walk (rule R211) -/

/-- Two walkers that differ in BITCNT alone. -/
def Walker.SameButBitcnt (l m : Walker) : Prop := ∃ v, m = { l with bitcnt := v }

theorem decBit_bitcnt (b : Block) {l m : Walker} (h : l.SameButBitcnt m) (x : Bool) :
    SameResult Walker.SameButBitcnt (decBit b l x) (decBit b m x) := by
  obtain ⟨v, rfl⟩ := h
  exact .ite (.ite (.error _) (.ok ⟨v, rfl⟩))
    (.ite (.ok ⟨v + 1, rfl⟩) (.ite (.ite (.ok ⟨v + 1, rfl⟩) (.ok ⟨v + 1, rfl⟩)) (.error _)))

theorem decBits_bitcnt (b : Block) (bits : List Bool) {l m : Walker} (h : l.SameButBitcnt m) :
    SameResult Walker.SameButBitcnt (decBits b l bits) (decBits b m bits) := by
  induction bits generalizing l m with
  | nil => exact .ok h
  | cons x rest ih =>
    have hbit := decBit_bitcnt b h x
    rw [decBits_cons, decBits_cons]
    generalize decBit b l x = e1, decBit b m x = e2 at hbit ⊢
    cases hbit with
    | error c => exact .error c
    | ok hlm => exact ih hlm

/-! ## The bodies -/

/-- Two effects on the block that differ in BITCNT alone. -/
def SameButBitcnt (r q : Block × List Byte) : Prop := ∃ v, q = ({ r.1 with bitcnt := v }, r.2)

theorem requirePhase_bitcnt {legal : List Phase} {e : Phase → ErrCode} {b : Block} {v : BitVec 48} {r q : Effect}
    (h : SameResult SameButBitcnt r q) :
    SameResult SameButBitcnt (requirePhase legal e b r) (requirePhase legal e { b with bitcnt := v } q) :=
  .ite h (.error _)

theorem decBody_bitcnt (x : Byte) (b : Block) (v : BitVec 48) :
    SameResult SameButBitcnt (decBody x b) (decBody x { b with bitcnt := v }) := by
  have hbits := decBits_bitcnt b (bitsOfByte x) (l := ⟨b.walk, b.symcnt, b.bitcnt, []⟩) ⟨v, rfl⟩
  rw [← decBits_congr (b := b) (b2 := { b with bitcnt := v }) rfl rfl _ { walk := _, symcnt := _, bitcnt := v, outs := _ }]
    at hbits
  refine requirePhase_bitcnt (.ite (.error _) ?_)
  dsimp only
  generalize decBits b _ (bitsOfByte x) = e1, decBits { b with bitcnt := v } _ (bitsOfByte x) = e2 at hbits ⊢
  cases hbits with
  | error c => exact .error c
  | ok h =>
    obtain ⟨u, rfl⟩ := h
    exact .ok ⟨u, rfl⟩

theorem bodyOf_bitcnt (i : Instr) (b : Block) (v : BitVec 48) :
    SameResult SameButBitcnt (bodyOf i b) (bodyOf i { b with bitcnt := v }) := by
  cases i with
  | nop => exact .ok ⟨v, rfl⟩
  | init => exact .ok ⟨0, rfl⟩
  | abortsrc => exact .error _
  | abortsnk => exact .error _
  | cnt x => exact requirePhase_bitcnt (.ite (.error _) (.ok ⟨v, rfl⟩))
  | build => exact requirePhase_bitcnt (.ok ⟨0, rfl⟩)
  | assign => exact requirePhase_bitcnt (.ok ⟨v, rfl⟩)
  | hdrout => exact requirePhase_bitcnt (.ok ⟨v, rfl⟩)
  | enc x => exact requirePhase_bitcnt (.ite (.error _) (.ok ⟨_, rfl⟩))
  | encend => exact requirePhase_bitcnt (.ite (.error _) (.ok ⟨v, rfl⟩))
  | hdrin x => exact requirePhase_bitcnt (.ite (.ok ⟨v, rfl⟩) (.ok ⟨v, rfl⟩))
  | dec x => exact decBody_bitcnt x b v
  | decend => exact requirePhase_bitcnt (.ite (.error _) (.ok ⟨v, rfl⟩))

/-- Settles O20: a command ends the same way with another BITCNT, as its body does. -/
theorem noCommandDependsOnBitcnt : Obligations.NoCommandDependsOnBitcnt := by
  intro i s t v h
  have hsame := bodyOf_bitcnt i s.toBlock v
  rcases exec_next h with ⟨rfl, rfl⟩ | ⟨hi, hp, rfl⟩ | ⟨-, hp, c, hbody, rfl⟩ | ⟨-, hp, b, bytes, hbody, hready, rfl⟩ |
    ⟨-, hp, b, bytes, hbody, hne, hready, rfl⟩
  case inl => exact ⟨0, exec_init _⟩
  case inr.inl => exact ⟨v, exec_in_error hi hp⟩
  case inr.inr.inl =>
    rw [hbody] at hsame
    exact ⟨v, exec_raises (s := { s with bitcnt := v }) hp hsame.of_error⟩
  case inr.inr.inr.inl =>
    rw [hbody] at hsame
    obtain ⟨_, hbody', u, rfl⟩ := hsame.of_ok
    exact ⟨u, exec_completes (s := { s with bitcnt := v }) hp hbody' hready⟩
  case inr.inr.inr.inr =>
    rw [hbody] at hsame
    obtain ⟨_, hbody', u, rfl⟩ := hsame.of_ok
    exact ⟨v, exec_waits (s := { s with bitcnt := v }) hp hbody' hne hready⟩

end Sys2Proof.Machine
end

section
/-! SUPPORT. The codes of a tree of TreeBuild (rules R139, R151 to R154): every code is a path of 1 to 255 edges, no path is a first part of
another, and the paths fill the tree. -/

namespace Sys2Proof.Machine

/-- Settles O41: the loop's invariant at its end says every item of a full tree. -/
theorem treeBuildMakesAFullTree : Obligations.TreeBuildMakesAFullTree := treeBuild_full

/-! ## The length of a code (rules R31, R153) -/

/-- A symbol that occurs has a code of 1 to 255 bits, and any other an entry at its reset value. -/
theorem codeLut_entry (freq : Table (BitVec 32)) {s : Nat} (hs : s < 256) :
    (freq.get 0 s ≠ 0 ∧ ∃ p, (codeLut (treeBuild freq)).get LutEntry.none s = codeEntry p ∧ 1 ≤ p.length ∧ p.length ≤ 255) ∨
      (freq.get 0 s = 0 ∧ (codeLut (treeBuild freq)).get LutEntry.none s = LutEntry.none) := by
  by_cases hf : freq.get 0 s = 0
  · have hfull := treeBuild_full freq
    have hnot : ¬ (treeBuild freq).has s := fun h => (hfull.leaves s hs).1 h hf
    rw [codeLut_get, if_pos hs, assignedEntry_of_not_has hfull.rootIn hnot]
    exact .inr ⟨hf, rfl⟩
  · refine .inl ⟨hf, ?_⟩
    rcases Nat.eq_or_lt_of_le (mem_leafCount hs hf) with h1 | h2
    · rw [codeLut_single h1.symm hs hf hs, if_pos rfl]
      exact ⟨[false], rfl, by decide, by decide⟩
    · obtain ⟨p, hentry, -, -, hpos, hlen⟩ := assignedEntry_path h2 hs hf
      rw [codeLut_get, if_pos hs]
      exact ⟨p, hentry, hpos, hlen⟩

/-- The code bits past the length are 0 (rule R31). -/
theorem codeEntry_code_past {p : List Bool} {i : Nat} (h : p.length ≤ i) : (codeEntry p).code.getLsbD i = false := by
  by_cases hi : i < 255
  · rw [codeEntry, codeOfBits_getLsbD p i hi, List.getD_eq_default _ _ h]
  · exact BitVec.getLsbD_of_ge _ _ (Nat.not_lt.1 hi)

/-- Settles O46: an entry is that of a path of 1 to 255 edges, or it is clear. -/
theorem codeLengthsAreBounded : Obligations.CodeLengthsAreBounded := by
  intro freq k hk
  rcases codeLut_entry freq hk with ⟨-, p, hentry, hpos, hlen⟩ | ⟨-, hentry⟩ <;> rw [hentry]
  · refine ⟨fun _ => ?_, nofun, fun i hi => codeEntry_code_past ?_⟩
    · rw [codeEntry_len hlen]
      exact ⟨hpos, hlen⟩
    · rwa [codeEntry_len hlen] at hi
  · exact ⟨nofun, fun _ => rfl, fun i _ => BitVec.getLsbD_zero⟩

/-! ## No code is a first part of another (rule R154) -/

theorem two_le_leafCount {freq : Table (BitVec 32)} {j k : Nat} (hj : j < 256) (hk : k < 256) (hjk : j ≠ k)
    (hfj : freq.get 0 j ≠ 0) (hfk : freq.get 0 k ≠ 0) : 2 ≤ leafCount freq := by
  rcases Nat.eq_or_lt_of_le (mem_leafCount hj hfj) with h1 | h2
  · exact absurd (eq_of_leafCount_one h1.symm hj hk hfj hfk) hjk
  · exact h2

/-- Settles O48: a code that goes on past another would pass through a leaf. -/
theorem codesArePrefixFree : Obligations.CodesArePrefixFree := by
  intro freq j k hj hk hjk hvj hvk hpre
  rw [codeLut_valid freq hj] at hvj
  rw [codeLut_valid freq hk] at hvk
  have h2 := two_le_leafCount hj hk hjk hvj hvk
  obtain ⟨hleafj, -⟩ := codeLut_path h2 hj hvj
  obtain ⟨hleafk, hthrough⟩ := codeLut_path h2 hk hvk
  exact hjk (path_not_firstPart hleafj hj hleafk hthrough hpre)

/-! ## The codes fill the tree (rule R154) -/

/-- The code of a symbol, as bits. -/
def codeOf (freq : Table (BitVec 32)) (s : Nat) : List Bool := ((codeLut (treeBuild freq)).get LutEntry.none s).bits

/-- What symbol s adds to the sum of rule R154, times 2^255, if its code begins with `p`. -/
def kraftTerm (freq : Table (BitVec 32)) (p : List Bool) (s : Nat) : Nat :=
  if freq.get 0 s ≠ 0 ∧ p <+: codeOf freq s then 2 ^ (255 - (codeOf freq s).length) else 0

/-- The sum of rule R154, times 2^255, over the codes that begin with `p`. -/
def kraftSum (freq : Table (BitVec 32)) (p : List Bool) : Nat := ((List.range 256).map (kraftTerm freq p)).sum

theorem kraftTerm_of_prefix {freq : Table (BitVec 32)} {p : List Bool} {s : Nat} (hf : freq.get 0 s ≠ 0)
    (hp : p <+: codeOf freq s) : kraftTerm freq p s = 2 ^ (255 - (codeOf freq s).length) := if_pos ⟨hf, hp⟩

theorem kraftTerm_of_not_prefix {freq : Table (BitVec 32)} {p : List Bool} {s : Nat} (hp : ¬ p <+: codeOf freq s) :
    kraftTerm freq p s = 0 := if_neg fun h => hp h.2

theorem kraftTerm_of_absent {freq : Table (BitVec 32)} {s : Nat} (hf : freq.get 0 s = 0) (p : List Bool) :
    kraftTerm freq p s = 0 := if_neg fun h => h.1 hf

/-- `p` leads from the root to node `n` through internal nodes. -/
def Tree.PathTo (t : Tree) (p : List Bool) (n : Nat) : Prop :=
  follow t t.root.toNat p = n ∧ throughInternal t t.root.toNat p

theorem Tree.PathTo.child {t : Tree} {p : List Bool} {n : Nat} (h : t.PathTo p n) (hn : 256 ≤ n) (x : Bool) :
    t.PathTo (p ++ [x]) (t.child n x) := by
  obtain ⟨rfl, hthrough⟩ := h
  exact ⟨follow_append t _ p [x], throughInternal_append.2 ⟨hthrough, hn, trivial⟩⟩

section
variable {freq : Table (BitVec 32)} (h2 : 2 ≤ leafCount freq)
include h2

/-- The path to a leaf is the code of its symbol. -/
theorem codeOf_eq_of_pathTo {p : List Bool} {k : Nat} (hp : (treeBuild freq).PathTo p k) (hk : k < 256)
    (hf : freq.get 0 k ≠ 0) : codeOf freq k = p := by
  obtain ⟨hleaf, hcode⟩ := codeLut_path h2 hk hf
  have hv : (treeBuild freq).rootV = true := (treeBuild_rootV freq).2 (by omega)
  exact path_unique (treeBuild_full freq) hv _ _ hcode hp.2 (hleaf.trans hp.1.symm)

/-- No other symbol's code begins with the path to a leaf. -/
theorem kraftTerm_of_ne_leaf {p : List Bool} {k s : Nat} (hp : (treeBuild freq).PathTo p k) (hk : k < 256)
    (hs : s < 256) (hsk : s ≠ k) : kraftTerm freq p s = 0 := by
  by_cases hf : freq.get 0 s = 0
  · exact kraftTerm_of_absent hf p
  · obtain ⟨hleaf, hcode⟩ := codeLut_path h2 hs hf
    exact kraftTerm_of_not_prefix fun ⟨rest, hrest⟩ =>
      hsk (path_not_firstPart hp.1 hk hleaf hcode ⟨rest, hrest.symm⟩).symm

/-- A code that begins with the path to an internal node goes on to one of its two children. -/
theorem kraftTerm_internal {p : List Bool} {n : Nat} (hp : (treeBuild freq).PathTo p n) (hn : 256 ≤ n) {s : Nat}
    (hs : s < 256) : kraftTerm freq p s = kraftTerm freq (p ++ [false]) s + kraftTerm freq (p ++ [true]) s := by
  by_cases hf : freq.get 0 s = 0
  · simp only [kraftTerm_of_absent hf]
  by_cases hpre : p <+: codeOf freq s
  · rw [kraftTerm_of_prefix hf hpre]
    obtain ⟨hleaf, -⟩ := codeLut_path h2 hs hf
    change follow _ _ (codeOf freq s) = s at hleaf
    obtain ⟨rest, hrest⟩ := hpre
    cases rest with
    | nil =>
      rw [← hrest, List.append_nil, hp.1] at hleaf
      omega
    | cons x rest =>
      have honly : ∀ y, p ++ [y] <+: codeOf freq s ↔ y = x := by simp [← hrest]
      cases x
      · rw [kraftTerm_of_prefix hf ((honly false).2 rfl), kraftTerm_of_not_prefix (mt (honly true).1 (by decide)), Nat.add_zero]
      · rw [kraftTerm_of_prefix hf ((honly true).2 rfl), kraftTerm_of_not_prefix (mt (honly false).1 (by decide)), Nat.zero_add]
  · have hlonger : ∀ x, ¬ p ++ [x] <+: codeOf freq s := fun x h => hpre ((List.prefix_append p [x]).trans h)
    simp only [kraftTerm_of_not_prefix hpre, kraftTerm_of_not_prefix (hlonger _)]

theorem kraftSum_leaf {p : List Bool} {k : Nat} (hp : (treeBuild freq).PathTo p k) (hk : k < 256) (hf : freq.get 0 k ≠ 0) :
    kraftSum freq p = 2 ^ (255 - p.length) := by
  have hcode := codeOf_eq_of_pathTo h2 hp hk hf
  have hterm : kraftTerm freq p k = 2 ^ (255 - p.length) := by
    rw [kraftTerm_of_prefix hf (hcode ▸ List.prefix_rfl), hcode]
  rw [← hterm]
  refine (List.sum_map_eq_nsmul_single k _ fun s hsk hs => ?_).trans ?_
  · exact kraftTerm_of_ne_leaf h2 hp hk (List.mem_range.1 hs) hsk
  · rw [List.count_eq_one_of_mem List.nodup_range (List.mem_range.2 hk), one_nsmul]

theorem kraftSum_internal {p : List Bool} {n : Nat} (hp : (treeBuild freq).PathTo p n) (hn : 256 ≤ n) :
    kraftSum freq p = kraftSum freq (p ++ [false]) + kraftSum freq (p ++ [true]) := by
  rw [kraftSum, kraftSum, kraftSum, ← List.sum_map_add]
  exact congrArg List.sum (List.map_congr_left fun s hs => kraftTerm_internal h2 hp hn (List.mem_range.1 hs))

/-- The codes below a node fill its part of the code space. A path that goes on has room for one more bit, since its nodes' ids fall
(rule R153). -/
theorem kraftSum_eq (n : Nat) : ∀ p, (treeBuild freq).PathTo p n → (treeBuild freq).has n → p.length + max n 255 ≤ 510 →
    kraftSum freq p = 2 ^ (255 - p.length) := by
  obtain ⟨hleaves, hchildren, -⟩ := treeBuild_facts freq
  induction n using Nat.strong_induction_on with
  | _ n ih =>
    intro p hp hhas hlen
    by_cases hn : n < 256
    · exact kraftSum_leaf h2 hp hn ((hleaves n hn).1 hhas)
    · have hint : 256 ≤ n := Nat.not_lt.1 hn
      obtain ⟨hl, hr, hln, hrn⟩ := hchildren n hint hhas
      have hleft := ih _ hln (p ++ [false]) (hp.child hint false) hl (by rw [List.length_append, List.length_singleton]; omega)
      have hright := ih _ hrn (p ++ [true]) (hp.child hint true) hr (by rw [List.length_append, List.length_singleton]; omega)
      rw [kraftSum_internal h2 hp hint, hleft, hright, List.length_append, List.length_append, List.length_singleton,
        List.length_singleton, ← Nat.two_mul, ← Nat.pow_succ', show 255 - p.length = 255 - (p.length + 1) + 1 by omega]

end

/-- Settles O49: the sum is that of the codes below the root, which all begin with the empty path. -/
theorem codeLengthsFillTheTree : Obligations.CodeLengthsFillTheTree := by
  intro freq h2
  obtain ⟨-, hroot⟩ := treeBuild_root_internal freq h2
  have hlt := treeBuild_root_lt freq
  refine Eq.trans (congrArg List.sum (List.map_congr_left fun s hs => ?_))
    (kraftSum_eq h2 (treeBuild freq).root.toNat [] ⟨rfl, trivial⟩ hroot (by rw [List.length_nil]; omega))
  have hvalid := codeLut_valid freq (List.mem_range.1 hs)
  by_cases hf : freq.get 0 s = 0
  · rw [kraftTerm_of_absent hf, if_neg (mt hvalid.1 (not_not_intro hf))]
  · rw [kraftTerm_of_prefix hf List.nil_prefix, if_pos (hvalid.2 hf), codeOf, LutEntry.bits_length]

end Sys2Proof.Machine
end

section
/-! SUPPORT. Packing as a whole (rules R32, R170, R174): the bits are kept by `packBits_bits`, and the counts follow from the lengths. -/

namespace Sys2Proof.Machine

/-- What is packed fills whole bytes, and FILL counts the bits left over (rule R170). -/
theorem packBits_counts (p : Packer) (bits : List Bool) :
    8 * (packBits p bits).outs.length + (packBits p bits).fill.toNat = 8 * p.outs.length + p.fill.toNat + bits.length := by
  have hlen := congrArg List.length (packBits_bits p bits)
  simpa only [List.length_append, unpackBytes_length, pendingBits_eq, lowBits_length] using hlen

/-- Settles O50: from no bytes emitted, the bits are those waiting and those packed, and FILL is below 8. -/
theorem packingLosesNoBit : Obligations.PackingLosesNoBit := by
  intro acc fill bits
  have hcounts := packBits_counts ⟨acc, fill, []⟩ bits
  have hfill := (packBits ⟨acc, fill, []⟩ bits).fill.isLt
  rw [List.length_nil] at hcounts
  dsimp only at hcounts
  refine ⟨packBits_bits ⟨acc, fill, []⟩ bits, ?_, ?_⟩ <;> omega

/-- Settles O51: eight bits a byte, so the padded bits count the bytes. -/
theorem unpackOfPackAddsOnlyPadding : Obligations.UnpackOfPackAddsOnlyPadding := by
  intro bits
  have hbits := unpackBytes_packAll bits
  have hlen := congrArg List.length hbits
  rw [unpackBytes_length, List.length_append, List.length_replicate] at hlen
  exact ⟨hbits, by omega⟩

end Sys2Proof.Machine
end

section
/-! SUPPORT. DEC bit by bit and byte by byte (rules R210, R211, R213, R214): each case of one bit, the runs that stay in one case, and DEC
in each phase. -/

namespace Sys2Proof.Machine

/-! ## One bit -/

section
variable {b : Block} {l : Walker} {x : Bool}

theorem decBit_padding (hs : l.symcnt = b.total) : decBit b l x = if x then .error .malformedContainer else .ok l := if_pos hs

theorem decBit_single (hs : l.symcnt ≠ b.total) (hone : b.tree.nleaf = 1) :
    decBit b l x = .ok { l with
      symcnt := l.symcnt + 1
      bitcnt := l.bitcnt + 1
      outs := l.outs ++ [b.tree.root.setWidth 8] } := (if_neg hs).trans (if_pos hone)

/-- One edge of the walk: to a leaf, which is emitted, or to the next internal node. -/
theorem decBit_edge (hs : l.symcnt ≠ b.total) (hone : b.tree.nleaf ≠ 1) (hw : 256 ≤ l.walk.toNat) (hhas : b.tree.has l.walk.toNat)
    {child : BitVec 9} (hchild : child = if x then (b.tree.nodeAt l.walk.toNat).right else (b.tree.nodeAt l.walk.toNat).left) :
    decBit b l x = .ok (
      if child.toNat < 256 then ⟨b.tree.root, l.symcnt + 1, l.bitcnt + 1, l.outs ++ [child.setWidth 8]⟩
      else { l with walk := child, bitcnt := l.bitcnt + 1 }) := by
  rw [decBit, if_neg hs, if_neg hone, if_pos ⟨hw, hhas⟩, hchild]
  exact (apply_ite Except.ok _ _ _).symm

theorem decBit_traversal (hs : l.symcnt ≠ b.total) (hone : b.tree.nleaf ≠ 1)
    (hw : ¬ (256 ≤ l.walk.toNat ∧ b.tree.has l.walk.toNat)) : decBit b l x = .error .decodeTraversal :=
  (if_neg hs).trans ((if_neg hone).trans (if_neg hw))

end

/-- Settles O36: the four cases of the loop body, and the bits of a byte most significant first. -/
theorem decodeTakesOneBitAtATime : Obligations.DecodeTakesOneBitAtATime := by
  refine fun b l x => ⟨decBit_padding, decBit_single, fun hs hone hw hhas child => decBit_edge hs hone hw hhas,
    decBit_traversal, fun y i => ?_⟩
  fin_cases i <;> rfl

/-! ## Runs of bits in one case -/

/-- Settles O53: each of the bits leaves room for the next, and emits the one leaf's symbol. -/
theorem singleLeafDecodesEveryBit : Obligations.SingleLeafDecodesEveryBit := by
  intro b l bits hone
  induction bits generalizing l with
  | nil => exact fun _ _ => ⟨l, rfl, rfl, rfl, rfl, (List.append_nil _).symm⟩
  | cons x rest ih =>
    intro hroom hbits
    rw [List.length_cons] at hroom hbits
    have htotal := b.total.isLt
    have hs : l.symcnt ≠ b.total := by
      intro h
      rw [h] at hroom
      omega
    have hsym : (l.symcnt + 1).toNat = l.symcnt.toNat + 1 := bv_succ (by omega)
    have hbit : (l.bitcnt + 1).toNat = l.bitcnt.toNat + 1 := bv_succ (by omega)
    obtain ⟨l', hrun, hwalk, hsymcnt, hbitcnt, houts⟩ :=
      ih ⟨l.walk, l.symcnt + 1, l.bitcnt + 1, l.outs ++ [b.tree.root.setWidth 8]⟩ (by rw [hsym]; omega) (by rw [hbit]; omega)
    rw [hsym] at hsymcnt
    rw [hbit] at hbitcnt
    refine ⟨l', ?_, hwalk, ?_, ?_, ?_⟩
    · rw [decBits_cons, decBit_single hs hone]
      exact hrun
    · rw [List.length_cons]
      omega
    · rw [List.length_cons]
      omega
    · rw [houts, List.length_cons, List.replicate_succ, List.append_assoc, List.singleton_append]

/-- Settles O54: a 0 leaves the walk as it is, and the first 1 ends it with the error. -/
theorem paddingIsAcceptedOnlyWhenZero : Obligations.PaddingIsAcceptedOnlyWhenZero := by
  intro b l bits hs
  induction bits with
  | nil => rfl
  | cons x rest ih =>
    rw [decBits_cons, decBit_padding hs]
    cases x with
    | false => exact ih
    | true => rfl

/-! ## DEC (rule R211) -/

section
variable {s : State} {x : Byte} (hp : s.phase = .dec)
include hp

theorem exec_dec_decodes {l : Walker} (hs : s.symcnt ≠ s.total)
    (hl : decBits s.toBlock ⟨s.walk, s.symcnt, s.bitcnt, []⟩ (bitsOfByte x) = .ok l) (hout : l.outs = [] ∨ s.outReady = true) :
    exec (.dec x) s =
      .next { s with walk := l.walk, symcnt := l.symcnt, bitcnt := l.bitcnt, out := s.out ++ l.outs } :=
  exec_completes (by rw [hp]; decide) (decBody_completes hp hs hl) hout

theorem exec_dec_bad_bit {c : ErrCode} (hs : s.symcnt ≠ s.total)
    (hc : decBits s.toBlock ⟨s.walk, s.symcnt, s.bitcnt, []⟩ (bitsOfByte x) = .error c) :
    exec (.dec x) s = .next (s.raise c (encode (.dec x))) := by
  refine exec_raises (by rw [hp]; decide) ?_
  rw [bodyOf, decBody, requirePhase_legal (List.mem_singleton.2 hp), if_neg hs, hc]

theorem exec_dec_excess (hs : s.symcnt = s.total) :
    exec (.dec x) s = .next (s.raise .malformedContainer (encode (.dec x))) :=
  exec_raises (by rw [hp]; decide) ((requirePhase_legal (List.mem_singleton.2 hp)).trans (if_pos hs))

end

/-- Settles O37: the walk over the byte's bits decides, after the checks of the phase and of the symbols still missing. -/
theorem decDecodesOneByte : Obligations.DecDecodesOneByte := fun _ _ =>
  ⟨rfl, fun hp hs => ⟨fun _ => exec_dec_decodes hp hs, fun _ => exec_dec_bad_bit hp hs⟩, exec_dec_excess,
    exec_out_of_phase rfl⟩

end Sys2Proof.Machine
end
